-- ==== Sys2Proof/Word.lean ====
section
/-! DEFINITION. The word types of the block and the two operand selectors (R14, R16, R72, R74). -/

namespace Sys2Proof

/-- A byte: an 8-bit unsigned value (R14). -/
abbrev Byte := BitVec 8

/-- A 24-bit unsigned descriptor field, `A` or `B` (R69). -/
abbrev Field24 := BitVec 24

/-- A 64-bit request descriptor (R68). -/
abbrev Descriptor := BitVec 64

/-- The two byte-wide channels of the adapter (R42); as a selector bit, 0 is `data` and 1 is `ctrl` (R72, R74). -/
inductive Bus where
  | data
  | ctrl
deriving DecidableEq, Repr

/-- The two directions `AdapterSetDir` can set (R17); as a selector bit, 0 is `drive` and 1 is `read` (R74). -/
inductive DirSel where
  | drive
  | read
deriving DecidableEq, Repr

end Sys2Proof
end

