-- ==== Sys2Proof/Config.lean ====
section
/-! DEFINITION. The configuration of a session (R8, R9, R11, R12, R38) and the free values of the environment (R10, R119, R120). -/

namespace Sys2Proof

/-- The session's configuration: "immutable configuration ... Fixed for a session" (R38). Every field is a parameter of the
model; the defaults are those of R8, R9, R11 and R12 (entry 2: the command bytes and the geometry numbers are PRESUMED). -/
structure Config where
  /-- `PAGE_SIZE`, bytes of a page, spare area included (R8). -/
  pageSize : Nat := 2112
  /-- `PAGE_DATA_SIZE` (R8). No rule of the block reads it. -/
  pageDataSize : Nat := 2048
  /-- `PAGES_PER_BLOCK` (R8). -/
  pagesPerBlock : Nat := 64
  /-- `BLOCK_COUNT` (R8). No rule of the block reads it (R45). -/
  blockCount : Nat := 4096
  /-- `DONT_CARE_MASK` over the five address cycles (R8). The encoder does not apply it (R107). -/
  dontCareMask : BitVec 40 := 0
  /-- `CMD_READID` (R9). -/
  cmdReadId : Byte := 0x90
  /-- `CMD_READ1_0` (R9). -/
  cmdRead1First : Byte := 0x00
  /-- `CMD_READ1_1` (R9). -/
  cmdRead1Confirm : Byte := 0x30
  /-- `CMD_ERASE_0` (R9). -/
  cmdEraseFirst : Byte := 0x60
  /-- `CMD_ERASE_1` (R9). -/
  cmdEraseConfirm : Byte := 0xD0
  /-- `CMD_READSTATUS` (R9). -/
  cmdReadStatus : Byte := 0x70
  /-- `CMD_PROGRAM_0` (R9). -/
  cmdProgramFirst : Byte := 0x80
  /-- `CMD_PROGRAM_1` (R9). -/
  cmdProgramConfirm : Byte := 0x10
  /-- `T_PRE_DRIVE`, microseconds (R11). -/
  tPreDrive : Nat := 0
  /-- `T_POST_DRIVE` (R11). -/
  tPostDrive : Nat := 0
  /-- `T_POST_LATCH` (R11). -/
  tPostLatch : Nat := 0
  /-- `T_READ_LOW` (R11). -/
  tReadLow : Nat := 0
  /-- `T_READ_HIGH` (R11). -/
  tReadHigh : Nat := 0
  /-- `T_POLL_INTERVAL` (R11, R100). -/
  tPollInterval : Nat := 0
  /-- `T_BUSY_SETTLE` (R11, R153). -/
  tBusySettle : Nat := 0
  /-- `EXPECTED_ID`, five bytes (R12). -/
  expectedId : Vector Byte 5 := #v[0xAD, 0xDC, 0x10, 0x95, 0x54]
  /-- `POLL_LIMIT`: `none`, or a number that is at least 1 (R12, R100). The illegal value 0 is not a term of the type (U6). -/
  pollLimit : Option ℕ+ := none
deriving DecidableEq, Repr

/-- The default configuration (R8, R9, R11, R12). -/
def Config.default : Config := {}

/-- The single "per-transition delay in microseconds" of R11: given, it sets the five transition delays to one value and leaves
`T_POLL_INTERVAL` and `T_BUSY_SETTLE`. -/
def Config.withTransitionDelay (t : Nat) (c : Config) : Config :=
  { c with tPreDrive := t, tPostDrive := t, tPostLatch := t, tReadLow := t, tReadHigh := t }

/-- Sets `POLL_LIMIT` from a natural number; 0 "is not a legal configuration" and is rejected (R100, U6). -/
def Config.withPollLimit (limit : Nat) (c : Config) : Option Config :=
  if h : 0 < limit then some { c with pollLimit := some ⟨limit, h⟩ } else none

/-- `READID_ADDR`, the one address byte after READID (R12). -/
def Config.readIdAddr : Byte := 0x00

/-- `READID_LEN`, the bytes read after READID (R12). -/
def Config.readIdLen : Nat := 5

/-- `ADDR_CYCLES`, the address cycles of a full address (R8). -/
def Config.addrCycles : Nat := 5

/-- `BLANK_VALUE`, the "blank-erased value" (R12). -/
def Config.blankValue : Byte := 0xFF

/-- `ZERO_VALUE`, the all-zero skip value (R12). -/
def Config.zeroValue : Byte := 0x00

/-- FREE VALUE (entry 3): the byte an adapter read returns when the state lists no answer for it, the n-th such read. It is
"drawn from the NAND chip (the environment), under no law the block imposes" (R10). -/
opaque Config.freeSample : Nat → Byte

/-- FREE VALUE (entry 4): whether the file collaborator serves a record when the state lists no answer for it (R119, R120, U32). -/
opaque Config.freeStorageAnswer : Nat → Bool

/-- FREE VALUE (entry 14): the 24-bit length field of a binary response whose result is too long for it (R79 gives none). -/
opaque Config.freeResultLength : Nat → Field24

/-- FREE VALUE (entry 22): `id_match` in the response of a READID that ends before its comparison, by the request's index. R34
says that READID sets it, R109 where, R79 fixes it for every other operation. -/
opaque Config.freeIdMatch : Nat → Bool

end Sys2Proof
end

