-- ==== Sys2Proof/Syntax.lean ====
section
/-! DEFINITION. The operations of the block: one constructor for each row of spec/opcode_table.json (R70). -/

namespace Sys2Proof

/-- "These 21 operations are every operation of the block" (R70). The operands are the descriptor's free fields (R69, R72, R74);
a payload is not part of the instruction, it is read from the request stream (R46). -/
inductive Instr where
  /-- `setPin(bus, pin, value)` (R84). -/
  | setpin (bus : Bus) (pin : BitVec 3) (value : Bool)
  /-- "drive data bus to `byte`", mirror part (R85). -/
  | setdata (byte : Byte)
  /-- `flush(bus)` (R86). -/
  | flush (bus : Bus)
  /-- `sampleInput(bus)` (R87). -/
  | sample (bus : Bus)
  /-- data-bus direction switch (R88). -/
  | setdir (direction : DirSel)
  /-- configurable delay (R89). -/
  | delay (microseconds : Field24)
  /-- session initialisation (R90). -/
  | init
  /-- `LatchCommand(byte)` (R93). -/
  | lcmd (command : Byte)
  /-- `LatchAddress(bytes[])`, n payload bytes (R94). -/
  | laddr (n : Field24)
  /-- `LatchRegisterOut(count)` (R95). -/
  | lout (count : Field24)
  /-- `LatchDataIn(bytes[])`, n payload bytes (R96). -/
  | ldin (n : Field24)
  /-- `waitWhileBusy()` (R99). -/
  | waitrdy
  /-- `toAddressCycles(page, column)` (R103). -/
  | addrcyc (page column : Field24)
  /-- ReadID (R109). -/
  | readid
  /-- `ReadPage(page)` (R110). -/
  | readpage (page : Field24)
  /-- `EraseBlock(block)` (R111). -/
  | erase (block : Field24)
  /-- `ProgramPage(page, data)`, `length` payload bytes (R112). -/
  | program (page length : Field24)
  /-- Read Status (R113). -/
  | readstatus
  /-- `DumpRange(startPage, count)` (R119). -/
  | dump (startPage count : Field24)
  /-- `ProgramRange(startPage, count, sourcePages)` (R120). -/
  | programrange (startPage count : Field24)
  /-- `EraseRange(startBlock, count)` (R122). -/
  | eraserange (startBlock count : Field24)
deriving DecidableEq, Repr

end Sys2Proof
end

