-- ==== Sys2Proof/WellFormed.lean ====
section
/-! DEFINITION. Which terms of `Instr` are instructions: the pin check of R73 and the length check of R71. -/

namespace Sys2Proof

/-- An instruction that some descriptor names: SETPIN never names the control bus's RDY pin, which is pin 6 (R73). "Every other
pin value is legal", and no other operand value is refused (R77). -/
def Instr.wellFormed : Instr → Bool
  | .setpin bus pin _ => !(bus == .ctrl && pin == 6)
  | _ => true

/-- PROGRAM's payload length must be `PAGE_SIZE` (R71, D14); no other operation has a length of its own to check. -/
def Instr.lengthOk (pageSize : Nat) : Instr → Bool
  | .program _ length => length.toNat == pageSize
  | _ => true

end Sys2Proof
end

