-- ==== Sys2Proof/Decode.lean ====
section
/-! DEFINITION. Request descriptors: decoding, total on any bytes and rejecting by name, then encoding (R68 to R78). -/

namespace Sys2Proof

/-! ## Fields (R69) -/

/-- `OP`, bits 7 to 0 (R69). -/
def Descriptor.op (w : Descriptor) : Byte := w.extractLsb' 0 8

/-- `IMM`, bits 15 to 8 (R69). -/
def Descriptor.imm (w : Descriptor) : Byte := w.extractLsb' 8 8

/-- `A`, bits 39 to 16 (R69). -/
def Descriptor.fieldA (w : Descriptor) : Field24 := w.extractLsb' 16 24

/-- `B`, bits 63 to 40 (R69). -/
def Descriptor.fieldB (w : Descriptor) : Field24 := w.extractLsb' 40 24

/-- The descriptor with the four fields of R69, `B` the most significant. -/
def Descriptor.ofFields (op imm : Byte) (a b : Field24) : Descriptor := b ++ a ++ imm ++ op

/-! ## The opcode map (R70) -/

/-- The rows of the opcode map (R70). -/
inductive Mnemonic where
  | SETPIN | SETDATA | FLUSH | SAMPLE | SETDIR | DELAY | INIT
  | LCMD | LADDR | LOUT | LDIN
  | WAITRDY
  | ADDRCYC
  | READID | READPAGE | ERASE | PROGRAM | READSTATUS
  | DUMP | PROGRAMRANGE | ERASERANGE
deriving DecidableEq, Repr

/-- Every row of the opcode map, in the table's order. -/
def Mnemonic.all : List Mnemonic :=
  [.SETPIN, .SETDATA, .FLUSH, .SAMPLE, .SETDIR, .DELAY, .INIT, .LCMD, .LADDR, .LOUT, .LDIN, .WAITRDY, .ADDRCYC,
    .READID, .READPAGE, .ERASE, .PROGRAM, .READSTATUS, .DUMP, .PROGRAMRANGE, .ERASERANGE]

/-- The `OP` value of a row (R70). -/
def Mnemonic.opcode : Mnemonic → Byte
  | .SETPIN => 0x01
  | .SETDATA => 0x02
  | .FLUSH => 0x03
  | .SAMPLE => 0x04
  | .SETDIR => 0x05
  | .DELAY => 0x06
  | .INIT => 0x07
  | .LCMD => 0x10
  | .LADDR => 0x11
  | .LOUT => 0x12
  | .LDIN => 0x13
  | .WAITRDY => 0x18
  | .ADDRCYC => 0x1C
  | .READID => 0x20
  | .READPAGE => 0x21
  | .ERASE => 0x22
  | .PROGRAM => 0x23
  | .READSTATUS => 0x24
  | .DUMP => 0x30
  | .PROGRAMRANGE => 0x31
  | .ERASERANGE => 0x32

/-- The seven formats (R70): which fields of the descriptor are free. -/
inductive Format where
  | Z | I | P | S | A | B | AB
deriving DecidableEq, Repr

/-- The format of a row (R70). -/
def Mnemonic.format : Mnemonic → Format
  | .SETPIN => .P
  | .SETDATA | .LCMD => .I
  | .FLUSH | .SAMPLE | .SETDIR => .S
  | .DELAY | .READPAGE | .ERASE => .A
  | .INIT | .WAITRDY | .READID | .READSTATUS => .Z
  | .LADDR | .LOUT | .LDIN => .B
  | .ADDRCYC | .PROGRAM | .DUMP | .PROGRAMRANGE | .ERASERANGE => .AB

/-- Whether every reserved bit of a format is zero (R77). -/
def Format.reservedZero (f : Format) (imm : Byte) (a b : Field24) : Bool :=
  match f with
  | .Z => imm == 0 && a == 0 && b == 0
  | .I => a == 0 && b == 0
  | .P => imm.extractLsb' 5 3 == 0 && a == 0 && b == 0
  | .S => imm.extractLsb' 1 7 == 0 && a == 0 && b == 0
  | .A => imm == 0 && b == 0
  | .B => imm == 0 && a == 0
  | .AB => imm == 0

/-- The `mask` of a row's format, as spec/opcode_table.json lists it (R75). -/
def Format.mask : Format → Descriptor
  | .Z => 0xFFFFFFFFFFFFFFFF
  | .I => 0xFFFFFFFFFFFF00FF
  | .P => 0xFFFFFFFFFFFFE0FF
  | .S => 0xFFFFFFFFFFFFFEFF
  | .A => 0xFFFFFF000000FFFF
  | .B => 0x000000FFFFFFFFFF
  | .AB => 0x000000000000FFFF

/-- The `match` of a row, as spec/opcode_table.json lists it (R75): the opcode, every other fixed bit 0. -/
def Mnemonic.pattern (m : Mnemonic) : Descriptor := m.opcode.setWidth 64

/-! ## Operand selectors (R72, R74) -/

/-- The bus selector bit: 0 is the data bus, 1 the control bus (R72, R74). -/
def Bus.ofBit (b : Bool) : Bus := if b then .ctrl else .data

/-- The selector bit of a bus (R72, R74). -/
def Bus.bit : Bus → Bool
  | .data => false
  | .ctrl => true

/-- The direction selector bit: 0 is `Drive`, 1 is `Read` (R74). -/
def DirSel.ofBit (b : Bool) : DirSel := if b then .read else .drive

/-- The selector bit of a direction (R74). -/
def DirSel.bit : DirSel → Bool
  | .drive => false
  | .read => true

/-! ## Decoding (R75) -/

/-- Why a decoder rejects bytes. The last three are the response `IllegalRequest(op)` (R75, R125). -/
inductive DecodeError where
  /-- Fewer than the eight bytes of a descriptor (R68). -/
  | cutShort
  /-- The opcode is in no row of R70 (R76). -/
  | reservedOpcode (w : Descriptor)
  /-- A field that must be zero is not (R77). -/
  | reservedField (w : Descriptor)
  /-- SETPIN names the control bus's RDY pin (R73). -/
  | rdyPin (w : Descriptor)
deriving DecidableEq, Repr

/-- The descriptor that was rejected, if there were eight bytes. -/
def DecodeError.descriptor : DecodeError → Option Descriptor
  | .cutShort => none
  | .reservedOpcode w => some w
  | .reservedField w => some w
  | .rdyPin w => some w

/-- The instruction of a row and its free fields (R69, R70, R72, R74, R78): every field is used as it is, without sign extension
or scaling. -/
def Mnemonic.build (m : Mnemonic) (imm : Byte) (a b : Field24) : Instr :=
  match m with
  | .SETPIN => .setpin (.ofBit (imm.getLsbD 4)) (imm.extractLsb' 0 3) (imm.getLsbD 3)
  | .SETDATA => .setdata imm
  | .FLUSH => .flush (.ofBit (imm.getLsbD 0))
  | .SAMPLE => .sample (.ofBit (imm.getLsbD 0))
  | .SETDIR => .setdir (.ofBit (imm.getLsbD 0))
  | .DELAY => .delay a
  | .INIT => .init
  | .LCMD => .lcmd imm
  | .LADDR => .laddr b
  | .LOUT => .lout b
  | .LDIN => .ldin b
  | .WAITRDY => .waitrdy
  | .ADDRCYC => .addrcyc a b
  | .READID => .readid
  | .READPAGE => .readpage a
  | .ERASE => .erase a
  | .PROGRAM => .program a b
  | .READSTATUS => .readstatus
  | .DUMP => .dump a b
  | .PROGRAMRANGE => .programrange a b
  | .ERASERANGE => .eraserange a b

/-- The row with a given opcode (R70), if there is one. -/
def Mnemonic.ofOpcode (op : Byte) : Option Mnemonic := Mnemonic.all.find? (fun m => m.opcode == op)

/-- Decodes a descriptor (R75, in the order of R128 item 1): unknown opcode, then a non-zero reserved field, then the RDY pin.
PROGRAM's length and the payload's are checked when the request starts (`Machine.requestError`). "The decoder is total". -/
def decode (w : Descriptor) : Except DecodeError Instr :=
  match Mnemonic.ofOpcode (Descriptor.op w) with
  | none => .error (.reservedOpcode w)
  | some m =>
    if m.format.reservedZero (Descriptor.imm w) (Descriptor.fieldA w) (Descriptor.fieldB w) then
      let i := m.build (Descriptor.imm w) (Descriptor.fieldA w) (Descriptor.fieldB w)
      if i.wellFormed then .ok i else .error (.rdyPin w)
    else .error (.reservedField w)

/-- The descriptor that eight bytes carry, little-endian: byte j holds bits 8j+7 to 8j (R68). -/
def Descriptor.ofBytes : List Byte → Option Descriptor
  | b0 :: b1 :: b2 :: b3 :: b4 :: b5 :: b6 :: b7 :: _ => some (b7 ++ b6 ++ b5 ++ b4 ++ b3 ++ b2 ++ b1 ++ b0)
  | _ => none

/-- The eight bytes of a descriptor, little-endian (R68). -/
def Descriptor.toBytes (w : Descriptor) : List Byte :=
  [w.extractLsb' 0 8, w.extractLsb' 8 8, w.extractLsb' 16 8, w.extractLsb' 24 8,
    w.extractLsb' 32 8, w.extractLsb' 40 8, w.extractLsb' 48 8, w.extractLsb' 56 8]

/-- Decodes the descriptor at the front of any bytes (R68, R75). -/
def decodeBytes (bytes : List Byte) : Except DecodeError Instr :=
  match Descriptor.ofBytes bytes with
  | none => .error .cutShort
  | some w => decode w

/-- The instruction the decoder reads from the low `nbits` bits of `w`, laid out as the request stream stores a descriptor, every
bit above them zero; `none` where the decoder rejects. -/
def decodeTableWord (nbits w : Nat) : Option Instr :=
  (decodeBytes (Descriptor.toBytes (BitVec.ofNat 64 (w % 2 ^ nbits)))).toOption

/-! ## Payload length (R71) -/

/-- `PLEN`, from the opcode and field `B` alone (R68, R71): `B` for LADDR, LDIN and PROGRAM, `B × PAGE_SIZE` for PROGRAMRANGE, and
0 otherwise. An opcode of no row has no payload (entry 8). -/
def payloadLength (pageSize : Nat) (w : Descriptor) : Nat :=
  match Mnemonic.ofOpcode (Descriptor.op w) with
  | some .LADDR | some .LDIN | some .PROGRAM => (Descriptor.fieldB w).toNat
  | some .PROGRAMRANGE => (Descriptor.fieldB w).toNat * pageSize
  | _ => 0

/-- `PLEN` of an instruction (R71). -/
def Instr.payloadLength (pageSize : Nat) : Instr → Nat
  | .laddr n => n.toNat
  | .ldin n => n.toNat
  | .program _ length => length.toNat
  | .programrange _ count => count.toNat * pageSize
  | _ => 0

/-! ## Encoding -/

/-- The row of an instruction (R70). -/
def Instr.mnemonic : Instr → Mnemonic
  | .setpin _ _ _ => .SETPIN
  | .setdata _ => .SETDATA
  | .flush _ => .FLUSH
  | .sample _ => .SAMPLE
  | .setdir _ => .SETDIR
  | .delay _ => .DELAY
  | .init => .INIT
  | .lcmd _ => .LCMD
  | .laddr _ => .LADDR
  | .lout _ => .LOUT
  | .ldin _ => .LDIN
  | .waitrdy => .WAITRDY
  | .addrcyc _ _ => .ADDRCYC
  | .readid => .READID
  | .readpage _ => .READPAGE
  | .erase _ => .ERASE
  | .program _ _ => .PROGRAM
  | .readstatus => .READSTATUS
  | .dump _ _ => .DUMP
  | .programrange _ _ => .PROGRAMRANGE
  | .eraserange _ _ => .ERASERANGE

/-- The opcode of an instruction (R70). -/
def Instr.opcode (i : Instr) : Byte := i.mnemonic.opcode

/-- The `IMM` field of an instruction (R70, R72, R74). -/
def Instr.immField : Instr → Byte
  | .setpin bus pin value => 0#3 ++ BitVec.ofBool bus.bit ++ BitVec.ofBool value ++ pin
  | .setdata byte => byte
  | .lcmd command => command
  | .flush bus => 0#7 ++ BitVec.ofBool bus.bit
  | .sample bus => 0#7 ++ BitVec.ofBool bus.bit
  | .setdir d => 0#7 ++ BitVec.ofBool d.bit
  | _ => 0

/-- The `A` field of an instruction (R70, R78). -/
def Instr.aField : Instr → Field24
  | .delay t => t
  | .addrcyc page _ => page
  | .readpage page => page
  | .erase block => block
  | .program page _ => page
  | .dump start _ => start
  | .programrange start _ => start
  | .eraserange start _ => start
  | _ => 0

/-- The `B` field of an instruction (R70, R78). -/
def Instr.bField : Instr → Field24
  | .laddr n => n
  | .lout count => count
  | .ldin n => n
  | .addrcyc _ column => column
  | .program _ length => length
  | .dump _ count => count
  | .programrange _ count => count
  | .eraserange _ count => count
  | _ => 0

/-- The descriptor of an instruction (R69, R70): the fields its format does not free are zero (R77). -/
def encode (i : Instr) : Descriptor := Descriptor.ofFields i.opcode i.immField i.aField i.bField

/-- A request as bytes: the descriptor, then the payload, byte 0 first (R68). -/
def encodeRequest (i : Instr) (payload : List Byte) : List Byte := Descriptor.toBytes (encode i) ++ payload

end Sys2Proof
end

