-- ==== Sys2Proof/Machine/State.lean ====
section
/-! DEFINITION. The state of the machine, as plain data (R21 to R40), its stop reasons, and the state after reset (R145). -/

namespace Sys2Proof.Machine

/-! ## The vocabulary of the state -/

/-- The signals of the control bus, in the order the document lists them (R23, R66). -/
inductive Signal where
  | CLE | ALE | nCE | nWE | nRE | nWP | RDY | AUX
deriving DecidableEq, Repr

/-- The data-bus direction mode: `unset` is "never set since reset" (R28). -/
inductive Dir where
  | unset
  | drive
  | read
deriving DecidableEq, Repr

/-- The four Bus Operations, as a `ProtocolPrecondition` names them (R92). -/
inductive BusOp where
  | LCMD | LADDR | LOUT | LDIN
deriving DecidableEq, Repr

/-- One adapter call, an event of the trace (R17, R20). -/
inductive Event where
  /-- `W(C,v)` -/
  | writeCtrl (v : Byte)
  /-- `W(D,v)` -/
  | writeData (v : Byte)
  /-- `R(C)=v` -/
  | readCtrl (v : Byte)
  /-- `R(D)=v` -/
  | readData (v : Byte)
  /-- `DIR(d)` -/
  | setDir (d : DirSel)
  /-- `DLY(t)` -/
  | delay (t : Nat)
deriving DecidableEq, Repr

/-- A response code together with the information it carries: `resp.code` and `resp.info` (R34, R125, R126). -/
inductive Report where
  | ok
  | protocolPrecondition (op : BusOp) (signal : Signal)
  | identityMismatch
  | eraseFailed (block : Nat) (status : Byte)
  | programFailed (page : Nat) (status : Byte)
  | timeout (samples : Nat)
  | storageIO (record : Nat)
  | illegalRequest (opcode : Byte)
  | lengthMismatch (length : Nat)
  | directionViolation (bus : Bus)
deriving DecidableEq, Repr

/-- The response of a completed request (R34). `idMatch` is 0 for every operation but READID (R79); of a READID that ends before
its comparison it is a free value (entry 22). -/
structure Response where
  report : Report
  bytes : List Byte
  idMatch : Bool
deriving DecidableEq, Repr

/-- The state of the running operation, `seq` (R33). The last four fields keep what R18, R109 and R129 need until the response. -/
structure Seq where
  /-- the running request's operation (R33) -/
  op : Instr
  /-- index of the next line of the operation's fixed sequence (R33, R108) -/
  step : Nat
  /-- byte index inside LatchAddress, LatchDataIn and LatchRegisterOut (R33; entry 15 says when it advances) -/
  k : Nat
  /-- RDY samples taken in the current wait (R33) -/
  polls : Nat
  /-- bytes sampled so far by LatchRegisterOut (R33) -/
  outbuf : List Byte
  /-- the status register value read, once it is read (R33) -/
  status : Option Byte
  /-- 1 while this operation has set nWP to 1 and not yet set it back (R33) -/
  wpOpen : Bool
  /-- index inside a range operation (R33) -/
  rangeI : Nat
  /-- the response buffer that `MemWrite` writes (R18, R46) -/
  buf : List Byte
  /-- the code the request ends with if no error is raised: `OK`, or READID's report (R109, R127) -/
  report : Report
  /-- what READID's comparison found, once it is made (R109) -/
  idMatch : Option Bool
  /-- the error raised, until its write-protect restore and its response, which are the next steps (R114 item 3, R129; entry 7) -/
  failing : Option Report
deriving DecidableEq, Repr

/-- One line of an operation's fixed sequence: one call of a rule of 40_gpio_primitives.md to 43_address_translator.md, or one
bookkeeping line of a pseudocode (R33, R108). A line makes at most one adapter call (R6). -/
inductive Line where
  /-- `setPin(bus, pin, value)` (R84) -/
  | setPin (bus : Bus) (pin : BitVec 3) (value : Bool)
  /-- `data <- b` (R85) -/
  | setData (b : Byte)
  /-- `flush(bus)` (R86) -/
  | flush (bus : Bus)
  /-- `sampleInput(bus)` and its `MemWrite(0, 1, [v])` (R87) -/
  | sample (bus : Bus)
  /-- `AdapterSetDir(d) ; dir <- d` (R88) -/
  | setDir (d : DirSel)
  /-- `Sleep(t)` (R89) -/
  | sleep (t : Nat)
  /-- `ctrl.S <- v` for each listed signal, then one `Flush(Ctrl)` (R57) -/
  | driveCtrl (changes : List (Signal × Bool))
  /-- `data <- b ; Flush(Data)` (R85, R86) -/
  | driveData (b : Byte)
  /-- the entry checks of a Bus Operation (R92) -/
  | checkEntry (op : BusOp)
  /-- `data <- bytes[k] ; Flush(Data)` of LatchAddress and LatchDataIn, `bytes[k] = b` (R94, R96) -/
  | latchByte (b : Byte)
  /-- the closing `Sleep(t)` of one byte's iteration, after which the loop goes on with the next k (R94, R95, R96; entry 15) -/
  | byteEnd (t : Nat)
  /-- `v <- AdapterRead(Data)` of LatchRegisterOut; `toResponse` says whether its `MemWrite` reaches the response (R95, R118) -/
  | readByte (toResponse : Bool)
  /-- the write-protect bracket: `ctrl.nWP <- v ; Flush(Ctrl) ; seq.wp_open <- v` (R114) -/
  | writeProtect (off : Bool)
  /-- `seq.polls <- 0 ; Sleep(T_BUSY_SETTLE)` (R99) -/
  | waitStart
  /-- one RDY sample of the wait loop (R99) -/
  | poll
  /-- `Sleep(T_POLL_INTERVAL)`, then back to the sample (R99) -/
  | pollInterval
  /-- `MemWrite(offset, len(bytes), bytes)` (R103) -/
  | storeBytes (offset : Nat) (bytes : List Byte)
  /-- `MemWrite(offset, len(seq.outbuf), seq.outbuf)` (R109, R110) -/
  | storeOut (offset : Nat)
  /-- READID's comparison with `EXPECTED_ID` (R109) -/
  | compareId
  /-- `s <- LatchRegisterOut(1)[0] ; seq.status <- s` (R111, R112, R113) -/
  | takeStatus
  /-- `MemWrite(0, 1, [s])` (R111, R112, R113) -/
  | storeStatus
  /-- `if s[0] = 1: raise EraseFailed(block, s)` (R111) -/
  | testErase (block : Nat)
  /-- `if s[0] = 1: raise ProgramFailed(page, s)` (R112) -/
  | testProgram (page : Nat)
  /-- the head of a range's loop: element i begins (R119, R122) -/
  | element (i : Nat)
  /-- the head of PROGRAMRANGE's loop: record i is taken from the source (R120) -/
  | sourceRecord (i : Nat)
  /-- DUMP's `MemWrite(i × PAGE_SIZE, PAGE_SIZE, buf) ; Sink(i, buf)` (R119) -/
  | sinkRecord
deriving DecidableEq, Repr

/-- A sparse byte memory: (address, byte) pairs in canonical form (`Memory.wf`); an unlisted address reads as 0x00. -/
abbrev Memory := List Host.Cell

/-- What an address the memory does not list reads as. The host supplies every byte of its stream, so this is only how a byte
0x00 is written down (entry 8). -/
def Memory.unlisted : Byte := 0x00

/-- The canonical form: addresses strictly rising, and no entry equal to what an unlisted address reads as. -/
abbrev Memory.wf (m : Memory) : Prop :=
  m.Pairwise (fun c d => c.1 < d.1) ∧ ∀ c ∈ m, c.2 ≠ Memory.unlisted

/-- The host's request stream as bytes (R35, R38, R68): the addresses below `length` exist, no other does. -/
structure Stream where
  mem : Memory
  length : Nat
deriving DecidableEq, Repr

/-- What the environment answers: listed answers first, then the free values of `Config`, numbered by the two counters
(R10, R119, R120; entries 3 and 4). -/
structure Env where
  samples : List Byte
  sampled : Nat
  storage : List Bool
  stored : Nat
deriving DecidableEq, Repr

/-- The state of the machine. -/
structure State where
  /-- the session's configuration; no operation writes it (R38; entry 1) -/
  cfg : Config
  /-- the host's request stream; no operation writes it (R61; entry 8) -/
  stream : Stream
  /-- byte offset of request `rp` in the stream (the model's own; entry 8) -/
  pos : Nat
  /-- control-bus mirror (R22) -/
  ctrl : Byte
  /-- data-bus mirror (R26) -/
  data : Byte
  /-- data-bus direction (R28) -/
  dir : Dir
  /-- last byte written to the control channel, `none` while unknown (R29) -/
  physCtrl : Option Byte
  /-- last byte written to the data channel, `none` while unknown (R29) -/
  physData : Option Byte
  /-- the running operation (R33) -/
  seq : Option Seq
  /-- the response of the last completed request (R34) -/
  resp : Option Response
  /-- the request pointer (R35) -/
  rp : Nat
  /-- the environment's answers (R10) -/
  env : Env
  /-- the adapter calls made so far, in order (R6, R20) -/
  trace : List Event
  /-- the records delivered by DUMP, each with its index (R119) -/
  sink : List (Nat × List Byte)
  /-- whether the session is open (R39, R132) -/
  sessionOpen : Bool
deriving DecidableEq, Repr

/-! ## How a step can stop -/

/-- The machine's only fault. (The block's errors are responses, R129, and no operation faults.) -/
inductive Fault where
  /-- Raised by `step` when it takes a request: the stream ends inside the descriptor, so the fetch would read a byte that does
  not exist. R75 covers only a payload cut short. Safe: the machine stops. -/
  | descriptorCutShort
deriving DecidableEq, Repr

/-- Why the machine gives no next state. -/
inductive Refusal where
  /-- Raised by `exec` for an instruction that has no meaning yet; no instruction is in that case. Safe. -/
  | notModelled (mnemonic : String)
  /-- Raised by `step` when the host's stream holds no further request: the block has nothing to do (R35, R40). Safe. -/
  | noRequest
  /-- Raised by `step` and by `exec` after the session has ended: the block makes no further call (R39, R132). Safe. -/
  | sessionEnded
  /-- Raised by `exec` when it is asked for an instruction while the request of another one is running: "a request starts only
  after the previous request's response is produced" (R40, R55). `step` never asks this. Safe. -/
  | anotherRequestRunning
  /-- Raised by `readResponse`: "before the first request completes, `resp` is `none`, and reading it is refused" (R34). Safe. -/
  | noResponse
deriving DecidableEq, Repr

/-! ## Reset -/

/-- The empty request stream. -/
def Stream.empty : Stream := { mem := [], length := 0 }

/-- An environment with no listed answer: every answer is a free value. -/
def Env.free : Env := { samples := [], sampled := 0, storage := [], stored := 0 }

/-- The state at the start of a session with a given configuration and request stream, both "fixed before reset" (R38, R145):
every other field as R145 gives it, and nothing observed yet. -/
def State.newSession (cfg : Config) (stream : Stream) : State where
  cfg := cfg
  stream := stream
  pos := 0
  ctrl := 0x00
  data := 0x00
  dir := .unset
  physCtrl := none
  physData := none
  seq := none
  resp := none
  rp := 0
  env := Env.free
  trace := []
  sink := []
  sessionOpen := true

/-- The machine right after reset (R145), with the default configuration and no request supplied yet (entries 2 and 10). -/
def State.reset : State := State.newSession Config.default Stream.empty

end Sys2Proof.Machine
end

