-- ==== Sys2Proof/Machine/Memory.lean ====
section
/-! DEFINITION. Byte memory in canonical form, and the request stream held in it (R46, R68). -/

namespace Sys2Proof.Machine

/-- The byte at an address. -/
def Memory.read : Memory → Nat → Byte
  | [], _ => Memory.unlisted
  | (b, v) :: m, a => if b = a then v else Memory.read m a

/-- Writes one byte, keeping the canonical form: writing what an unlisted address reads as removes the entry. -/
def Memory.write : Memory → Nat → Byte → Memory
  | [], a, v => if v = Memory.unlisted then [] else [(a, v)]
  | (b, w) :: m, a, v =>
    if a < b then (if v = Memory.unlisted then (b, w) :: m else (a, v) :: (b, w) :: m)
    else if a = b then (if v = Memory.unlisted then m else (a, v) :: m)
    else (b, w) :: Memory.write m a v

/-- Writes a byte sequence at ascending addresses. -/
def Memory.writeBytes : Memory → Nat → List Byte → Memory
  | m, _, [] => m
  | m, a, v :: vs => Memory.writeBytes (Memory.write m a v) (a + 1) vs

/-- Makes `n` bytes from an address read as 0x00. -/
def Memory.clear (m : Memory) (a n : Nat) : Memory := m.filter (fun c => c.1 < a || a + n ≤ c.1)

/-- A stream whose bytes are all inside its length, in canonical form. -/
abbrev Stream.wf (st : Stream) : Prop := st.mem.wf ∧ ∀ c ∈ st.mem, c.1 < st.length

/-- The bytes that exist among the `n` from an address, in order: an address at or past the end of the stream does not exist. -/
def Stream.bytesAt (st : Stream) : Nat → Nat → List Byte
  | _, 0 => []
  | a, n + 1 => if a < st.length then Memory.read st.mem a :: Stream.bytesAt st (a + 1) n else []

/-- Stores a descriptor at an address, followed by `n` payload bytes 0x00; the stream grows to hold them. -/
def Stream.place (st : Stream) (a : Nat) (w : Descriptor) (n : Nat) : Stream where
  mem := Memory.writeBytes (Memory.clear st.mem a (8 + n)) a (Descriptor.toBytes w)
  length := max st.length (a + 8 + n)

/-- The request stream that holds the given bytes. -/
def Stream.ofBytes (bytes : List Byte) : Stream where
  mem := Memory.writeBytes [] 0 bytes
  length := bytes.length

end Sys2Proof.Machine
end

