-- ==== Sys2Proof/Machine/Ops.lean ====
section
/-! DEFINITION. The named operations over the registers, the adapter and the response, and what raising an error does
(R16 to R19, R129). Every read and write of a register goes through these. -/

namespace Sys2Proof.Machine

/-! ## Bits and signals (R16, R66, R84) -/

/-- `v OR (1 << i)` for 1, `v AND NOT (1 << i)` for 0 (R84). -/
def setBit (v : Byte) (i : Nat) (b : Bool) : Byte :=
  if b then v ||| (1#8 <<< i) else v &&& ~~~(1#8 <<< i)

/-- `SIGNAL_BIT`: the bit of a signal in the control byte (R66). -/
def Signal.bit : Signal → Nat
  | .CLE => 0
  | .ALE => 1
  | .nCE => 2
  | .nWE => 3
  | .nRE => 4
  | .nWP => 5
  | .RDY => 6
  | .AUX => 7

/-- The signal at a bit of the control byte (R66). -/
def Signal.ofPin (pin : BitVec 3) : Signal :=
  match pin.toNat with
  | 0 => .CLE
  | 1 => .ALE
  | 2 => .nCE
  | 3 => .nWE
  | 4 => .nRE
  | 5 => .nWP
  | 6 => .RDY
  | _ => .AUX

/-- `v.S`: the level of a signal in a control byte (R16). -/
def level (v : Byte) (sig : Signal) : Bool := v.getLsbD sig.bit

/-- A control byte with one signal changed. RDY is hardwired: "No operation writes it" (R24). -/
def withLevel (v : Byte) (sig : Signal) (b : Bool) : Byte :=
  match sig with
  | .RDY => v
  | _ => setBit v sig.bit b

/-- Several signals changed in order (R57). -/
def withLevels (v : Byte) : List (Signal × Bool) → Byte
  | [] => v
  | (sig, b) :: rest => withLevels (withLevel v sig b) rest

/-- `ctrl.S <- v` (R16, R22): the mirror only, no adapter call. -/
def setSignal (sig : Signal) (b : Bool) (s : State) : State := { s with ctrl := withLevel s.ctrl sig b }

/-- `ctrl.S <- v` for each listed signal. -/
def setSignals (changes : List (Signal × Bool)) (s : State) : State := { s with ctrl := withLevels s.ctrl changes }

/-- `setPin(bus, pin, value)` (R84): the mirror only, no adapter call. -/
def setPin (bus : Bus) (pin : BitVec 3) (value : Bool) (s : State) : State :=
  match bus with
  | .ctrl => setSignal (.ofPin pin) value s
  | .data => { s with data := setBit s.data pin.toNat value }

/-- `data <- b` (R16, R85). -/
def setData (b : Byte) (s : State) : State := { s with data := b }

/-! ## Adapter calls (R17): each appends one event to the trace -/

/-- `Flush(Ctrl)`: `AdapterWrite(Ctrl, ctrl) ; phys_ctrl <- ctrl` (R17, R86). It is allowed in every direction. -/
def flushCtrl (s : State) : State :=
  { s with physCtrl := some s.ctrl, trace := s.trace ++ [.writeCtrl s.ctrl] }

/-- `Flush(Data)` once its direction check has passed: `AdapterWrite(Data, data) ; phys_data <- data` (R17, R86). -/
def flushData (s : State) : State :=
  { s with physData := some s.data, trace := s.trace ++ [.writeData s.data] }

/-- The direction mode an `AdapterSetDir` leaves (R88). -/
def DirSel.toDir : DirSel → Dir
  | .drive => .drive
  | .read => .read

/-- `AdapterSetDir(d) ; dir <- d` (R17, R88). -/
def setDir (d : DirSel) (s : State) : State :=
  { s with dir := DirSel.toDir d, trace := s.trace ++ [.setDir d] }

/-- `Sleep(t)` (R17, R89): one event for t > 0, nothing for t = 0. -/
def sleep (t : Nat) (s : State) : State :=
  if t = 0 then s else { s with trace := s.trace ++ [.delay t] }

/-- The environment's next answer to an adapter read (R10; entry 3). -/
def Env.sample (e : Env) : Byte :=
  match e.samples with
  | [] => Config.freeSample e.sampled
  | v :: _ => v

/-- The environment after it has answered an adapter read. -/
def Env.afterSample (e : Env) : Env :=
  match e.samples with
  | [] => { e with sampled := e.sampled + 1 }
  | _ :: rest => { e with samples := rest }

/-- Whether the file collaborator serves the next record transfer (R119, R120; entry 4). -/
def Env.storageAnswer (e : Env) : Bool :=
  match e.storage with
  | [] => Config.freeStorageAnswer e.stored
  | b :: _ => b

/-- The environment after a record transfer. -/
def Env.afterStorage (e : Env) : Env :=
  match e.storage with
  | [] => { e with stored := e.stored + 1 }
  | _ :: rest => { e with storage := rest }

/-- The event of an adapter read. -/
def readEvent (bus : Bus) (v : Byte) : Event :=
  match bus with
  | .data => .readData v
  | .ctrl => .readCtrl v

/-- The state after `AdapterRead(bus)`, which returns `s.env.sample` (R17): no register changes (R52). -/
def adapterRead (bus : Bus) (s : State) : State :=
  { s with env := Env.afterSample s.env, trace := s.trace ++ [readEvent bus (Env.sample s.env)] }

/-- What the adapter drives on the data lines (R29, R88, D28): nothing in `Read`, `phys_data` in `Drive`; before the direction is
first set no rule says. -/
inductive DataLines where
  | released
  | driven (v : Option Byte)
  | unspecified
deriving DecidableEq, Repr

/-- The data lines as the adapter drives them (R29). -/
def dataLines (s : State) : DataLines :=
  match s.dir with
  | .unset => .unspecified
  | .drive => .driven s.physData
  | .read => .released

/-! ## Memory primitives (R18) -/

/-- `MemRead(addr, n)`: n bytes of the current request's payload from an offset (R18, R46). -/
def memRead (s : State) (addr n : Nat) : List Byte := Stream.bytesAt s.stream (s.pos + 8 + addr) n

/-- `MemWrite(addr, len(v), v)` into the response buffer (R18, R46). Every write of the block starts inside the bytes already
written or at their end. -/
def memWrite (addr : Nat) (v : List Byte) (q : Seq) : Seq :=
  { q with buf := q.buf.take addr ++ v ++ q.buf.drop (addr + v.length) }

/-! ## Requests and responses (R19, R33, R34, R35) -/

/-- `seq` when a request starts (R33; entry 15). -/
def Seq.start (i : Instr) : Seq where
  op := i
  step := 0
  k := 0
  polls := 0
  outbuf := []
  status := none
  wpOpen := false
  rangeI := 0
  buf := []
  report := .ok
  idMatch := none
  failing := none

/-- The next line of the sequence. -/
def Seq.next (q : Seq) : Seq := { q with step := q.step + 1 }

/-- `id_match` in the response of request `n`, whose opcode is `op`, from what a comparison has `found`: READID's comparison sets
it (R34, R109), and it is 0 for every other operation (R79). DESIGN CHOICE (entry 22): of a READID that is refused or aborts before
its comparison the spec gives no value, and it is free. -/
def responseIdMatch (op : Byte) (n : Nat) (found : Option Bool) : Bool :=
  if op = Mnemonic.READID.opcode then found.getD (Config.freeIdMatch n) else false

/-- Ends the request with a response: `seq` is discarded and `rp <- rp + 1`, with any response code (R34, R35, R129). The next
request follows this one's payload in the stream (R68; entry 8). `responseIdMatch` says what `id_match` is, also of a READID that
ends before its comparison (entry 22). -/
def respond (q : Seq) (r : Report) (s : State) : State :=
  { s with
    seq := none
    resp := some { report := r, bytes := q.buf, idMatch := responseIdMatch q.op.opcode s.rp q.idMatch }
    rp := s.rp + 1
    pos := s.pos + 8 + q.op.payloadLength s.cfg.pageSize }

/-- Refuses a descriptor that the decoder rejects: only `resp` and `rp` change, and the next request follows (R75, D27). -/
def refuseDescriptor (w : Descriptor) (s : State) : State :=
  { s with
    resp := some { report := .illegalRequest (Descriptor.op w), bytes := [], idMatch := responseIdMatch (Descriptor.op w) s.rp none }
    rp := s.rp + 1
    pos := s.pos + 8 + payloadLength s.cfg.pageSize w }

/-! ## Raising an error (R129): the block's one way of taking an exception

There is no trap mechanism and no return from one (R135, R136): an error saves nothing and jumps nowhere. Its raise, the restore
and the response are steps of their own, so that the host may end the session after each (R132; entries 5 and 7). -/

/-- `raise E` at a line that has made the state `s` and the sequencer state `q`: no later line runs (R129 item 1), and the error
waits in `seq.failing` for the restore and the response. -/
def raiseError (e : Report) (q : Seq) (s : State) : State := { s with seq := some { q with failing := some e } }

/-- The restore of R129 item 2: `ctrl.nWP <- 0 ; Flush(Ctrl) ; seq.wp_open <- 0`. -/
def restoreProtection (q : Seq) (s : State) : State :=
  { flushCtrl (setSignal .nWP false s) with seq := some { q with wpOpen := false } }

/-- The step after an error's raise: the restore while the write-protect bracket is open, else the response (R129). -/
def abortStep (e : Report) (q : Seq) (s : State) : State :=
  if q.wpOpen then restoreProtection q s else respond q e s

end Sys2Proof.Machine
end

