-- ==== Sys2Proof/Machine/Operands.lean ====
section
/-! DEFINITION. Operand forms: what a request must meet before it starts (R71, R73, R75), and payload records (R120, R121). -/

namespace Sys2Proof.Machine

/-- The checks made before any adapter call on the request of an instruction, in the order of R75 and R128 item 1: the RDY pin,
PROGRAM's length, then a payload cut short by the end of the stream. `none` when the request may start. -/
def requestError (i : Instr) (s : State) : Option Report :=
  if i.wellFormed then
    if i.lengthOk s.cfg.pageSize then
      if i.payloadLength s.cfg.pageSize = 0 then none
      else if s.pos + 8 + i.payloadLength s.cfg.pageSize ≤ s.stream.length then none
      else some (.lengthMismatch (i.payloadLength s.cfg.pageSize))
    else some (.lengthMismatch (i.payloadLength s.cfg.pageSize))
  else some (.illegalRequest i.opcode)

/-- Record i of PROGRAMRANGE's payload: `MemRead(i × PAGE_SIZE, PAGE_SIZE)` (R120). -/
def sourceRecord (s : State) (i : Nat) : List Byte := memRead s (i * s.cfg.pageSize) s.cfg.pageSize

/-- `skip(rec)`: every byte is `BLANK_VALUE`, or every byte is `ZERO_VALUE` (R121). -/
def skipRecord (record : List Byte) : Bool :=
  record.all (· == Config.blankValue) || record.all (· == Config.zeroValue)

end Sys2Proof.Machine
end

