-- ==== Sys2Proof/Machine/Flags.lean ====
section
/-! DEFINITION. The single-bit conditions of R37: RDY, status bit 0, `id_match` (`wp_open` is a field of `Seq`), the entry
predicates of R92 over the control mirror, and the response codes with their binary form (R79, R125). -/

namespace Sys2Proof.Machine

/-- RDY of a control-bus read: bit 6 alone is read, 1 means ready (R30, R99). -/
def ready (sample : Byte) : Bool := level sample .RDY

/-- Status bit 0, "write status": it "indicates failure when set", and bits 1 to 7 are not read (R37, R115). -/
def statusFailed (status : Byte) : Bool := status.getLsbD 0

/-- `id_match`: all five bytes compared, in order (R109). -/
def identityMatches (cfg : Config) (id : List Byte) : Bool := id == cfg.expectedId.toList

/-- The conjuncts of an entry predicate, in check order: a signal and the level it must have in the mirror (R92). -/
def BusOp.conjuncts : BusOp → List (Signal × Bool)
  | .LCMD => [(.nCE, false), (.nRE, true)]
  | .LADDR => [(.nCE, false), (.CLE, false), (.nRE, true)]
  | .LOUT => [(.nCE, false), (.nWE, true), (.ALE, false)]
  | .LDIN => []

/-- Whether a Bus Operation drives the data bus, and so checks `dir = Drive` on entry (R92). -/
def BusOp.drivesData : BusOp → Bool
  | .LOUT => false
  | _ => true

/-- The first signal, in check order, that does not have its level in a control byte (R92, D20). -/
def firstFailing (ctrl : Byte) : List (Signal × Bool) → Option Signal
  | [] => none
  | (sig, b) :: rest => if level ctrl sig = b then firstFailing ctrl rest else some sig

/-- The entry checks of a Bus Operation (R92): the conjuncts on the mirror in order, then the direction. `none` if all pass. -/
def entryError (op : BusOp) (s : State) : Option Report :=
  match firstFailing s.ctrl op.conjuncts with
  | some sig => some (.protocolPrecondition op sig)
  | none => if op.drivesData && s.dir != .drive then some (.directionViolation .data) else none

/-- The response code byte (R125). -/
def Report.code : Report → Byte
  | .ok => 0x00
  | .protocolPrecondition _ _ => 0x01
  | .identityMismatch => 0x02
  | .eraseFailed _ _ => 0x03
  | .programFailed _ _ => 0x04
  | .timeout _ => 0x05
  | .storageIO _ => 0x06
  | .illegalRequest _ => 0x10
  | .lengthMismatch _ => 0x11
  | .directionViolation _ => 0x12

/-- "`OK` and `IdentityMismatch` are the two codes of a request that ran to its end. Every other code is an abort" (R125). -/
def Report.isAbort : Report → Bool
  | .ok | .identityMismatch => false
  | _ => true

/-- The 24-bit result length of R79; a longer result has a length field no rule gives (entry 14). -/
def resultLength (n : Nat) : Field24 := if n < 2 ^ 24 then BitVec.ofNat 24 n else Config.freeResultLength n

/-- The binary response (R79): code, flag byte, 24-bit little-endian length, result bytes. It carries no information of an error
(R126). -/
def Response.encode (r : Response) : List Byte :=
  [r.report.code, 0#7 ++ BitVec.ofBool r.idMatch,
    (resultLength r.bytes.length).extractLsb' 0 8, (resultLength r.bytes.length).extractLsb' 8 8,
    (resultLength r.bytes.length).extractLsb' 16 8] ++ r.bytes

/-- What the host reads of the last response; before the first request completes it is refused (R34, U10). -/
def readResponse (s : State) : Except Refusal Response :=
  match s.resp with
  | none => .error .noResponse
  | some r => .ok r

end Sys2Proof.Machine
end

