-- ==== Sys2Proof/Machine/Sequencer.lean ====
section
/-! DEFINITION. The sequencer: what one line of an operation's fixed sequence does, and how a request starts, goes on and ends
(R6, R33, R40, R108, R129). -/

namespace Sys2Proof.Machine

/-- What a line leaves: the sequencer state and the machine's, or an error raised at it (R19). -/
inductive LineOutcome where
  | done (q : Seq) (s : State)
  | raised (e : Report) (q : Seq) (s : State)
deriving DecidableEq, Repr

/-- `Flush(Data)`, which "requires `dir = Drive`" (R28, R86). -/
def lineFlushData (q : Seq) (s : State) : LineOutcome :=
  if s.dir = .drive then .done q.next (flushData s) else .raised (.directionViolation .data) q s

/-- `flush(bus)` (R86). -/
def lineFlush (bus : Bus) (q : Seq) (s : State) : LineOutcome :=
  match bus with
  | .ctrl => .done q.next (flushCtrl s)
  | .data => lineFlushData q s

/-- `sampleInput(bus)`: the direction check of a data sample, one adapter read, `MemWrite(0, 1, [v])` (R87). -/
def lineSample (bus : Bus) (q : Seq) (s : State) : LineOutcome :=
  if bus = .data ∧ s.dir ≠ .read then .raised (.directionViolation .data) q s
  else .done (memWrite 0 [Env.sample s.env] q).next (adapterRead bus s)

/-- The entry checks of a Bus Operation; its byte index and its output buffer start anew (R92, R95). -/
def lineCheckEntry (op : BusOp) (q : Seq) (s : State) : LineOutcome :=
  match entryError op s with
  | some e => .raised e q s
  | none => .done { q.next with k := 0, outbuf := if op = .LOUT then [] else q.outbuf } s

/-- `data <- bytes[k] ; Flush(Data)` (R94, R96). `k` stays until the end of the iteration (`lineByteEnd`). -/
def lineLatchByte (b : Byte) (q : Seq) (s : State) : LineOutcome := lineFlushData q (setData b s)

/-- `v <- AdapterRead(Data) ; MemWrite(k, 1, [v]) ; seq.outbuf <- seq.outbuf ++ [v]`; as an element of a range the MemWrite does
not reach the response (R95, R118). "`AdapterRead(Data)` requires `dir = Read`" (R28). `k` stays until `lineByteEnd`. -/
def lineReadByte (toResponse : Bool) (q : Seq) (s : State) : LineOutcome :=
  if s.dir = .read then
    let v := Env.sample s.env
    let q' := if toResponse then memWrite q.k [v] q else q
    .done { q'.next with outbuf := q.outbuf ++ [v] } (adapterRead .data s)
  else .raised (.directionViolation .data) q s

/-- The closing `Sleep(t)` of one byte's iteration. DEDUCED (entry 15): `k` advances here, since the loops of R94 to R96 keep it to
the end of the iteration; R33 names no moment. -/
def lineByteEnd (t : Nat) (q : Seq) (s : State) : LineOutcome := .done { q.next with k := q.k + 1 } (sleep t s)

/-- The write-protect bracket's two steps: `ctrl.nWP <- v ; Flush(Ctrl) ; seq.wp_open <- v` (R114). -/
def lineWriteProtect (off : Bool) (q : Seq) (s : State) : LineOutcome :=
  .done { q.next with wpOpen := off } (flushCtrl (setSignal .nWP off s))

/-- `seq.polls <- 0 ; Sleep(T_BUSY_SETTLE)` (R99). -/
def lineWaitStart (q : Seq) (s : State) : LineOutcome :=
  .done { q.next with polls := 0 } (sleep s.cfg.tBusySettle s)

/-- Whether the safety valve is set and reached (R99, R100). -/
def pollLimitReached (cfg : Config) (polls : Nat) : Bool :=
  match cfg.pollLimit with
  | none => false
  | some limit => decide (limit.val ≤ polls)

/-- One sample of the wait loop (R99): ready leaves the loop, past the interval line; busy raises `Timeout` at the limit and goes
to the interval line below it. -/
def linePoll (q : Seq) (s : State) : LineOutcome :=
  let polls := q.polls + 1
  if ready (Env.sample s.env) then .done { q with polls := polls, step := q.step + 2 } (adapterRead .ctrl s)
  else if pollLimitReached s.cfg polls then .raised (.timeout polls) { q with polls := polls } (adapterRead .ctrl s)
  else .done { q with polls := polls, step := q.step + 1 } (adapterRead .ctrl s)

/-- `Sleep(T_POLL_INTERVAL)`, then the sample again (R99). -/
def linePollInterval (q : Seq) (s : State) : LineOutcome :=
  .done { q with step := q.step - 1 } (sleep s.cfg.tPollInterval s)

/-- `resp.id_match <- (id = EXPECTED_ID)`, and the report of a mismatch: "reported; the operation still completes" (R109, R127). -/
def lineCompareId (q : Seq) (s : State) : LineOutcome :=
  if identityMatches s.cfg q.outbuf then .done { q.next with idMatch := some true, report := .ok } s
  else .done { q.next with idMatch := some false, report := .identityMismatch } s

/-- `s <- LatchRegisterOut(1)[0] ; seq.status <- s` (R111). -/
def lineTakeStatus (q : Seq) (s : State) : LineOutcome := .done { q.next with status := q.outbuf.head? } s

/-- `MemWrite(0, 1, [s])` (R111). -/
def lineStoreStatus (q : Seq) (s : State) : LineOutcome := .done (memWrite 0 q.status.toList q).next s

/-- The final status test: an error iff status bit 0 is 1 (R111, R112, R115). -/
def lineTestStatus (failure : Byte → Report) (q : Seq) (s : State) : LineOutcome :=
  match q.status with
  | none => .done q.next s
  | some status => if statusFailed status then .raised (failure status) q s else .done q.next s

/-- PROGRAMRANGE takes record i from the source, which may fail with `StorageIO(i)` (R120, D23; entry 4). -/
def lineSourceRecord (i : Nat) (q : Seq) (s : State) : LineOutcome :=
  if Env.storageAnswer s.env then .done { q.next with rangeI := i } { s with env := Env.afterStorage s.env }
  else .raised (.storageIO i) { q with rangeI := i } { s with env := Env.afterStorage s.env }

/-- DUMP's `MemWrite(i × PAGE_SIZE, PAGE_SIZE, buf) ; Sink(i, buf)`; "a sink failure raises `StorageIO(i)`" (R119). -/
def lineSinkRecord (q : Seq) (s : State) : LineOutcome :=
  let q' := memWrite (q.rangeI * s.cfg.pageSize) q.outbuf q
  if Env.storageAnswer s.env then
    .done q'.next { s with env := Env.afterStorage s.env, sink := s.sink ++ [(q.rangeI, q.outbuf)] }
  else .raised (.storageIO q.rangeI) q' { s with env := Env.afterStorage s.env }

/-- What one line does (R108). -/
def runLine (l : Line) (q : Seq) (s : State) : LineOutcome :=
  match l with
  | .setPin bus pin value => .done q.next (setPin bus pin value s)
  | .setData b => .done q.next (setData b s)
  | .flush bus => lineFlush bus q s
  | .sample bus => lineSample bus q s
  | .setDir d => .done q.next (setDir d s)
  | .sleep t => .done q.next (sleep t s)
  | .driveCtrl changes => .done q.next (flushCtrl (setSignals changes s))
  | .driveData b => lineFlushData q (setData b s)
  | .checkEntry op => lineCheckEntry op q s
  | .latchByte b => lineLatchByte b q s
  | .readByte toResponse => lineReadByte toResponse q s
  | .byteEnd t => lineByteEnd t q s
  | .writeProtect off => lineWriteProtect off q s
  | .waitStart => lineWaitStart q s
  | .poll => linePoll q s
  | .pollInterval => linePollInterval q s
  | .storeBytes offset bytes => .done (memWrite offset bytes q).next s
  | .storeOut offset => .done (memWrite offset q.outbuf q).next s
  | .compareId => lineCompareId q s
  | .takeStatus => lineTakeStatus q s
  | .storeStatus => lineStoreStatus q s
  | .testErase block => lineTestStatus (.eraseFailed block) q s
  | .testProgram page => lineTestStatus (.programFailed page) q s
  | .element i => .done { q.next with rangeI := i } s
  | .sourceRecord i => lineSourceRecord i q s
  | .sinkRecord => lineSinkRecord q s

/-- One step of the running operation whose fixed sequence is `lines`: the restore or the response of a raised error, the line at
`seq.step`, or past the last line the response (R33, R83, R91, R108, R129). The response is a step of its own, which makes no
adapter call: the host may end the session between the last adapter call and the response, or during a last `Sleep` (R132; entry 5). -/
def advance (lines : List Line) (q : Seq) (s : State) : State :=
  match q.failing with
  | some e => abortStep e q s
  | none =>
    match lines[q.step]? with
    | none => respond q q.report s
    | some l =>
      match runLine l q s with
      | .done q' s' => { s' with seq := some q' }
      | .raised e q' s' => raiseError e q' s'

/-- One step of the instruction `i` whose fixed sequence is `lines`. With no request running, the request is checked (R75), and
refused or started with its first line. With this instruction's request running, its next line is performed. Requests are "taken
one at a time" (R40): while another instruction's request runs, this one is not started (entry 6). After the session's end no
request runs, and no mirror is read or written (R39, R132; entry 12). -/
def perform (i : Instr) (lines : List Line) (s : State) : Host.Outcome State Fault Refusal :=
  if s.sessionOpen then
    match s.seq with
    | none =>
      match requestError i s with
      | some e => .next (respond (Seq.start i) e s)
      | none => .next (advance lines (Seq.start i) s)
    | some q => if q.op = i then .next (advance lines q s) else .refused .anotherRequestRunning
  else .refused .sessionEnded

end Sys2Proof.Machine
end

