-- ==== Sys2Proof/Machine/Gpio.lean ====
section
/-! DEFINITION. GPIO output register and signal-line control: SETPIN, SETDATA, FLUSH, SAMPLE, SETDIR, DELAY, INIT (R83 to R90). -/

namespace Sys2Proof.Machine

/-- SETPIN (R84): one mirror bit, no adapter call. -/
def setpinLines (bus : Bus) (pin : BitVec 3) (value : Bool) : List Line := [.setPin bus pin value]

/-- SETPIN (R84). -/
def execSetpin (bus : Bus) (pin : BitVec 3) (value : Bool) (s : State) : Host.Outcome State Fault Refusal :=
  perform (.setpin bus pin value) (setpinLines bus pin value) s

/-- SETDATA (R85): the data mirror, no adapter call. -/
def setdataLines (byte : Byte) : List Line := [.setData byte]

/-- SETDATA (R85). -/
def execSetdata (byte : Byte) (s : State) : Host.Outcome State Fault Refusal :=
  perform (.setdata byte) (setdataLines byte) s

/-- FLUSH (R86): one adapter write of a mirror. -/
def flushLines (bus : Bus) : List Line := [.flush bus]

/-- FLUSH (R86). -/
def execFlush (bus : Bus) (s : State) : Host.Outcome State Fault Refusal :=
  perform (.flush bus) (flushLines bus) s

/-- SAMPLE (R87): one adapter read, returned. -/
def sampleLines (bus : Bus) : List Line := [.sample bus]

/-- SAMPLE (R87). -/
def execSample (bus : Bus) (s : State) : Host.Outcome State Fault Refusal :=
  perform (.sample bus) (sampleLines bus) s

/-- SETDIR (R88): one direction call, even for the direction already in force. -/
def setdirLines (d : DirSel) : List Line := [.setDir d]

/-- SETDIR (R88). -/
def execSetdir (d : DirSel) (s : State) : Host.Outcome State Fault Refusal :=
  perform (.setdir d) (setdirLines d) s

/-- DELAY (R89): `Sleep(A)`. -/
def delayLines (microseconds : Field24) : List Line := [.sleep microseconds.toNat]

/-- DELAY (R89). -/
def execDelay (microseconds : Field24) (s : State) : Host.Outcome State Fault Refusal :=
  perform (.delay microseconds) (delayLines microseconds) s

/-- The signals INIT sets before its one control flush (R90). AUX and RDY are left as they are. -/
def initLevels : List (Signal × Bool) :=
  [(.CLE, false), (.ALE, false), (.nCE, false), (.nWE, true), (.nRE, true), (.nWP, false)]

/-- INIT (R90): the control flush first, then the direction, then the data lines. -/
def initLines : List Line := [.driveCtrl initLevels, .setDir .drive, .driveData 0x00]

/-- INIT (R90). -/
def execInit (s : State) : Host.Outcome State Fault Refusal := perform .init initLines s

end Sys2Proof.Machine
end

