-- ==== Sys2Proof/Machine/AddressTranslator.lean ====
section
/-! DEFINITION. The address-cycle encoder: ADDRCYC (R103 to R107). No bit is masked by the geometry (R107). -/

namespace Sys2Proof.Machine

/-- `toAddressCycles(page, column)` on naturals: column low, column high, page bits 0 to 7, 8 to 15, 16 to 23; higher bits are
dropped (R65, R103, R104). -/
def toAddressCycles (page column : Nat) : List Byte :=
  [BitVec.ofNat 8 column, BitVec.ofNat 8 (column / 256),
    BitVec.ofNat 8 page, BitVec.ofNat 8 (page / 256), BitVec.ofNat 8 (page / 65536)]

/-- `rowBytes(p)`: cycles 2 to 4 of `toAddressCycles(p, 0)` (R105). -/
def rowBytes (p : Nat) : List Byte := (toAddressCycles p 0).drop 2

/-- ADDRCYC's sequence (R103): no adapter call. -/
def addrcycLines (page column : Field24) : List Line := [.storeBytes 0 (toAddressCycles page.toNat column.toNat)]

/-- ADDRCYC (R103). -/
def execAddrcyc (page column : Field24) (s : State) : Host.Outcome State Fault Refusal :=
  perform (.addrcyc page column) (addrcycLines page column) s

end Sys2Proof.Machine
end

