-- ==== Sys2Proof/Machine/BusOps.lean ====
section
/-! DEFINITION. Bus operations: LCMD, LADDR, LOUT, LDIN (R91 to R98). Levels govern, never the document's verbs (C1). Each listed
flush is a line of its own: none is merged, reordered or dropped (R149). -/

namespace Sys2Proof.Machine

/-- LatchCommand(byte): five flushes, no delay slot (R93). -/
def latchCommand (byte : Byte) : List Line :=
  [.checkEntry .LCMD,
    .driveCtrl [(.CLE, true)],
    .driveCtrl [(.nWE, false)],
    .driveData byte,
    .driveCtrl [(.nWE, true)],
    .driveCtrl [(.CLE, false)]]

/-- One byte of LatchAddress and LatchDataIn: nWE low, the byte, nWE high, each followed by its delay slot (R94, R96). -/
def latchByteLines (cfg : Config) (b : Byte) : List Line :=
  [.driveCtrl [(.nWE, false)], .sleep cfg.tPreDrive,
    .latchByte b, .sleep cfg.tPostDrive,
    .driveCtrl [(.nWE, true)], .byteEnd cfg.tPostLatch]

/-- The per-byte loop, in ascending k (R94, R96). -/
def latchBytes (cfg : Config) : List Byte → List Line
  | [] => []
  | b :: rest => latchByteLines cfg b ++ latchBytes cfg rest

/-- LatchAddress(bytes[]) (R94): the per-byte loop inside ALE. -/
def latchAddress (cfg : Config) (bytes : List Byte) : List Line :=
  [.checkEntry .LADDR, .driveCtrl [(.ALE, true)]] ++ latchBytes cfg bytes ++ [.driveCtrl [(.ALE, false)]]

/-- LatchDataIn(bytes[]) (R96): the per-byte loop alone, with no precondition but the direction (C4). -/
def latchDataIn (cfg : Config) (bytes : List Byte) : List Line := .checkEntry .LDIN :: latchBytes cfg bytes

/-- One byte of LatchRegisterOut: nRE low, the sample, nRE high (R95). -/
def readByteLines (cfg : Config) (toResponse : Bool) : List Line :=
  [.driveCtrl [(.nRE, false)], .sleep cfg.tReadLow, .readByte toResponse, .driveCtrl [(.nRE, true)], .byteEnd cfg.tReadHigh]

/-- The per-byte loop of LatchRegisterOut (R95). -/
def readBytes (cfg : Config) (toResponse : Bool) : Nat → List Line
  | 0 => []
  | n + 1 => readByteLines cfg toResponse ++ readBytes cfg toResponse n

/-- LatchRegisterOut(count) (R95): the direction is `Read` around the loop and `Drive` after it. -/
def latchRegisterOut (cfg : Config) (toResponse : Bool) (count : Nat) : List Line :=
  [.checkEntry .LOUT, .setDir .read] ++ readBytes cfg toResponse count ++ [.setDir .drive]

/-- LCMD (R93). -/
def execLcmd (command : Byte) (s : State) : Host.Outcome State Fault Refusal :=
  perform (.lcmd command) (latchCommand command) s

/-- LADDR's sequence over its n payload bytes (R94). -/
def laddrLines (n : Field24) (s : State) : List Line := latchAddress s.cfg (memRead s 0 n.toNat)

/-- LADDR (R94). -/
def execLaddr (n : Field24) (s : State) : Host.Outcome State Fault Refusal :=
  perform (.laddr n) (laddrLines n s) s

/-- LOUT's sequence (R95). -/
def loutLines (count : Field24) (s : State) : List Line := latchRegisterOut s.cfg true count.toNat

/-- LOUT (R95). -/
def execLout (count : Field24) (s : State) : Host.Outcome State Fault Refusal :=
  perform (.lout count) (loutLines count s) s

/-- LDIN's sequence over its n payload bytes (R96). -/
def ldinLines (n : Field24) (s : State) : List Line := latchDataIn s.cfg (memRead s 0 n.toNat)

/-- LDIN (R96). -/
def execLdin (n : Field24) (s : State) : Host.Outcome State Fault Refusal :=
  perform (.ldin n) (ldinLines n s) s

end Sys2Proof.Machine
end

