-- ==== Sys2Proof/Machine/BusyMonitor.lean ====
section
/-! DEFINITION. The busy-wait monitor: WAITRDY (R99 to R102). A wait whose samples stay busy with no limit set is an infinite run:
each sample is a step, and no response is produced (R101). -/

namespace Sys2Proof.Machine

/-- `waitWhileBusy()` (R99): the settle delay, then the loop of a sample and an interval. -/
def waitWhileBusy : List Line := [.waitStart, .poll, .pollInterval]

/-- WAITRDY (R99). -/
def execWaitrdy (s : State) : Host.Outcome State Fault Refusal := perform .waitrdy waitWhileBusy s

end Sys2Proof.Machine
end

