-- ==== Sys2Proof/Machine/ChipOps.lean ====
section
/-! DEFINITION. The chip operations: READID, READPAGE, ERASE, PROGRAM, READSTATUS, and the write-protect bracket (R108 to R117).
`toResponse` is false when the operation is an element of a range: its own `MemWrite` steps then do not reach the response (R118). -/

namespace Sys2Proof.Machine

/-- ReadID (R109). -/
def readIdLines (cfg : Config) : List Line :=
  latchCommand cfg.cmdReadId
    ++ latchAddress cfg [Config.readIdAddr]
    ++ latchRegisterOut cfg true Config.readIdLen
    ++ [.storeOut 0, .compareId]

/-- READID (R109). -/
def execReadid (s : State) : Host.Outcome State Fault Refusal := perform .readid (readIdLines s.cfg) s

/-- ReadPage(page) up to its `MemWrite` (R110). -/
def readPageSequence (cfg : Config) (toResponse : Bool) (page : Nat) : List Line :=
  latchCommand cfg.cmdRead1First
    ++ latchAddress cfg (toAddressCycles page 0)
    ++ latchCommand cfg.cmdRead1Confirm
    ++ waitWhileBusy
    ++ latchRegisterOut cfg toResponse cfg.pageSize

/-- READPAGE's sequence (R110). -/
def readPageLines (cfg : Config) (page : Nat) : List Line := readPageSequence cfg true page ++ [.storeOut 0]

/-- READPAGE (R110). -/
def execReadpage (page : Field24) (s : State) : Host.Outcome State Fault Refusal :=
  perform (.readpage page) (readPageLines s.cfg page.toNat) s

/-- The tail of EraseBlock and ProgramPage: the status read, write protect back on, and the status in the response (R111, R112). -/
def statusTail (cfg : Config) (toResponse : Bool) : List Line :=
  latchCommand cfg.cmdReadStatus
    ++ latchRegisterOut cfg toResponse 1
    ++ [.takeStatus, .writeProtect false]
    ++ (if toResponse then [.storeStatus] else [])

/-- EraseBlock(block) (R111): the first page is the exact product, truncated only by the encoder (D31). -/
def eraseLines (cfg : Config) (toResponse : Bool) (block : Nat) : List Line :=
  [.writeProtect true]
    ++ latchCommand cfg.cmdEraseFirst
    ++ latchAddress cfg (rowBytes (block * cfg.pagesPerBlock))
    ++ latchCommand cfg.cmdEraseConfirm
    ++ waitWhileBusy
    ++ statusTail cfg toResponse
    ++ [.testErase block]

/-- ERASE (R111). -/
def execErase (block : Field24) (s : State) : Host.Outcome State Fault Refusal :=
  perform (.erase block) (eraseLines s.cfg true block.toNat) s

/-- ProgramPage(page, data) (R112). -/
def programLines (cfg : Config) (toResponse : Bool) (page : Nat) (bytes : List Byte) : List Line :=
  [.writeProtect true]
    ++ latchCommand cfg.cmdProgramFirst
    ++ latchAddress cfg (toAddressCycles page 0)
    ++ latchDataIn cfg bytes
    ++ latchCommand cfg.cmdProgramConfirm
    ++ waitWhileBusy
    ++ statusTail cfg toResponse
    ++ [.testProgram page]

/-- PROGRAM (R112): the data are the page's `PAGE_SIZE` payload bytes. -/
def execProgram (page length : Field24) (s : State) : Host.Outcome State Fault Refusal :=
  perform (.program page length) (programLines s.cfg true page.toNat (memRead s 0 s.cfg.pageSize)) s

/-- Read Status (R113): the status is returned and bit 0 is not evaluated. -/
def readStatusLines (cfg : Config) : List Line :=
  latchCommand cfg.cmdReadStatus ++ latchRegisterOut cfg true 1 ++ [.takeStatus, .storeStatus]

/-- READSTATUS (R113). -/
def execReadstatus (s : State) : Host.Outcome State Fault Refusal := perform .readstatus (readStatusLines s.cfg) s

end Sys2Proof.Machine
end

