-- ==== Sys2Proof/Machine/RangeOps.lean ====
section
/-! DEFINITION. Range operations: DUMP, PROGRAMRANGE, ERASERANGE (R118 to R124). The first error of any element ends the whole
range (R123), as any error ends its request (R129). -/

namespace Sys2Proof.Machine

/-- The lines of elements i to i + n - 1, in ascending order; indices are naturals and never wrap (R118). -/
def rangeLines (element : Nat → List Line) : Nat → Nat → List Line
  | _, 0 => []
  | i, n + 1 => element i ++ rangeLines element (i + 1) n

/-- Element i of DumpRange (R119). -/
def dumpElement (cfg : Config) (start i : Nat) : List Line :=
  .element i :: readPageSequence cfg false (start + i) ++ [.sinkRecord]

/-- DUMP (R119). -/
def execDump (startPage count : Field24) (s : State) : Host.Outcome State Fault Refusal :=
  perform (.dump startPage count) (rangeLines (dumpElement s.cfg startPage.toNat) 0 count.toNat) s

/-- Element i of ProgramRange: a skipped record makes no adapter call and still uses up its page (R120, R121). -/
def programElement (s : State) (start i : Nat) : List Line :=
  .sourceRecord i ::
    (if skipRecord (sourceRecord s i) then [] else programLines s.cfg false (start + i) (sourceRecord s i))

/-- PROGRAMRANGE (R120). -/
def execProgramrange (startPage count : Field24) (s : State) : Host.Outcome State Fault Refusal :=
  perform (.programrange startPage count) (rangeLines (programElement s startPage.toNat) 0 count.toNat) s

/-- Element i of EraseRange (R122). -/
def eraseElement (cfg : Config) (start i : Nat) : List Line := .element i :: eraseLines cfg false (start + i)

/-- ERASERANGE (R122). -/
def execEraserange (startBlock count : Field24) (s : State) : Host.Outcome State Fault Refusal :=
  perform (.eraserange startBlock count) (rangeLines (eraseElement s.cfg startBlock.toNat) 0 count.toNat) s

end Sys2Proof.Machine
end

