-- ==== Sys2Proof/Machine/Dispatch.lean ====
section
/-! DEFINITION. One step of an instruction: one arm for each constructor of `Instr`. -/

namespace Sys2Proof.Machine

def exec (i : Instr) (s : State) : Host.Outcome State Fault Refusal :=
  match i with
  | .setpin bus pin value => Sys2Proof.Machine.execSetpin bus pin value s
  | .setdata byte => Sys2Proof.Machine.execSetdata byte s
  | .flush bus => Sys2Proof.Machine.execFlush bus s
  | .sample bus => Sys2Proof.Machine.execSample bus s
  | .setdir d => Sys2Proof.Machine.execSetdir d s
  | .delay t => Sys2Proof.Machine.execDelay t s
  | .init => Sys2Proof.Machine.execInit s
  | .lcmd command => Sys2Proof.Machine.execLcmd command s
  | .laddr n => Sys2Proof.Machine.execLaddr n s
  | .lout count => Sys2Proof.Machine.execLout count s
  | .ldin n => Sys2Proof.Machine.execLdin n s
  | .waitrdy => Sys2Proof.Machine.execWaitrdy s
  | .addrcyc page column => Sys2Proof.Machine.execAddrcyc page column s
  | .readid => Sys2Proof.Machine.execReadid s
  | .readpage page => Sys2Proof.Machine.execReadpage page s
  | .erase block => Sys2Proof.Machine.execErase block s
  | .program page length => Sys2Proof.Machine.execProgram page length s
  | .readstatus => Sys2Proof.Machine.execReadstatus s
  | .dump start count => Sys2Proof.Machine.execDump start count s
  | .programrange start count => Sys2Proof.Machine.execProgramrange start count s
  | .eraserange start count => Sys2Proof.Machine.execEraserange start count s

end Sys2Proof.Machine
end

