-- ==== Sys2Proof/Machine/Fetch.lean ====
section
/-! DEFINITION. Taking the next request from the stream, and the session's start and end (R35, R39, R68, R75, R132). -/

namespace Sys2Proof.Machine

/-- The bytes of the descriptor of request `rp`: those of the eight that exist (R68). -/
def fetchBytes (s : State) : List Byte := Stream.bytesAt s.stream s.pos 8

/-- Whether the host has supplied another request: at least one byte stands at its place. -/
def requestPresent (s : State) : Bool := decide (s.pos < s.stream.length)

/-- The host ends the session, or aborts it between two adapter calls or during a `Sleep` (R39, R132): no adapter call, no restore,
no response; the physical lines and the direction keep the last values written, and the records delivered stay. The mirrors are
discarded (R39): no bit of the ended session's `ctrl` and `data` is left, and nothing reads them until a new session's reset sets
them to zero, which is what their fields hold meanwhile (DESIGN CHOICE, entry 12). -/
def State.endSession (s : State) : State := { s with ctrl := 0x00, data := 0x00, seq := none, sessionOpen := false }

/-- `s` with the request of descriptor `w` and its payload of zero bytes as request `rp`. -/
def placeRequest (w : Descriptor) (s : State) : State :=
  { s with stream := Stream.place s.stream s.pos w (payloadLength s.cfg.pageSize w) }

end Sys2Proof.Machine
end

