-- ==== Sys2Proof/Machine/Step.lean ====
section
/-! DEFINITION. One step of the machine (R6, R35, R40): one line of the running request, or the next request taken from the stream. -/

namespace Sys2Proof.Machine

/-- One step. A running request goes on; otherwise request `rp` is taken: its descriptor is decoded, and it is refused with
`IllegalRequest` or started (R75). With no further request the block has nothing to do. -/
def step (s : State) : Host.Outcome State Fault Refusal :=
  if s.sessionOpen then
    match s.seq with
    | some q => exec q.op s
    | none =>
      if requestPresent s then
        match decodeBytes (fetchBytes s) with
        | .ok i => exec i s
        | .error e =>
          match e.descriptor with
          | none => .fault .descriptorCutShort
          | some w => .next (refuseDescriptor w s)
      else .refused .noRequest
  else .refused .sessionEnded

/-- `s` with the instruction whose low `nbits` bits are `w` placed as request `rp`, its payload zero bytes, and no request
running in an open session, so that the next step runs it (entry 10). -/
def State.withFetchWord (s : State) (nbits w : Nat) : State :=
  placeRequest (BitVec.ofNat 64 (w % 2 ^ nbits)) { s with seq := none, sessionOpen := true }

end Sys2Proof.Machine
end

