-- ==== Sys2Proof/Machine/BusView.lean ====
section
/-! DEFINITION. The chip's side of the trace: which latches, read clocks and samples a list of events makes (R53, R63). Nothing in the machine reads
it; it says what the events mean on the lines. -/

namespace Sys2Proof.Machine

/-- What the chip may act on (R53, R63): a latch, a read clock, or a sample of the data lines. The byte of a latch is what the
block drives on the data lines at the latching edge, if that is known. -/
inductive Cycle where
  /-- command: nWE 0→1 with CLE 1, ALE 0, nCE 0, nRE 1 -/
  | command (b : Option Byte)
  /-- address: nWE 0→1 with CLE 0, ALE 1, nCE 0, nRE 1 -/
  | address (b : Option Byte)
  /-- data in: nWE 0→1 with CLE 0, ALE 0, nCE 0, nRE 1 -/
  | dataIn (b : Option Byte)
  /-- an nWE 0→1 edge in no row of R63: CLE = ALE = 1, nCE = 1 or nRE = 0; the chip's reading is open (U11, U12) -/
  | unlisted
  /-- the first control write with nWE = 1: the lines before it are unknown, so it may or may not be an nWE 0→1 edge (R148;
  entry 17) -/
  | uncertainLatch
  /-- a read clock: an nRE 1→0 edge, whatever the other levels and whether or not a sample follows (R53) -/
  | readClock
  /-- the first control write with nRE = 0: nRE before it is unknown, so it may or may not be a read clock (U22; entry 17) -/
  | uncertainClock
  /-- data out: the first sample after a read clock with nCE 0, nWE 1, ALE 0, before nRE returns to 1 (R63) -/
  | dataOut (v : Byte)
  /-- a further sample in the same data-out cycle: no read clock lies between, so the chip's column is the one already sampled
  (R52; DEDUCED, entry 17) -/
  | resampled (v : Byte)
  /-- a sample before nRE returns to 1, after a read clock in no row of R63: nCE = 1, nWE = 0 or ALE = 1. It was clocked (R53);
  what the chip presents is open (entry 17) -/
  | unlistedOut (v : Byte)
  /-- a sample while nRE, or whether it has fallen, is unknown: before the first control write, or with nRE = 0 ever since the view
  began or since the first control write. A read clock may or may not stand before it (R29, U22; entry 17) -/
  | uncertainOut (v : Byte)
  /-- a sample while nRE is 1: in no data-out cycle (R63). Whether the chip still presents the byte of the last read clock is open
  (R52; entry 17) -/
  | outside (v : Byte)
deriving DecidableEq, Repr

/-- Where nRE stands, and since which edge. -/
inductive ReadPhase where
  /-- nRE is 1 -/
  | high
  /-- nRE is 0 since a read clock under `outLevels`, and nothing has been sampled since -/
  | presented
  /-- the same, and the byte has been sampled -/
  | sampled
  /-- nRE is 0 since a read clock under other levels (in no row of R63) -/
  | unlisted
  /-- nRE is unknown, or it is 0 and whether it has fallen is unknown (U22) -/
  | unknown
deriving DecidableEq, Repr

/-- The lines as the events so far leave them. -/
structure BusView where
  ctrl : Option Byte
  data : Option Byte
  dir : Dir
  phase : ReadPhase
deriving DecidableEq, Repr

/-- The lines as a state records them (R29). Two points are open, and the view takes neither side. DESIGN CHOICE (entry 17):
before the first control write of a session the level of nRE is `unknown` (R145, U22), so a data sample then may or may not be
clocked; and while nRE is 0 it may or may not have fallen, since a state records levels and no edges. -/
def viewOf (s : State) : BusView where
  ctrl := s.physCtrl
  data := s.physData
  dir := s.dir
  phase :=
    match s.physCtrl with
    | none => .unknown
    | some c => if level c .nRE then .high else .unknown

/-- The byte on the data lines, if the block drives a known one (R29). -/
def BusView.driven (b : BusView) : Option Byte := if b.dir = .drive then b.data else none

/-- The cycle that an nWE 0→1 edge to the control byte `v` latches (R63). The levels at an edge are those the write leaves: a
flush sets all lines at once (R53; DEDUCED, entry 17). -/
def latchCycle (v : Byte) (byte : Option Byte) : Cycle :=
  if level v .nCE || !level v .nRE then .unlisted
  else
    match level v .CLE, level v .ALE with
    | true, false => .command byte
    | false, true => .address byte
    | false, false => .dataIn byte
    | true, true => .unlisted

/-- What a control write latches, if anything: an nWE 0→1 edge is a latch (R53). Before the first control write nWE is unknown
(R148, entry 17). -/
def latchCycles (b : BusView) (v : Byte) : List Cycle :=
  match b.ctrl with
  | none => if level v .nWE then [.uncertainLatch] else []
  | some u => if !level u .nWE && level v .nWE then [latchCycle v b.driven] else []

/-- The read clock of a control write, if any: each nRE 1→0 edge is one, whatever the other levels (R53). DESIGN CHOICE (entry
17): the first control write of a session with nRE = 0 may or may not be one, since nRE before it is unknown (R29, R148, U22). -/
def clockCycles (b : BusView) (v : Byte) : List Cycle :=
  match b.ctrl with
  | none => if level v .nRE then [] else [.uncertainClock]
  | some u => if level u .nRE && !level v .nRE then [.readClock] else []

/-- The cycles a control write makes (R53). A write that raises nWE and lowers nRE makes both at once: their order here says
nothing. -/
def controlCycles (b : BusView) (v : Byte) : List Cycle := latchCycles b v ++ clockCycles b v

/-- The levels at a read clock with which a sample is a data-out cycle: nCE 0, nWE 1, ALE 0 (R63). -/
def outLevels (v : Byte) : Bool := !level v .nCE && level v .nWE && !level v .ALE

/-- Where nRE stands after a control write: while it is 0, the phase is that of the read clock since which it is 0 (R52, R63).
DESIGN CHOICE (entry 17): after a first control write of a session with nRE = 0, whatever its other levels, the phase is
`unknown`, since nRE before it is unknown (R29, R148, U22). -/
def phaseAfter (b : BusView) (v : Byte) : ReadPhase :=
  if level v .nRE then .high
  else
    match b.ctrl with
    | none => .unknown
    | some u => if level u .nRE then (if outLevels v then .presented else .unlisted) else b.phase

/-- Where nRE stands after a data sample: the sample does not move the lines (R52), it uses up the byte of its read clock. -/
def ReadPhase.afterSample : ReadPhase → ReadPhase
  | .high => .high
  | .presented => .sampled
  | .sampled => .sampled
  | .unlisted => .unlisted
  | .unknown => .unknown

/-- The lines after one event. -/
def BusView.after (b : BusView) : Event → BusView
  | .writeCtrl v => { b with ctrl := some v, phase := phaseAfter b v }
  | .writeData v => { b with data := some v }
  | .setDir d => { b with dir := DirSel.toDir d }
  | .readData _ => { b with phase := b.phase.afterSample }
  | .readCtrl _ => b
  | .delay _ => b

/-- What a data sample is (R52, R63). -/
def sampleCycle (b : BusView) (v : Byte) : Cycle :=
  match b.phase with
  | .high => .outside v
  | .presented => .dataOut v
  | .sampled => .resampled v
  | .unlisted => .unlistedOut v
  | .unknown => .uncertainOut v

/-- The cycles one event makes. -/
def eventCycles (b : BusView) : Event → List Cycle
  | .writeCtrl v => controlCycles b v
  | .readData v => [sampleCycle b v]
  | .writeData _ => []
  | .setDir _ => []
  | .readCtrl _ => []
  | .delay _ => []

/-- What a list of events makes on the lines, from given lines, in order (R53, R63). -/
def busCycles (b : BusView) : List Event → List Cycle
  | [] => []
  | e :: rest => eventCycles b e ++ busCycles (b.after e) rest

end Sys2Proof.Machine
end

