-- ==== Sys2Proof/Safety.lean ====
section
/-! DEFINITION. The terms claims use: the idle state, runs of one request, the environment's coming answers, the events each
sequence is to make, and the invariants of every step. -/

namespace Sys2Proof.Machine

/-! ## Conditions on a state -/

/-- The idle state (R31): "the control-bus state between operations once INIT has run", with nWP and AUX free. -/
def Idle (s : State) : Prop :=
  level s.ctrl .CLE = false ∧ level s.ctrl .ALE = false ∧ level s.ctrl .nCE = false ∧ level s.ctrl .nWE = true ∧
    level s.ctrl .nRE = true ∧ level s.ctrl .RDY = false ∧ s.dir = .drive ∧ s.physCtrl = some s.ctrl ∧
    s.physData = some s.data

/-- Write protection is ON: nWP is 0 in the mirror and has been flushed (R32). -/
def ProtectionOn (s : State) : Prop :=
  level s.ctrl .nWP = false ∧ ∃ v, s.physCtrl = some v ∧ level v .nWP = false

/-- Between two requests of a session: the session is open and no request is running. -/
def Between (s : State) : Prop := s.sessionOpen = true ∧ s.seq = none

/-- The payload of an instruction stands whole in the stream: not "fewer than PLEN bytes follow" (R75). -/
def PayloadPresent (i : Instr) (s : State) : Prop :=
  i.payloadLength s.cfg.pageSize = 0 ∨ s.pos + 8 + i.payloadLength s.cfg.pageSize ≤ s.stream.length

/-! ## Runs of one request -/

/-- `n` steps of one instruction. -/
def execTimes : Nat → Instr → State → Host.Outcome State Fault Refusal
  | 0, _, s => .next s
  | n + 1, i, s =>
    match exec i s with
    | .next t => execTimes n i t
    | .fault r => .fault r
    | .refused r => .refused r

/-- `exec i s` answers a next state, and going on with `i` from it reaches `t` (R6: one step makes at most one adapter call, so an
operation takes several). -/
def CompletesWith (i : Instr) (s t : State) : Prop :=
  ∃ s₁, exec i s = .next s₁ ∧ ∃ n, execTimes n i s₁ = .next t

/-- The request of `i` started at `s` ends at `t`: `t` is the first state of the run of `i` with no request running. -/
def RespondsAt (i : Instr) (s t : State) : Prop :=
  ∃ n, execTimes (n + 1) i s = .next t ∧ Between t ∧ ∀ m < n, ∀ u, execTimes (m + 1) i s = .next u → ¬ Between u

/-- The state `s` after the request of `i` has ended with `report`, result `bytes` and `idMatch`, all else as in `s`: `seq` is
discarded, `rp` counts it and the next request follows it in the stream (R34, R35, R68). -/
def ended (i : Instr) (report : Report) (bytes : List Byte) (idMatch : Bool) (s : State) : State :=
  { s with
    seq := none
    resp := some { report := report, bytes := bytes, idMatch := idMatch }
    rp := s.rp + 1
    pos := s.pos + 8 + i.payloadLength s.cfg.pageSize }

/-! ## The environment's coming answers -/

/-- The environment after `n` adapter reads. -/
def Env.after : Nat → Env → Env
  | 0, e => e
  | n + 1, e => Env.after n (Env.afterSample e)

/-- The answers to the next `n` adapter reads, in order. -/
def Env.upcoming : Nat → Env → List Byte
  | 0, _ => []
  | n + 1, e => Env.sample e :: Env.upcoming n (Env.afterSample e)

/-- The environment after `n` record transfers. -/
def Env.afterTransfers : Nat → Env → Env
  | 0, e => e
  | n + 1, e => Env.afterTransfers n (Env.afterStorage e)

/-- Whether each of the next `n` record transfers is served. -/
def Env.serves : Nat → Env → Prop
  | 0, _ => True
  | n + 1, e => Env.storageAnswer e = true ∧ Env.serves n (Env.afterStorage e)

/-- A wait that takes the busy samples `busy` and then the ready sample `last`, below the safety valve (R99, R100). -/
def WaitEnds (cfg : Config) (busy : List Byte) (last : Byte) : Prop :=
  (∀ v ∈ busy, ready v = false) ∧ ready last = true ∧ ∀ limit, cfg.pollLimit = some limit → busy.length < limit.val

/-! ## The events a sequence is to make, as the rules list them -/

/-- The event of `Sleep(t)`: none when t = 0 (R89). -/
def delayEvents (t : Nat) : List Event := if t = 0 then [] else [.delay t]

/-- LatchCommand's five flushes from the control byte `c` (R93). -/
def commandEvents (c b : Byte) : List Event :=
  let c₁ := withLevel c .CLE true
  let c₂ := withLevel c₁ .nWE false
  let c₃ := withLevel c₂ .nWE true
  [.writeCtrl c₁, .writeCtrl c₂, .writeData b, .writeCtrl c₃, .writeCtrl (withLevel c₃ .CLE false)]

/-- The control byte after LatchCommand (R93). -/
def commandCtrl (c : Byte) : Byte :=
  withLevel (withLevel (withLevel (withLevel c .CLE true) .nWE false) .nWE true) .CLE false

/-- The control byte with nWE low, then high: what one latched byte leaves (R94, R96). -/
def pulsed (c : Byte) : Byte := withLevel (withLevel c .nWE false) .nWE true

/-- The events of one latched byte from the control byte `c` (R94, R96). -/
def latchByteEvents (cfg : Config) (c b : Byte) : List Event :=
  [.writeCtrl (withLevel c .nWE false)] ++ delayEvents cfg.tPreDrive ++ [.writeData b] ++ delayEvents cfg.tPostDrive ++
    [.writeCtrl (pulsed c)] ++ delayEvents cfg.tPostLatch

/-- LatchDataIn's events from the control byte `c` (R96). -/
def dataInEvents (cfg : Config) (c : Byte) (bytes : List Byte) : List Event := bytes.flatMap (latchByteEvents cfg c)

/-- The control byte after the latched bytes. -/
def latchedCtrl (c : Byte) (bytes : List Byte) : Byte := if bytes = [] then c else pulsed c

/-- LatchAddress's events from the control byte `c` (R94). -/
def addressEvents (cfg : Config) (c : Byte) (bytes : List Byte) : List Event :=
  [.writeCtrl (withLevel c .ALE true)] ++ dataInEvents cfg (withLevel c .ALE true) bytes ++
    [.writeCtrl (withLevel (latchedCtrl (withLevel c .ALE true) bytes) .ALE false)]

/-- The control byte after LatchAddress. -/
def addressCtrl (c : Byte) (bytes : List Byte) : Byte :=
  withLevel (latchedCtrl (withLevel c .ALE true) bytes) .ALE false

/-- The control byte with nRE low, then high: what one read byte leaves (R95). -/
def clocked (c : Byte) : Byte := withLevel (withLevel c .nRE false) .nRE true

/-- The events of one read byte from the control byte `c` (R95). -/
def readByteEvents (cfg : Config) (c v : Byte) : List Event :=
  [.writeCtrl (withLevel c .nRE false)] ++ delayEvents cfg.tReadLow ++ [.readData v] ++ [.writeCtrl (clocked c)] ++
    delayEvents cfg.tReadHigh

/-- LatchRegisterOut's events from the control byte `c`, the chip answering `bytes` (R95). -/
def dataOutEvents (cfg : Config) (c : Byte) (bytes : List Byte) : List Event :=
  [.setDir .read] ++ bytes.flatMap (readByteEvents cfg c) ++ [.setDir .drive]

/-- The control byte after LatchRegisterOut. -/
def readCtrl (c : Byte) (bytes : List Byte) : Byte := if bytes = [] then c else clocked c

/-- waitWhileBusy's events for the busy samples `busy` and the ready sample `last` (R99). -/
def waitEvents (cfg : Config) (busy : List Byte) (last : Byte) : List Event :=
  delayEvents cfg.tBusySettle ++ busy.flatMap (fun v => [.readCtrl v] ++ delayEvents cfg.tPollInterval) ++ [.readCtrl last]

/-- ReadPage's events up to the end of its wait, from an idle control byte (R110). -/
def readPageWaitEvents (cfg : Config) (c : Byte) (page : Nat) (busy : List Byte) (last : Byte) : List Event :=
  commandEvents c cfg.cmdRead1First ++ addressEvents cfg c (toAddressCycles page 0) ++
    commandEvents c cfg.cmdRead1Confirm ++ waitEvents cfg busy last

/-- ReadPage's events from an idle control byte (R110). -/
def readPageEvents (cfg : Config) (c : Byte) (page : Nat) (busy : List Byte) (last : Byte) (bytes : List Byte) : List Event :=
  readPageWaitEvents cfg c page busy last ++ dataOutEvents cfg c bytes

/-- The status read and write protect back on, from an unprotected idle control byte (R111, R112, R114). -/
def statusEvents (cfg : Config) (c status : Byte) : List Event :=
  commandEvents c cfg.cmdReadStatus ++ dataOutEvents cfg c [status] ++ [.writeCtrl (withLevel c .nWP false)]

/-- EraseBlock's events up to the end of its wait, from an idle control byte (R111). -/
def eraseWaitEvents (cfg : Config) (c : Byte) (block : Nat) (busy : List Byte) (last : Byte) : List Event :=
  let u := withLevel c .nWP true
  [.writeCtrl u] ++ commandEvents u cfg.cmdEraseFirst ++ addressEvents cfg u (rowBytes (block * cfg.pagesPerBlock)) ++
    commandEvents u cfg.cmdEraseConfirm ++ waitEvents cfg busy last

/-- EraseBlock's events from an idle control byte (R111). -/
def eraseEvents (cfg : Config) (c : Byte) (block : Nat) (busy : List Byte) (last status : Byte) : List Event :=
  eraseWaitEvents cfg c block busy last ++ statusEvents cfg (withLevel c .nWP true) status

/-- ProgramPage's events up to the end of its wait, from an idle control byte (R112). -/
def programWaitEvents (cfg : Config) (c : Byte) (page : Nat) (bytes busy : List Byte) (last : Byte) : List Event :=
  let u := withLevel c .nWP true
  [.writeCtrl u] ++ commandEvents u cfg.cmdProgramFirst ++ addressEvents cfg u (toAddressCycles page 0) ++
    dataInEvents cfg u bytes ++ commandEvents u cfg.cmdProgramConfirm ++ waitEvents cfg busy last

/-- ProgramPage's events from an idle control byte (R112). -/
def programEvents (cfg : Config) (c : Byte) (page : Nat) (bytes busy : List Byte) (last status : Byte) : List Event :=
  programWaitEvents cfg c page bytes busy last ++ statusEvents cfg (withLevel c .nWP true) status

/-- What the chip answers to one page read: busy samples, the ready sample, then the bytes read (R110, R119). -/
structure Visit where
  busy : List Byte
  last : Byte
  bytes : List Byte
deriving DecidableEq, Repr

/-- The answers of a page read in order. -/
def Visit.answers (v : Visit) : List Byte := v.busy ++ [v.last] ++ v.bytes

/-- What the chip answers to one erase or program: busy samples, the ready sample, then the status byte (R111, R112). -/
structure StatusVisit where
  busy : List Byte
  last : Byte
  status : Byte
deriving DecidableEq, Repr

/-- The answers of an erase or program in order. -/
def StatusVisit.answers (v : StatusVisit) : List Byte := v.busy ++ [v.last] ++ [v.status]

/-- A wait that ends, and a status without failure (R99, R115). -/
def StatusVisit.Succeeds (cfg : Config) (v : StatusVisit) : Prop :=
  WaitEnds cfg v.busy v.last ∧ v.status.getLsbD 0 = false

/-- DumpRange's events from an idle control byte, one visit for each page from `page` on (R119). -/
def dumpEvents (cfg : Config) (c : Byte) : Nat → List Visit → List Event
  | _, [] => []
  | page, v :: rest => readPageEvents cfg c page v.busy v.last v.bytes ++ dumpEvents cfg c (page + 1) rest

/-- The records DumpRange delivers, one for each visit, numbered from `i` (R119). -/
def dumpRecords : Nat → List Visit → List (Nat × List Byte)
  | _, [] => []
  | i, v :: rest => (i, v.bytes) :: dumpRecords (i + 1) rest

/-- EraseRange's events from an idle control byte, one visit for each block from `block` on (R122). -/
def eraseRangeEvents (cfg : Config) (c : Byte) : Nat → List StatusVisit → List Event
  | _, [] => []
  | block, v :: rest => eraseEvents cfg c block v.busy v.last v.status ++ eraseRangeEvents cfg c (block + 1) rest

/-- The pages ProgramRange programs, with their records, the first record going to `page`: every record that is not skipped, in
ascending order, each to the page of its own index (R120, R121). -/
def pagesToProgram : Nat → List (List Byte) → List (Nat × List Byte)
  | _, [] => []
  | page, record :: rest =>
    if skipRecord record then pagesToProgram (page + 1) rest else (page, record) :: pagesToProgram (page + 1) rest

/-- ProgramRange's events from an idle control byte: one ProgramPage for each page to program (R120). -/
def programRangeEvents (cfg : Config) (c : Byte) : List ((Nat × List Byte) × StatusVisit) → List Event
  | [] => []
  | ((page, record), v) :: rest =>
    programEvents cfg c page record v.busy v.last v.status ++ programRangeEvents cfg c rest

/-- The first `n` records of a PROGRAMRANGE payload (R120). -/
def sourceRecords (s : State) (n : Nat) : List (List Byte) := (List.range n).map (sourceRecord s)

/-- The control byte after `n` erases or programs of a range from the control byte `c`: each leaves nWP at 0 (R114). -/
def rangeCtrl (c : Byte) (n : Nat) : Byte := if n = 0 then c else withLevel c .nWP false

/-! ## Counts -/

/-- Control writes of a list of events (R97, R116). -/
def controlWrites (events : List Event) : Nat :=
  events.countP fun e => match e with | .writeCtrl _ => true | _ => false

/-- Data writes of a list of events (R97, R116). -/
def dataWrites (events : List Event) : Nat :=
  events.countP fun e => match e with | .writeData _ => true | _ => false

/-- Control reads of a list of events (R116). -/
def controlReads (events : List Event) : Nat :=
  events.countP fun e => match e with | .readCtrl _ => true | _ => false

/-- Data reads of a list of events (R97, R116). -/
def dataReads (events : List Event) : Nat :=
  events.countP fun e => match e with | .readData _ => true | _ => false

/-- Direction calls of a list of events (R97, R116). -/
def directionCalls (events : List Event) : Nat :=
  events.countP fun e => match e with | .setDir _ => true | _ => false

/-- Every delay parameter is 0 (R116). -/
def NoDelays (cfg : Config) : Prop :=
  cfg.tPreDrive = 0 ∧ cfg.tPostDrive = 0 ∧ cfg.tPostLatch = 0 ∧ cfg.tReadLow = 0 ∧ cfg.tReadHigh = 0 ∧
    cfg.tPollInterval = 0 ∧ cfg.tBusySettle = 0

/-! ## What the trace records -/

/-- The last byte written to the control channel (R29). -/
def lastCtrl : List Event → Option Byte
  | [] => none
  | e :: rest =>
    match lastCtrl rest, e with
    | some v, _ => some v
    | none, .writeCtrl v => some v
    | none, _ => none

/-- The last byte written to the data channel (R29). -/
def lastData : List Event → Option Byte
  | [] => none
  | e :: rest =>
    match lastData rest, e with
    | some v, _ => some v
    | none, .writeData v => some v
    | none, _ => none

/-- The direction mode after events, from a given one (R28). -/
def dirAfter : Dir → List Event → Dir
  | d, [] => d
  | _, .setDir d :: rest => dirAfter (DirSel.toDir d) rest
  | d, .writeCtrl _ :: rest => dirAfter d rest
  | d, .writeData _ :: rest => dirAfter d rest
  | d, .readCtrl _ :: rest => dirAfter d rest
  | d, .readData _ :: rest => dirAfter d rest
  | d, .delay _ :: rest => dirAfter d rest

/-- Every data write stands under `Drive` and every data sample under `Read`, from a given direction (R28, R150). -/
def DirectionKept : Dir → List Event → Prop
  | _, [] => True
  | _, .setDir d :: rest => DirectionKept (DirSel.toDir d) rest
  | d, .writeData _ :: rest => d = .drive ∧ DirectionKept d rest
  | d, .readData _ :: rest => d = .read ∧ DirectionKept d rest
  | d, .writeCtrl _ :: rest => DirectionKept d rest
  | d, .readCtrl _ :: rest => DirectionKept d rest
  | d, .delay _ :: rest => DirectionKept d rest

/-- Whether an operation opens the write-protect bracket (R114): the erase and program operations and their ranges. -/
def opensBracket : Instr → Bool
  | .erase _ => true
  | .program _ _ => true
  | .eraserange _ _ => true
  | .programrange _ _ => true
  | _ => false

/-- The chip operations and the ranges of them (R108, R118). -/
def isChipOrRange : Instr → Bool
  | .readid => true
  | .readpage _ => true
  | .erase _ => true
  | .program _ _ => true
  | .readstatus => true
  | .dump _ _ => true
  | .programrange _ _ => true
  | .eraserange _ _ => true
  | _ => false

/-- Whether an operation runs a Bus Operation: as itself, or as a part of a chip operation or range (R93 to R96, R109 to R113, R119,
R120, R122). Every chip operation sends a command and reads bytes, all but READSTATUS send an address, PROGRAM and its range send
data. -/
def runsBusOp : BusOp → Instr → Bool
  | .LCMD, i => i matches .lcmd _ || isChipOrRange i
  | .LADDR, i => i matches .laddr _ || (isChipOrRange i && i != .readstatus)
  | .LOUT, i => i matches .lout _ || isChipOrRange i
  | .LDIN, i => i matches .ldin _ || i matches .program _ _ || i matches .programrange _ _

/-! ## Invariants of every step -/

/-- What every step keeps, from any state that has it. -/
structure MachineInv (s : State) : Prop where
  /-- the RDY bit of the mirror is hardwired to 0 (R24) -/
  rdyMirror : level s.ctrl .RDY = false
  /-- every control write carries bit 6 = 0 (R24) -/
  rdyWrites : ∀ v, Event.writeCtrl v ∈ s.trace → level v .RDY = false
  /-- `phys_ctrl` is the last byte written to the control channel (R29) -/
  physCtrlRecord : s.physCtrl = lastCtrl s.trace
  /-- `phys_data` is the last byte written to the data channel (R29) -/
  physDataRecord : s.physData = lastData s.trace
  /-- `dir` is what the direction calls left (R28) -/
  dirRecord : s.dir = dirAfter .unset s.trace
  /-- every data write was made under `Drive` and every data sample under `Read` (R28) -/
  directed : DirectionKept .unset s.trace
  /-- a response stands exactly when a request has completed (R34, R35) -/
  responded : s.resp = none ↔ s.rp = 0
  /-- the bracket is open only in an erase or program (R114) -/
  bracket : ∀ q, s.seq = some q → q.wpOpen = true → opensBracket q.op = true
  /-- the stream's memory has its canonical form -/
  canonical : Stream.wf s.stream

end Sys2Proof.Machine
end

