-- ==== Sys2Proof/Certificates/Slice0/Obligations.lean ====
section
/-! DEFINITION. The statements for the provers, each with the rule of spec/ it formalises. -/

open Sys2Proof Sys2Proof.Machine

/-- R145: the state at session start, for every configuration and request stream. `State.reset` is one of these states. -/
def Obligations.ResetValues : Prop :=
  (∀ cfg stream,
    (State.newSession cfg stream).ctrl = 0x00 ∧ (∀ sig, level (State.newSession cfg stream).ctrl sig = false) ∧
    (State.newSession cfg stream).data = 0x00 ∧ (State.newSession cfg stream).dir = .unset ∧
    (State.newSession cfg stream).physCtrl = none ∧ (State.newSession cfg stream).physData = none ∧
    (State.newSession cfg stream).seq = none ∧ (State.newSession cfg stream).resp = none ∧
    (State.newSession cfg stream).rp = 0 ∧ (State.newSession cfg stream).trace = [] ∧
    (State.newSession cfg stream).cfg = cfg ∧ (State.newSession cfg stream).stream = stream) ∧
  ∃ cfg stream, State.reset = State.newSession cfg stream

/-- The invariant that every step keeps holds at reset, and at the start of every session whose stream is in canonical form. -/
def Obligations.ResetSatisfiesInvariant : Prop :=
  MachineInv State.reset ∧ ∀ cfg stream, Stream.wf stream → MachineInv (State.newSession cfg stream)

/-- Every step keeps the invariant, from any state that has it, not only from states a run reaches. -/
def Obligations.StepKeepsInvariant : Prop :=
  ∀ s t : State, MachineInv s → step s = .next t → MachineInv t

/-- Decode and encode agree, for every instruction and every operand value the encoding admits. -/
def Obligations.DecodeOfEncode : Prop :=
  ∀ i : Instr, i.wellFormed = true →
    decode (encode i) = .ok i ∧ ∀ payload, decodeBytes (encodeRequest i payload) = .ok i

/-- Each accepted descriptor is the one encoding of its instruction. -/
def Obligations.EncodeOfDecode : Prop :=
  ∀ (w : Descriptor) (i : Instr), decode w = .ok i → encode i = w ∧ i.wellFormed = true

/-- The decoder's test by mask and match of R75, with the pin exception of R73. -/
def Obligations.DecoderAcceptsExactlyTheTable : Prop :=
  ∀ w : Descriptor, (∃ i, decode w = .ok i) ↔
    (∃ m : Mnemonic, w &&& m.format.mask = m.pattern) ∧
      ¬(w.extractLsb' 0 8 = 0x01 ∧ w.getLsbD 12 = true ∧ w.extractLsb' 8 3 = 6)

/-- R82's and R72's examples. -/
def Obligations.ExampleDescriptorsDecode : Prop :=
  decode 0x0000000000009010 = .ok (.lcmd 0x90) ∧
  decode 0x0000010000000011 = .ok (.laddr 1) ∧
  decode 0x0000050000000012 = .ok (.lout 5) ∧
  decode 0x0000000000050021 = .ok (.readpage 5) ∧
  decode 0x00000000000A0022 = .ok (.erase 10) ∧
  decode 0x0000000000001D01 = .ok (.setpin .ctrl 5 true)

/-- R76, on a step that takes such a request: only `resp` and `rp` change, and the model's own stream offset. -/
def Obligations.ReservedOpcodesRefused : Prop :=
  ∀ (s : State) (w : Descriptor), Between s → fetchBytes s = Descriptor.toBytes w →
    (let op := (w.extractLsb' 0 8).toNat
     op = 0x00 ∨ (0x08 ≤ op ∧ op ≤ 0x0F) ∨ (0x14 ≤ op ∧ op ≤ 0x17) ∨ (0x19 ≤ op ∧ op ≤ 0x1B) ∨
       (0x1D ≤ op ∧ op ≤ 0x1F) ∨ (0x25 ≤ op ∧ op ≤ 0x2F) ∨ (0x33 ≤ op ∧ op ≤ 0xFF)) →
    ∃ p, step s = .next { s with
      resp := some { report := .illegalRequest (w.extractLsb' 0 8), bytes := [], idMatch := false }
      rp := s.rp + 1
      pos := p }

/-- R73, on a step that takes such a request, and the legality of every other pin. -/
def Obligations.RdyPinRefused : Prop :=
  (∀ (s : State) (w : Descriptor), Between s → fetchBytes s = Descriptor.toBytes w →
    w.extractLsb' 0 8 = 0x01 → w.getLsbD 12 = true → w.extractLsb' 8 3 = 6 →
    ∃ p, step s = .next { s with
      resp := some { report := .illegalRequest 0x01, bytes := [], idMatch := false }
      rp := s.rp + 1
      pos := p }) ∧
  (∀ (bus : Bus) (pin : BitVec 3) (value : Bool), ¬(bus = .ctrl ∧ pin = 6) →
    decode (Descriptor.ofFields 0x01 (0#3 ++ BitVec.ofBool bus.bit ++ BitVec.ofBool value ++ pin) 0 0) =
      .ok (.setpin bus pin value))

/-- R75: a refused descriptor changes only `resp` and `rp`; R79: `id_match` is 0 for every operation but READID, and of a refused READID
it is left open (entry 22). Where the next request then stands is the model's choice (entry 8). -/
def Obligations.IllegalDescriptorRefused : Prop :=
  ∀ (s : State) (w : Descriptor) (e : DecodeError), Between s →
    fetchBytes s = Descriptor.toBytes w → decode w = .error e →
    ∃ b, (w.extractLsb' 0 8 ≠ 0x20 → b = false) ∧
      step s = .next { s with
        resp := some { report := .illegalRequest (w.extractLsb' 0 8), bytes := [], idMatch := b }
        rp := s.rp + 1
        pos := s.pos + 8 + payloadLength s.cfg.pageSize w }

/-- R71. The refusal changes `resp` and `rp` alone, and the model's own stream offset; no event is appended. -/
def Obligations.PayloadLengthRule : Prop :=
  (∀ (P : Nat) (w : Descriptor) (i : Instr), decode w = .ok i →
    payloadLength P w =
      match i with
      | .laddr _ | .ldin _ | .program _ _ => (w.extractLsb' 40 24).toNat
      | .programrange _ _ => (w.extractLsb' 40 24).toNat * P
      | _ => 0) ∧
  (∀ (P : Nat) (w : Descriptor) (i : Instr), decode w = .ok i → i.payloadLength P = payloadLength P w) ∧
  (∀ (page length : Field24) (s : State), Between s → length.toNat ≠ s.cfg.pageSize →
    ∃ p, exec (.program page length) s = .next { s with
      resp := some { report := .lengthMismatch length.toNat, bytes := [], idMatch := false }
      rp := s.rp + 1
      pos := p })

/-- R75's last check, for every instruction that has a payload. Where the next request then stands is left open (entry 8). -/
def Obligations.ShortPayloadRefused : Prop :=
  ∀ (i : Instr) (s : State), Between s → i.wellFormed = true → i.lengthOk s.cfg.pageSize = true → ¬PayloadPresent i s →
    ∃ p, exec i s = .next { s with
      resp := some { report := .lengthMismatch (i.payloadLength s.cfg.pageSize), bytes := [], idMatch := false }
      rp := s.rp + 1
      pos := p }

/-- A step takes the request at `pos` and runs it, or goes on with the running request; it adds nothing around `exec`. -/
def Obligations.StepRunsTheDecodedInstruction : Prop :=
  (∀ (s : State) (i : Instr), Between s → decodeBytes (fetchBytes s) = .ok i → step s = exec i s) ∧
  (∀ (s : State) (q : Seq), s.sessionOpen = true → s.seq = some q → step s = exec q.op s)

/-- When a step stops, and that it stops in no other state; and what ending a session, or a host abort, leaves (R39, R132). That the
stops are a fault and refusals, and that the end is a function the host applies between two steps, is the model's choice (entries 9
and 12). -/
def Obligations.StepStopsOnlyWithoutARequest : Prop :=
  ∀ s : State,
    (s.sessionOpen = false → step s = .refused .sessionEnded ∧ ∀ i, exec i s = .refused .sessionEnded) ∧
    (Between s → s.stream.length ≤ s.pos → step s = .refused .noRequest) ∧
    (Between s → s.pos < s.stream.length → s.stream.length < s.pos + 8 → step s = .fault .descriptorCutShort) ∧
    (s.sessionOpen = true → (s.seq ≠ none ∨ s.pos + 8 ≤ s.stream.length) → ∃ t, step s = .next t) ∧
    (let t := s.endSession
     t.trace = s.trace ∧ t.resp = s.resp ∧ t.rp = s.rp ∧ t.sink = s.sink ∧ t.physCtrl = s.physCtrl ∧
       t.physData = s.physData ∧ t.dir = s.dir ∧ t.seq = none ∧
       (∀ s' : State, s'.endSession.ctrl = t.ctrl ∧ s'.endSession.data = t.data) ∧
       step t = .refused .sessionEnded ∧ ∀ i, exec i t = .refused .sessionEnded)

/-- R84: one bit of one mirror, no adapter call; and the refusal of the control bus's RDY pin. That the response is a step of its own
is the model's choice (entry 5). -/
def Obligations.SetpinChangesOneMirrorBit : Prop :=
  (∀ (pin : BitVec 3) (value : Bool) (s : State), Between s →
    ∃ v : Byte, (∀ j < 8, v.getLsbD j = if j = pin.toNat then value else s.data.getLsbD j) ∧
      ∃ s₁, exec (.setpin .data pin value) s = .next s₁ ∧ exec (.setpin .data pin value) s₁ =
        .next (ended (.setpin .data pin value) .ok [] false { s with data := v })) ∧
  (∀ (pin : BitVec 3) (value : Bool) (s : State), Between s → pin ≠ 6 →
    ∃ v : Byte, (∀ j < 8, v.getLsbD j = if j = pin.toNat then value else s.ctrl.getLsbD j) ∧
      ∃ s₁, exec (.setpin .ctrl pin value) s = .next s₁ ∧ exec (.setpin .ctrl pin value) s₁ =
        .next (ended (.setpin .ctrl pin value) .ok [] false { s with ctrl := v })) ∧
  (∀ (value : Bool) (s : State), Between s →
    ∃ p, exec (.setpin .ctrl 6 value) s = .next { s with
      resp := some { report := .illegalRequest 0x01, bytes := [], idMatch := false }
      rp := s.rp + 1
      pos := p })

/-- R85: the whole data mirror, no adapter call, in any direction. (The response is a step of its own, entry 5.) -/
def Obligations.SetdataWritesTheDataMirror : Prop :=
  ∀ (b : Byte) (s : State), Between s →
    ∃ s₁, exec (.setdata b) s = .next s₁ ∧
      exec (.setdata b) s₁ = .next (ended (.setdata b) .ok [] false { s with data := b })

/-- R86, each bus and direction. (The response is a step of its own, entry 5, also an error's,
entry 7.) -/
def Obligations.FlushWritesOneMirror : Prop :=
  (∀ s : State, Between s →
    ∃ s₁, exec (.flush .ctrl) s = .next s₁ ∧ exec (.flush .ctrl) s₁ = .next (ended (.flush .ctrl) .ok [] false
      { s with physCtrl := some s.ctrl, trace := s.trace ++ [.writeCtrl s.ctrl] })) ∧
  (∀ s : State, Between s → s.dir = .drive →
    ∃ s₁, exec (.flush .data) s = .next s₁ ∧ exec (.flush .data) s₁ = .next (ended (.flush .data) .ok [] false
      { s with physData := some s.data, trace := s.trace ++ [.writeData s.data] })) ∧
  (∀ s : State, Between s → s.dir ≠ .drive →
    ∃ s₁, exec (.flush .data) s = .next s₁ ∧
      exec (.flush .data) s₁ = .next (ended (.flush .data) (.directionViolation .data) [] false s))

/-- R87, each bus and direction. The byte is the environment's next answer (R10). (The response is a step of its own, entry 5, also an error's,
entry 7.) -/
def Obligations.SampleReturnsOneAnswer : Prop :=
  (∀ s : State, Between s →
    ∃ s₁, exec (.sample .ctrl) s = .next s₁ ∧
      exec (.sample .ctrl) s₁ = .next (ended (.sample .ctrl) .ok (Env.upcoming 1 s.env) false
        { s with env := Env.after 1 s.env, trace := s.trace ++ [.readCtrl (Env.sample s.env)] })) ∧
  (∀ s : State, Between s → s.dir = .read →
    ∃ s₁, exec (.sample .data) s = .next s₁ ∧
      exec (.sample .data) s₁ = .next (ended (.sample .data) .ok (Env.upcoming 1 s.env) false
        { s with env := Env.after 1 s.env, trace := s.trace ++ [.readData (Env.sample s.env)] })) ∧
  (∀ s : State, Between s → s.dir ≠ .read →
    ∃ s₁, exec (.sample .data) s = .next s₁ ∧
      exec (.sample .data) s₁ = .next (ended (.sample .data) (.directionViolation .data) [] false s))

/-- R88, for both directions and from every direction, with the data lines of R29. (The response is a step of its own, entry 5.) -/
def Obligations.SetdirSwitchesTheDirection : Prop :=
  (∀ s : State, Between s →
    let t := ended (.setdir .drive) .ok [] false { s with dir := .drive, trace := s.trace ++ [.setDir .drive] }
    (∃ s₁, exec (.setdir .drive) s = .next s₁ ∧ exec (.setdir .drive) s₁ = .next t) ∧ dataLines t = .driven s.physData) ∧
  (∀ s : State, Between s →
    let t := ended (.setdir .read) .ok [] false { s with dir := .read, trace := s.trace ++ [.setDir .read] }
    (∃ s₁, exec (.setdir .read) s = .next s₁ ∧ exec (.setdir .read) s₁ = .next t) ∧ dataLines t = .released)

/-- R89: `DELAY 0` is a no-op, any other delay is one event; the request still runs during the `Sleep` (R132; entry 5). -/
def Obligations.DelayMakesOneDelayEvent : Prop :=
  (∀ s : State, Between s →
    ∃ s₁, exec (.delay 0) s = .next s₁ ∧ exec (.delay 0) s₁ = .next (ended (.delay 0) .ok [] false s)) ∧
  (∀ (t : Field24) (s : State), Between s → 0 < t.toNat →
    ∃ s₁, exec (.delay t) s = .next s₁ ∧
      (s₁.trace = s.trace ++ [.delay t.toNat] ∧ s₁.seq ≠ none ∧ s₁.resp = s.resp ∧ s₁.rp = s.rp) ∧
      exec (.delay t) s₁ = .next (ended (.delay t) .ok [] false { s with trace := s.trace ++ [.delay t.toNat] }))

/-- R90, from every state with no request running: the control byte is given by its eight levels. -/
def Obligations.InitCompletes : Prop :=
  ∀ s : State, Between s → ∃ c : Byte,
    (level c .CLE = false ∧ level c .ALE = false ∧ level c .nCE = false ∧ level c .nWE = true ∧ level c .nRE = true ∧
      level c .nWP = false ∧ level c .AUX = level s.ctrl .AUX ∧ level c .RDY = level s.ctrl .RDY) ∧
    ∃ s₁, exec .init s = .next s₁ ∧ ∃ n, execTimes n .init s₁ = .next (ended .init .ok [] false
      { s with
        ctrl := c
        data := 0x00
        dir := .drive
        physCtrl := some c
        physData := some 0x00
        trace := s.trace ++ [.writeCtrl c, .setDir .drive, .writeData 0x00] })

/-- R147 and R31: after INIT the block is in the idle state, protection ON. -/
def Obligations.InitLeavesIdle : Prop :=
  ∀ s : State, Between s → level s.ctrl .RDY = false →
    ∃ s₁, exec .init s = .next s₁ ∧ ∃ t, RespondsAt .init s t ∧ Idle t ∧ ProtectionOn t ∧
      t.data = 0x00 ∧ t.ctrl = if level s.ctrl .AUX then 0x98 else 0x18

/-- R93, under exactly its entry checks; ALE, nWE and every other level are free. -/
def Obligations.LcmdCompletes : Prop :=
  ∀ (b : Byte) (s : State), Between s → level s.ctrl .nCE = false → level s.ctrl .nRE = true → s.dir = .drive →
    ∃ s₁, exec (.lcmd b) s = .next s₁ ∧ ∃ n, execTimes n (.lcmd b) s₁ = .next (ended (.lcmd b) .ok [] false
      { s with
        ctrl := commandCtrl s.ctrl
        data := b
        physCtrl := some (commandCtrl s.ctrl)
        physData := some b
        trace := s.trace ++ commandEvents s.ctrl b })

/-- R94, under exactly its entry checks, for every length, 0 included. -/
def Obligations.LaddrCompletes : Prop :=
  ∀ (len : Field24) (s : State), Between s → PayloadPresent (.laddr len) s → level s.ctrl .nCE = false →
    level s.ctrl .CLE = false → level s.ctrl .nRE = true → s.dir = .drive →
    let bytes := memRead s 0 len.toNat
    ∃ s₁, exec (.laddr len) s = .next s₁ ∧ ∃ n, execTimes n (.laddr len) s₁ = .next (ended (.laddr len) .ok [] false
      { s with
        ctrl := addressCtrl s.ctrl bytes
        data := bytes.getLastD s.data
        physCtrl := some (addressCtrl s.ctrl bytes)
        physData := if bytes = [] then s.physData else bytes.getLast?
        trace := s.trace ++ addressEvents s.cfg s.ctrl bytes })

/-- R95, under exactly its entry checks, for every count, 0 included. -/
def Obligations.LoutCompletes : Prop :=
  ∀ (count : Field24) (s : State), Between s → level s.ctrl .nCE = false → level s.ctrl .nWE = true →
    level s.ctrl .ALE = false →
    let bytes := Env.upcoming count.toNat s.env
    ∃ s₁, exec (.lout count) s = .next s₁ ∧ ∃ n, execTimes n (.lout count) s₁ = .next (ended (.lout count) .ok bytes false
      { s with
        ctrl := if count.toNat = 0 then s.ctrl else clocked s.ctrl
        dir := .drive
        physCtrl := if count.toNat = 0 then s.physCtrl else some (clocked s.ctrl)
        env := Env.after count.toNat s.env
        trace := s.trace ++ dataOutEvents s.cfg s.ctrl bytes })

/-- R96: no precondition but the direction, for every length, 0 included. -/
def Obligations.LdinCompletes : Prop :=
  ∀ (len : Field24) (s : State), Between s → PayloadPresent (.ldin len) s → s.dir = .drive →
    let bytes := memRead s 0 len.toNat
    ∃ s₁, exec (.ldin len) s = .next s₁ ∧ ∃ n, execTimes n (.ldin len) s₁ = .next (ended (.ldin len) .ok [] false
      { s with
        ctrl := latchedCtrl s.ctrl bytes
        data := bytes.getLastD s.data
        physCtrl := if bytes = [] then s.physCtrl else some (pulsed s.ctrl)
        physData := if bytes = [] then s.physData else bytes.getLast?
        trace := s.trace ++ dataInEvents s.cfg s.ctrl bytes })

/-- R92: each check of each Bus Operation, in order, on the mirror alone. That the response stands exactly one step after the failing check
is the model's choice (entries 5 and 7). -/
def Obligations.BusOperationChecksFailFast : Prop :=
  (∀ (b : Byte) (s : State), Between s →
    let fails := fun r : Report => ∃ s₁, exec (.lcmd b) s = .next s₁ ∧ exec (.lcmd b) s₁ = .next (ended (.lcmd b) r [] false s)
    (level s.ctrl .nCE = true → fails (.protocolPrecondition .LCMD .nCE)) ∧
    (level s.ctrl .nCE = false → level s.ctrl .nRE = false → fails (.protocolPrecondition .LCMD .nRE)) ∧
    (level s.ctrl .nCE = false → level s.ctrl .nRE = true → s.dir ≠ .drive → fails (.directionViolation .data))) ∧
  (∀ (len : Field24) (s : State), Between s → PayloadPresent (.laddr len) s →
    let fails := fun r : Report =>
      ∃ s₁, exec (.laddr len) s = .next s₁ ∧ exec (.laddr len) s₁ = .next (ended (.laddr len) r [] false s)
    (level s.ctrl .nCE = true → fails (.protocolPrecondition .LADDR .nCE)) ∧
    (level s.ctrl .nCE = false → level s.ctrl .CLE = true → fails (.protocolPrecondition .LADDR .CLE)) ∧
    (level s.ctrl .nCE = false → level s.ctrl .CLE = false → level s.ctrl .nRE = false →
      fails (.protocolPrecondition .LADDR .nRE)) ∧
    (level s.ctrl .nCE = false → level s.ctrl .CLE = false → level s.ctrl .nRE = true → s.dir ≠ .drive →
      fails (.directionViolation .data))) ∧
  (∀ (count : Field24) (s : State), Between s →
    let fails := fun r : Report =>
      ∃ s₁, exec (.lout count) s = .next s₁ ∧ exec (.lout count) s₁ = .next (ended (.lout count) r [] false s)
    (level s.ctrl .nCE = true → fails (.protocolPrecondition .LOUT .nCE)) ∧
    (level s.ctrl .nCE = false → level s.ctrl .nWE = false → fails (.protocolPrecondition .LOUT .nWE)) ∧
    (level s.ctrl .nCE = false → level s.ctrl .nWE = true → level s.ctrl .ALE = true →
      fails (.protocolPrecondition .LOUT .ALE))) ∧
  (∀ (len : Field24) (s : State), Between s → PayloadPresent (.ldin len) s → s.dir ≠ .drive →
    ∃ s₁, exec (.ldin len) s = .next s₁ ∧
      exec (.ldin len) s₁ = .next (ended (.ldin len) (.directionViolation .data) [] false s))

/-- R98, all three parts, for every Bus Operation, at the request's own response. -/
def Obligations.BusOperationsPreserveIdle : Prop :=
  ∀ s : State, Idle s → Between s →
    let ends := fun (i : Instr) (d : Byte) =>
      (∃ s₁, exec i s = .next s₁) ∧ (∃ t, RespondsAt i s t) ∧ ∀ t, RespondsAt i s t →
        t.rp = s.rp + 1 ∧ (∃ r, t.resp = some r ∧ r.report = .ok) ∧ Idle t ∧
        level t.ctrl .nWP = level s.ctrl .nWP ∧ level t.ctrl .AUX = level s.ctrl .AUX ∧ t.data = d
    (∀ b, ends (.lcmd b) b) ∧
    (∀ len, PayloadPresent (.laddr len) s → ends (.laddr len) ((memRead s 0 len.toNat).getLastD s.data)) ∧
    (∀ count, ends (.lout count) s.data) ∧
    (∀ len, PayloadPresent (.ldin len) s → ends (.ldin len) ((memRead s 0 len.toNat).getLastD s.data))

/-- R53, R63: the cycles and read clocks that the events of each Bus Operation's run make on the lines, in order. From the idle
state every level is known, so the view's uncertain cases (entry 17) do not arise. -/
def Obligations.BusCyclesFromIdle : Prop :=
  ∀ s : State, Idle s → Between s →
    let makes := fun (i : Instr) (cycles : List Cycle) =>
      ∃ s₁, exec i s = .next s₁ ∧ ∃ t new, RespondsAt i s t ∧ t.trace = s.trace ++ new ∧ busCycles (viewOf s) new = cycles
    (∀ b, makes (.lcmd b) [.command (some b)]) ∧
    (∀ len, PayloadPresent (.laddr len) s → makes (.laddr len) ((memRead s 0 len.toNat).map fun b => .address (some b))) ∧
    (∀ len, PayloadPresent (.ldin len) s → makes (.ldin len) ((memRead s 0 len.toNat).map fun b => .dataIn (some b))) ∧
    (∀ count, makes (.lout count) ((Env.upcoming count.toNat s.env).flatMap fun v => [.readClock, .dataOut v]))

/-- R99, from every state: a ready sample ends the wait, whatever the direction and the control levels. -/
def Obligations.WaitrdyCompletes : Prop :=
  ∀ (busy : List Byte) (last : Byte) (s : State), Between s → WaitEnds s.cfg busy last →
    Env.upcoming (busy.length + 1) s.env = busy ++ [last] →
    ∃ s₁, exec .waitrdy s = .next s₁ ∧ ∃ n, execTimes n .waitrdy s₁ = .next (ended .waitrdy .ok [] false
      { s with
        env := Env.after (busy.length + 1) s.env
        trace := s.trace ++ waitEvents s.cfg busy last })

/-- R100: `Timeout` on the L-th consecutive busy sample. -/
def Obligations.WaitrdyTimesOut : Prop :=
  ∀ (limit : ℕ+) (busy : List Byte) (last : Byte) (s : State), Between s → s.cfg.pollLimit = some limit →
    Env.upcoming limit.val s.env = busy ++ [last] → (∀ v ∈ busy, ready v = false) → ready last = false →
    ∃ s₁, exec .waitrdy s = .next s₁ ∧ ∃ n, execTimes n .waitrdy s₁ = .next (ended .waitrdy (.timeout limit.val) [] false
      { s with
        env := Env.after limit.val s.env
        trace := s.trace ++ waitEvents s.cfg busy last })

/-- R101: the infinite run of a wait, said for every number of busy samples. The step count `2n + 1` (a line is a step, also a silent
one) and the record `seq` are the model's choice (entries 5 and 15). -/
def Obligations.WaitrdyGoesOnWhileBusy : Prop :=
  ∀ (busy : List Byte) (s : State), Between s → s.cfg.pollLimit = none → Env.upcoming busy.length s.env = busy →
    (∀ v ∈ busy, ready v = false) →
    execTimes (2 * busy.length + 1) .waitrdy s = .next
      { s with
        seq := some { Seq.start .waitrdy with step := 1, polls := busy.length }
        env := Env.after busy.length s.env
        trace := s.trace ++ delayEvents s.cfg.tBusySettle ++
          busy.flatMap (fun v => [.readCtrl v] ++ delayEvents s.cfg.tPollInterval) }

/-- R103 with R65: the five cycles by their bits. (The response is a step of its own, entry 5.) -/
def Obligations.AddrcycReturnsTheCycles : Prop :=
  ∀ (page column : Field24) (s : State), Between s →
    ∃ s₁, exec (.addrcyc page column) s = .next s₁ ∧
      exec (.addrcyc page column) s₁ = .next (ended (.addrcyc page column) .ok
        [column.extractLsb' 0 8, column.extractLsb' 8 8, page.extractLsb' 0 8, page.extractLsb' 8 8, page.extractLsb' 16 8]
        false s)

/-- R106: the inverse, and the injectivity that follows. -/
def Obligations.AddressCyclesInverse : Prop :=
  (∀ page column : Nat, page < 2 ^ 24 → column < 2 ^ 16 →
    ∃ c0 c1 c2 c3 c4 : Byte, toAddressCycles page column = [c0, c1, c2, c3, c4] ∧
      column = c0.toNat + 256 * c1.toNat ∧ page = c2.toNat + 256 * c3.toNat + 65536 * c4.toNat) ∧
  (∀ page column page' column' : Nat, page < 2 ^ 24 → column < 2 ^ 16 → page' < 2 ^ 24 → column' < 2 ^ 16 →
    toAddressCycles page column = toAddressCycles page' column' → page = page' ∧ column = column')

/-- R104: truncation, not rejection; with R105, the row bytes are the page's three bytes. -/
def Obligations.AddressCyclesTruncate : Prop :=
  (∀ page column : Nat, toAddressCycles page column = toAddressCycles (page % 2 ^ 24) (column % 2 ^ 16)) ∧
  (∀ page column k : Nat, toAddressCycles (page + k * 2 ^ 24) column = toAddressCycles page column) ∧
  (∀ (page : Field24) (column : Nat), (toAddressCycles page.toNat column).drop 2 = rowBytes page.toNat ∧ rowBytes page.toNat =
    [page.extractLsb' 0 8, page.extractLsb' 8 8, page.extractLsb' 16 8])

/-- R109, from the idle state (R117). -/
def Obligations.ReadidCompletes : Prop :=
  ∀ s : State, Idle s → Between s →
    let id := Env.upcoming 5 s.env
    let same := decide (id = s.cfg.expectedId.toList)
    ∃ s₁, exec .readid s = .next s₁ ∧ ∃ n, execTimes n .readid s₁ = .next
      (ended .readid (if same then .ok else .identityMismatch) id same
        { s with
          data := 0x00
          physData := some 0x00
          env := Env.after 5 s.env
          trace := s.trace ++ commandEvents s.ctrl s.cfg.cmdReadId ++ addressEvents s.cfg s.ctrl [0x00] ++
            dataOutEvents s.cfg s.ctrl id })

/-- R110, from the idle state, with the wait's end as its premise (R101). -/
def Obligations.ReadpageCompletes : Prop :=
  ∀ (page : Field24) (v : Visit) (s : State), Idle s → Between s → WaitEnds s.cfg v.busy v.last →
    v.bytes.length = s.cfg.pageSize → Env.upcoming v.answers.length s.env = v.answers →
    ∃ s₁, exec (.readpage page) s = .next s₁ ∧ ∃ n, execTimes n (.readpage page) s₁ = .next
      (ended (.readpage page) .ok v.bytes false
        { s with
          data := s.cfg.cmdRead1Confirm
          physData := some s.cfg.cmdRead1Confirm
          env := Env.after v.answers.length s.env
          trace := s.trace ++ readPageEvents s.cfg s.ctrl page.toNat v.busy v.last v.bytes })

/-- R111 with the bracket of R114, from the idle state, for both outcomes of the status. -/
def Obligations.EraseCompletes : Prop :=
  ∀ (block : Field24) (v : StatusVisit) (s : State), Idle s → Between s → WaitEnds s.cfg v.busy v.last →
    Env.upcoming v.answers.length s.env = v.answers →
    ∃ s₁, exec (.erase block) s = .next s₁ ∧ ∃ n, execTimes n (.erase block) s₁ = .next
      (ended (.erase block) (if v.status.getLsbD 0 then .eraseFailed block.toNat v.status else .ok) [v.status] false
        { s with
          ctrl := withLevel s.ctrl .nWP false
          data := s.cfg.cmdReadStatus
          physCtrl := some (withLevel s.ctrl .nWP false)
          physData := some s.cfg.cmdReadStatus
          env := Env.after v.answers.length s.env
          trace := s.trace ++ eraseEvents s.cfg s.ctrl block.toNat v.busy v.last v.status })

/-- R112 with the bracket of R114, from the idle state, for both outcomes of the status. -/
def Obligations.ProgramCompletes : Prop :=
  ∀ (page length : Field24) (v : StatusVisit) (s : State), Idle s → Between s → length.toNat = s.cfg.pageSize →
    PayloadPresent (.program page length) s → WaitEnds s.cfg v.busy v.last →
    Env.upcoming v.answers.length s.env = v.answers →
    ∃ s₁, exec (.program page length) s = .next s₁ ∧ ∃ n, execTimes n (.program page length) s₁ = .next
      (ended (.program page length) (if v.status.getLsbD 0 then .programFailed page.toNat v.status else .ok) [v.status] false
        { s with
          ctrl := withLevel s.ctrl .nWP false
          data := s.cfg.cmdReadStatus
          physCtrl := some (withLevel s.ctrl .nWP false)
          physData := some s.cfg.cmdReadStatus
          env := Env.after v.answers.length s.env
          trace := s.trace ++
            programEvents s.cfg s.ctrl page.toNat (memRead s 0 s.cfg.pageSize) v.busy v.last v.status })

/-- R113, from the idle state. -/
def Obligations.ReadstatusCompletes : Prop :=
  ∀ s : State, Idle s → Between s →
    ∃ s₁, exec .readstatus s = .next s₁ ∧ ∃ n, execTimes n .readstatus s₁ = .next
      (ended .readstatus .ok (Env.upcoming 1 s.env) false
        { s with
          data := s.cfg.cmdReadStatus
          physData := some s.cfg.cmdReadStatus
          env := Env.after 1 s.env
          trace := s.trace ++ commandEvents s.ctrl s.cfg.cmdReadStatus ++
            dataOutEvents s.cfg s.ctrl (Env.upcoming 1 s.env) })

/-- R129, R114 item 3 and R123, at the one error a run from the idle state can raise inside the bracket: in a chip operation of its own
and inside each range (R119, R120, R122; vector V-RANGE-3). -/
def Obligations.TimeoutRestoresWriteProtect : Prop :=
  ∀ (limit : ℕ+) (busy : List Byte) (last : Byte) (s : State), Idle s → Between s → s.cfg.pollLimit = some limit →
    (∀ v ∈ busy, ready v = false) → ready last = false →
    let answersAre := fun before : List Byte =>
      Env.upcoming (before.length + limit.val) s.env = before ++ (busy ++ [last])
    let wp := withLevel s.ctrl .nWP false
    (∀ page : Field24, answersAre [] → ∃ s₁, exec (.readpage page) s = .next s₁ ∧ ∃ n, execTimes n (.readpage page) s₁ = .next
      (ended (.readpage page) (.timeout limit.val) [] false
        { s with
          data := s.cfg.cmdRead1Confirm
          physData := some s.cfg.cmdRead1Confirm
          env := Env.after limit.val s.env
          trace := s.trace ++ readPageWaitEvents s.cfg s.ctrl page.toNat busy last })) ∧
    (∀ block : Field24, answersAre [] → ∃ s₁, exec (.erase block) s = .next s₁ ∧ ∃ n, execTimes n (.erase block) s₁ = .next
      (ended (.erase block) (.timeout limit.val) [] false
        { s with
          ctrl := wp
          data := s.cfg.cmdEraseConfirm
          physCtrl := some wp
          physData := some s.cfg.cmdEraseConfirm
          env := Env.after limit.val s.env
          trace := s.trace ++ eraseWaitEvents s.cfg s.ctrl block.toNat busy last ++ [.writeCtrl wp] })) ∧
    (∀ page length : Field24, length.toNat = s.cfg.pageSize → PayloadPresent (.program page length) s → answersAre [] →
      ∃ s₁, exec (.program page length) s = .next s₁ ∧ ∃ n, execTimes n (.program page length) s₁ = .next
      (ended (.program page length) (.timeout limit.val) [] false
        { s with
          ctrl := wp
          data := s.cfg.cmdProgramConfirm
          physCtrl := some wp
          physData := some s.cfg.cmdProgramConfirm
          env := Env.after limit.val s.env
          trace := s.trace ++ programWaitEvents s.cfg s.ctrl page.toNat (memRead s 0 s.cfg.pageSize) busy last ++
            [.writeCtrl wp] })) ∧
    (∀ (start count : Field24) (visits : List Visit), visits.length < count.toNat →
      (∀ v ∈ visits, WaitEnds s.cfg v.busy v.last ∧ v.bytes.length = s.cfg.pageSize) → Env.serves visits.length s.env →
      answersAre (visits.flatMap Visit.answers) →
      ∃ s₁, exec (.dump start count) s = .next s₁ ∧ ∃ n, execTimes n (.dump start count) s₁ = .next
      (ended (.dump start count) (.timeout limit.val) (visits.flatMap Visit.bytes) false
        { s with
          data := s.cfg.cmdRead1Confirm
          physData := some s.cfg.cmdRead1Confirm
          env := Env.afterTransfers visits.length (Env.after ((visits.flatMap Visit.answers).length + limit.val) s.env)
          trace := s.trace ++ dumpEvents s.cfg s.ctrl start.toNat visits ++
            readPageWaitEvents s.cfg s.ctrl (start.toNat + visits.length) busy last
          sink := s.sink ++ dumpRecords 0 visits })) ∧
    (∀ (start count : Field24) (good : List StatusVisit), good.length < count.toNat → (∀ v ∈ good, v.Succeeds s.cfg) →
      answersAre (good.flatMap StatusVisit.answers) →
      ∃ s₁, exec (.eraserange start count) s = .next s₁ ∧ ∃ n, execTimes n (.eraserange start count) s₁ = .next
      (ended (.eraserange start count) (.timeout limit.val) [] false
        { s with
          ctrl := wp
          data := s.cfg.cmdEraseConfirm
          physCtrl := some wp
          physData := some s.cfg.cmdEraseConfirm
          env := Env.after ((good.flatMap StatusVisit.answers).length + limit.val) s.env
          trace := s.trace ++ eraseRangeEvents s.cfg s.ctrl start.toNat good ++
            eraseWaitEvents s.cfg s.ctrl (start.toNat + good.length) busy last ++ [.writeCtrl wp] })) ∧
    (∀ (start count : Field24) (m : Nat) (good : List StatusVisit), m < count.toNat →
      PayloadPresent (.programrange start count) s → Env.serves (m + 1) s.env → skipRecord (sourceRecord s m) = false →
      let before := pagesToProgram start.toNat (sourceRecords s m)
      good.length = before.length → (∀ v ∈ good, v.Succeeds s.cfg) → answersAre (good.flatMap StatusVisit.answers) →
      ∃ s₁, exec (.programrange start count) s = .next s₁ ∧ ∃ n, execTimes n (.programrange start count) s₁ = .next
      (ended (.programrange start count) (.timeout limit.val) [] false
        { s with
          ctrl := wp
          data := s.cfg.cmdProgramConfirm
          physCtrl := some wp
          physData := some s.cfg.cmdProgramConfirm
          env := Env.afterTransfers (m + 1) (Env.after ((good.flatMap StatusVisit.answers).length + limit.val) s.env)
          trace := s.trace ++ programRangeEvents s.cfg s.ctrl (before.zip good) ++
            programWaitEvents s.cfg s.ctrl (start.toNat + m) (sourceRecord s m) busy last ++ [.writeCtrl wp] }))

/-- R146's rows for the chip and range operations, PROGRAMRANGE's included, from every state where LatchCommand's checks fail, not from
reset alone. READID's `id_match` is left open (entry 22). -/
def Obligations.ChipOperationsFailFastOutsideTheirChecks : Prop :=
  ∀ (s : State) (e : Report), Between s →
    ((level s.ctrl .nCE = true ∧ e = .protocolPrecondition .LCMD .nCE) ∨
      (level s.ctrl .nCE = false ∧ level s.ctrl .nRE = false ∧ e = .protocolPrecondition .LCMD .nRE) ∨
      (level s.ctrl .nCE = false ∧ level s.ctrl .nRE = true ∧ s.dir ≠ .drive ∧ e = .directionViolation .data)) →
    (∀ i : Instr, (i = .readid ∨ (∃ page, i = .readpage page) ∨ i = .readstatus ∨
        ∃ start count, i = .dump start count ∧ 0 < count.toNat) →
      ∃ b, (i ≠ .readid → b = false) ∧
        ∃ s₁, exec i s = .next s₁ ∧ ∃ n, execTimes n i s₁ = .next (ended i e [] b s)) ∧
    (∀ i : Instr, ((∃ block, i = .erase block) ∨
        (∃ page length, i = .program page length ∧ length.toNat = s.cfg.pageSize ∧ PayloadPresent i s) ∨
        ∃ start count, i = .eraserange start count ∧ 0 < count.toNat) →
      ∃ s₁, exec i s = .next s₁ ∧ ∃ n, execTimes n i s₁ = .next (ended i e [] false
        { s with
          ctrl := withLevel s.ctrl .nWP false
          physCtrl := some (withLevel s.ctrl .nWP false)
          trace := s.trace ++ [.writeCtrl (withLevel s.ctrl .nWP true), .writeCtrl (withLevel s.ctrl .nWP false)] })) ∧
    (∀ (start count : Field24) (m : Nat), m < count.toNat → PayloadPresent (.programrange start count) s →
      Env.serves (m + 1) s.env → (∀ k < m, skipRecord (sourceRecord s k) = true) → skipRecord (sourceRecord s m) = false →
      ∃ s₁, exec (.programrange start count) s = .next s₁ ∧ ∃ n, execTimes n (.programrange start count) s₁ = .next
      (ended (.programrange start count) e [] false
        { s with
          ctrl := withLevel s.ctrl .nWP false
          physCtrl := some (withLevel s.ctrl .nWP false)
          env := Env.afterTransfers (m + 1) s.env
          trace := s.trace ++ [.writeCtrl (withLevel s.ctrl .nWP true), .writeCtrl (withLevel s.ctrl .nWP false)] }))

/-- R117, on every path that produces a response: every outcome of the wait, of the identifier and of the status. -/
def Obligations.ChipOperationsFromIdleEndIdle : Prop :=
  ∀ (i : Instr) (s t : State), Idle s → Between s →
    (i = .readid ∨ (∃ page, i = .readpage page) ∨ (∃ block, i = .erase block) ∨
      (∃ page length, i = .program page length ∧ length.toNat = s.cfg.pageSize ∧ PayloadPresent i s) ∨ i = .readstatus) →
    RespondsAt i s t →
    (∃ r, t.resp = some r ∧ (∀ op sig, r.report ≠ .protocolPrecondition op sig) ∧ ∀ bus, r.report ≠ .directionViolation bus) ∧
    Idle t ∧ level t.ctrl .nWP = if opensBracket i then false else level s.ctrl .nWP

/-- R116's table, on the events each completing operation adds to the trace. -/
def Obligations.ChipOperationEventCounts : Prop :=
  ∀ s : State, Idle s → Between s → NoDelays s.cfg →
    let P := s.cfg.pageSize
    let adds := fun (i : Instr) (cw dw dr cr dc total : Nat) =>
      ∃ s₁, exec i s = .next s₁ ∧ ∃ t new, RespondsAt i s t ∧ t.trace = s.trace ++ new ∧
        controlWrites new = cw ∧ dataWrites new = dw ∧ dataReads new = dr ∧ controlReads new = cr ∧
        directionCalls new = dc ∧ new.length = total
    adds .readid 18 2 5 0 2 27 ∧
    (∀ (page : Field24) (v : Visit), WaitEnds s.cfg v.busy v.last → v.bytes.length = P →
      Env.upcoming v.answers.length s.env = v.answers →
      adds (.readpage page) (20 + 2 * P) 7 P (v.busy.length + 1) 2 (29 + 3 * P + (v.busy.length + 1))) ∧
    (∀ (block : Field24) (v : StatusVisit), WaitEnds s.cfg v.busy v.last →
      Env.upcoming v.answers.length s.env = v.answers →
      adds (.erase block) 24 6 1 (v.busy.length + 1) 2 (33 + (v.busy.length + 1))) ∧
    (∀ (page length : Field24) (v : StatusVisit), length.toNat = P → PayloadPresent (.program page length) s →
      WaitEnds s.cfg v.busy v.last → Env.upcoming v.answers.length s.env = v.answers →
      adds (.program page length) (28 + 2 * P) (8 + P) 1 (v.busy.length + 1) 2 (39 + 3 * P + (v.busy.length + 1))) ∧
    adds .readstatus 6 1 1 0 2 10

/-- R119 with R118, from the idle state, for every count, 0 included. -/
def Obligations.DumpCompletes : Prop :=
  ∀ (start count : Field24) (visits : List Visit) (s : State), Idle s → Between s → visits.length = count.toNat →
    (∀ v ∈ visits, WaitEnds s.cfg v.busy v.last ∧ v.bytes.length = s.cfg.pageSize) →
    Env.upcoming (visits.flatMap Visit.answers).length s.env = visits.flatMap Visit.answers →
    Env.serves count.toNat s.env →
    ∃ s₁, exec (.dump start count) s = .next s₁ ∧ ∃ n, execTimes n (.dump start count) s₁ = .next
      (ended (.dump start count) .ok (visits.flatMap Visit.bytes) false
        { s with
          data := if count.toNat = 0 then s.data else s.cfg.cmdRead1Confirm
          physData := if count.toNat = 0 then s.physData else some s.cfg.cmdRead1Confirm
          env := Env.afterTransfers count.toNat (Env.after (visits.flatMap Visit.answers).length s.env)
          trace := s.trace ++ dumpEvents s.cfg s.ctrl start.toNat visits
          sink := s.sink ++ dumpRecords 0 visits })

/-- R120 with R118 and R121, from the idle state, for every count, 0 included. -/
def Obligations.ProgramrangeCompletes : Prop :=
  ∀ (start count : Field24) (visits : List StatusVisit) (s : State), Idle s → Between s →
    PayloadPresent (.programrange start count) s → Env.serves count.toNat s.env →
    let pages := pagesToProgram start.toNat (sourceRecords s count.toNat)
    visits.length = pages.length → (∀ v ∈ visits, v.Succeeds s.cfg) →
    Env.upcoming (visits.flatMap StatusVisit.answers).length s.env = visits.flatMap StatusVisit.answers →
    ∃ s₁, exec (.programrange start count) s = .next s₁ ∧ ∃ n, execTimes n (.programrange start count) s₁ = .next
      (ended (.programrange start count) .ok [] false
        { s with
          ctrl := rangeCtrl s.ctrl visits.length
          data := if visits.length = 0 then s.data else s.cfg.cmdReadStatus
          physCtrl := some (rangeCtrl s.ctrl visits.length)
          physData := some (if visits.length = 0 then s.data else s.cfg.cmdReadStatus)
          env := Env.afterTransfers count.toNat (Env.after (visits.flatMap StatusVisit.answers).length s.env)
          trace := s.trace ++ programRangeEvents s.cfg s.ctrl (pages.zip visits) })

/-- R122 with R118, from the idle state, for every count, 0 included. -/
def Obligations.EraserangeCompletes : Prop :=
  ∀ (start count : Field24) (visits : List StatusVisit) (s : State), Idle s → Between s → visits.length = count.toNat →
    (∀ v ∈ visits, v.Succeeds s.cfg) →
    Env.upcoming (visits.flatMap StatusVisit.answers).length s.env = visits.flatMap StatusVisit.answers →
    ∃ s₁, exec (.eraserange start count) s = .next s₁ ∧ ∃ n, execTimes n (.eraserange start count) s₁ = .next
      (ended (.eraserange start count) .ok [] false
        { s with
          ctrl := rangeCtrl s.ctrl count.toNat
          data := if count.toNat = 0 then s.data else s.cfg.cmdReadStatus
          physCtrl := some (rangeCtrl s.ctrl count.toNat)
          physData := some (if count.toNat = 0 then s.data else s.cfg.cmdReadStatus)
          env := Env.after (visits.flatMap StatusVisit.answers).length s.env
          trace := s.trace ++ eraseRangeEvents s.cfg s.ctrl start.toNat visits })

/-- R123 on the two ranges whose elements can fail: the failing element ends in its bracket, no later element runs, and the error names the block or page. -/
def Obligations.RangeAbortsAtTheFirstFailure : Prop :=
  ∀ s : State, Idle s → Between s →
    (∀ (start count : Field24) (good : List StatusVisit) (bad : StatusVisit), good.length < count.toNat →
      (∀ v ∈ good, v.Succeeds s.cfg) → WaitEnds s.cfg bad.busy bad.last → bad.status.getLsbD 0 = true →
      let answers := (good ++ [bad]).flatMap StatusVisit.answers
      Env.upcoming answers.length s.env = answers →
      ∃ s₁, exec (.eraserange start count) s = .next s₁ ∧ ∃ n, execTimes n (.eraserange start count) s₁ = .next
        (ended (.eraserange start count) (.eraseFailed (start.toNat + good.length) bad.status) [] false
          { s with
            ctrl := withLevel s.ctrl .nWP false
            data := s.cfg.cmdReadStatus
            physCtrl := some (withLevel s.ctrl .nWP false)
            physData := some s.cfg.cmdReadStatus
            env := Env.after answers.length s.env
            trace := s.trace ++ eraseRangeEvents s.cfg s.ctrl start.toNat (good ++ [bad]) })) ∧
    (∀ (start count : Field24) (m : Nat) (good : List StatusVisit) (bad : StatusVisit), m < count.toNat →
      PayloadPresent (.programrange start count) s → Env.serves (m + 1) s.env →
      skipRecord (sourceRecord s m) = false →
      let before := pagesToProgram start.toNat (sourceRecords s m)
      good.length = before.length → (∀ v ∈ good, v.Succeeds s.cfg) →
      WaitEnds s.cfg bad.busy bad.last → bad.status.getLsbD 0 = true →
      let answers := (good ++ [bad]).flatMap StatusVisit.answers
      Env.upcoming answers.length s.env = answers →
      ∃ s₁, exec (.programrange start count) s = .next s₁ ∧ ∃ n, execTimes n (.programrange start count) s₁ = .next
        (ended (.programrange start count) (.programFailed (start.toNat + m) bad.status) [] false
          { s with
            ctrl := withLevel s.ctrl .nWP false
            data := s.cfg.cmdReadStatus
            physCtrl := some (withLevel s.ctrl .nWP false)
            physData := some s.cfg.cmdReadStatus
            env := Env.afterTransfers (m + 1) (Env.after answers.length s.env)
            trace := s.trace ++ programRangeEvents s.cfg s.ctrl
              ((before ++ [(start.toNat + m, sourceRecord s m)]).zip (good ++ [bad])) }))

/-- R119's and R120's `StorageIO`; that the source's failure is raised where the record is taken is the model's choice (entry 4). -/
def Obligations.StorageFailureEndsARange : Prop :=
  ∀ s : State, Idle s → Between s →
    (∀ (start count : Field24) (m : Nat) (visits : List Visit), m < count.toNat → visits.length = m + 1 →
      (∀ v ∈ visits, WaitEnds s.cfg v.busy v.last ∧ v.bytes.length = s.cfg.pageSize) →
      Env.upcoming (visits.flatMap Visit.answers).length s.env = visits.flatMap Visit.answers →
      Env.serves m s.env → Env.storageAnswer (Env.afterTransfers m s.env) = false →
      ∃ s₁, exec (.dump start count) s = .next s₁ ∧ ∃ n, execTimes n (.dump start count) s₁ = .next
        (ended (.dump start count) (.storageIO m) (visits.flatMap Visit.bytes) false
          { s with
            data := s.cfg.cmdRead1Confirm
            physData := some s.cfg.cmdRead1Confirm
            env := Env.afterTransfers (m + 1) (Env.after (visits.flatMap Visit.answers).length s.env)
            trace := s.trace ++ dumpEvents s.cfg s.ctrl start.toNat visits
            sink := s.sink ++ dumpRecords 0 (visits.take m) })) ∧
    (∀ (start count : Field24) (m : Nat) (good : List StatusVisit), m < count.toNat →
      PayloadPresent (.programrange start count) s → Env.serves m s.env →
      Env.storageAnswer (Env.afterTransfers m s.env) = false →
      let before := pagesToProgram start.toNat (sourceRecords s m)
      good.length = before.length → (∀ v ∈ good, v.Succeeds s.cfg) →
      Env.upcoming (good.flatMap StatusVisit.answers).length s.env = good.flatMap StatusVisit.answers →
      ∃ s₁, exec (.programrange start count) s = .next s₁ ∧ ∃ n, execTimes n (.programrange start count) s₁ = .next
        (ended (.programrange start count) (.storageIO m) [] false
          { s with
            ctrl := rangeCtrl s.ctrl good.length
            data := if good.length = 0 then s.data else s.cfg.cmdReadStatus
            physCtrl := some (rangeCtrl s.ctrl good.length)
            physData := some (if good.length = 0 then s.data else s.cfg.cmdReadStatus)
            env := Env.afterTransfers (m + 1) (Env.after (good.flatMap StatusVisit.answers).length s.env)
            trace := s.trace ++ programRangeEvents s.cfg s.ctrl (before.zip good) }))

/-- R121: the test, and that exactly the other records are programmed, once each, in ascending order. -/
def Obligations.SkipTestCoversTheWholeRecord : Prop :=
  (∀ record : List Byte, skipRecord record = true ↔
    (∀ k (h : k < record.length), record[k] = 0xFF) ∨ (∀ k (h : k < record.length), record[k] = 0x00)) ∧
  (∀ (page : Nat) (records : List (List Byte)),
    (pagesToProgram page records).Pairwise (fun x y => x.1 < y.1) ∧
    ∀ p record, (p, record) ∈ pagesToProgram page records ↔
      ∃ k, records[k]? = some record ∧ p = page + k ∧ skipRecord record = false)

/-- R6 and R55: one adapter call at most in a step, in program order. -/
def Obligations.StepMakesAtMostOneAdapterCall : Prop :=
  ∀ s t : State, step s = .next t → t.trace = s.trace ∨ ∃ e, t.trace = s.trace ++ [e]

/-- R38 and R61: no operation writes the configuration or the request stream. -/
def Obligations.ConfigurationAndStreamAreNeverWritten : Prop :=
  ∀ s t : State, step s = .next t →
    t.cfg = s.cfg ∧ t.stream.length = s.stream.length ∧ t.sessionOpen = s.sessionOpen ∧
      ∀ a, Memory.read t.stream.mem a = Memory.read s.stream.mem a

/-- R35: `rp` counts the completed requests, whatever their codes, and nothing else sets it. -/
def Obligations.RequestPointerCountsResponses : Prop :=
  State.reset.rp = 0 ∧
  ∀ s t : State, step s = .next t →
    (t.rp = s.rp ∧ t.resp = s.resp ∧ t.seq ≠ none) ∨ (t.rp = s.rp + 1 ∧ t.seq = none ∧ t.resp ≠ none)

/-- R23, R24, R25, item 4 of R114, and INIT's changes (R90). For nWP the invariant is a premise: it rules out states in which a bracket
is open outside an erase or program. -/
def Obligations.ControlSignalWriters : Prop :=
  ∀ (i : Instr) (s t : State), exec i s = .next t →
    (level t.ctrl .AUX ≠ level s.ctrl .AUX → ∃ value, i = .setpin .ctrl 7 value) ∧
    (level t.ctrl .nCE ≠ level s.ctrl .nCE → i = .init ∨ ∃ value, i = .setpin .ctrl 2 value) ∧
    (level t.ctrl .CLE ≠ level s.ctrl .CLE → i = .init ∨ (∃ value, i = .setpin .ctrl 0 value) ∨ runsBusOp .LCMD i = true) ∧
    (level t.ctrl .ALE ≠ level s.ctrl .ALE → i = .init ∨ (∃ value, i = .setpin .ctrl 1 value) ∨ runsBusOp .LADDR i = true) ∧
    (level t.ctrl .nWE ≠ level s.ctrl .nWE → i = .init ∨ (∃ value, i = .setpin .ctrl 3 value) ∨
      runsBusOp .LCMD i = true ∨ runsBusOp .LADDR i = true ∨ runsBusOp .LDIN i = true) ∧
    (level t.ctrl .nRE ≠ level s.ctrl .nRE → i = .init ∨ (∃ value, i = .setpin .ctrl 4 value) ∨ runsBusOp .LOUT i = true) ∧
    (level t.ctrl .RDY = level s.ctrl .RDY) ∧
    (MachineInv s → level t.ctrl .nWP ≠ level s.ctrl .nWP →
      i = .init ∨ opensBracket i = true ∨ ∃ value, i = .setpin .ctrl 5 value)

/-- R26 and R52: a read never writes the mirror; R28: `dir` is written only by SETDIR, INIT and LatchRegisterOut. -/
def Obligations.OnlyDataOperationsWriteTheDataMirror : Prop :=
  (∀ (i : Instr) (s t : State),
    ((∃ bus, i = .flush bus) ∨ (∃ bus, i = .sample bus) ∨ (∃ d, i = .setdir d) ∨ (∃ m, i = .delay m) ∨
      (∃ count, i = .lout count) ∨ i = .waitrdy ∨ (∃ page column, i = .addrcyc page column) ∨
      ∃ pin value, i = .setpin .ctrl pin value) →
    exec i s = .next t → t.data = s.data) ∧
  (∀ (i : Instr) (s t : State),
    ((∃ bus pin value, i = .setpin bus pin value) ∨ (∃ b, i = .setdata b) ∨ (∃ bus, i = .flush bus) ∨
      (∃ bus, i = .sample bus) ∨ (∃ m, i = .delay m) ∨ (∃ b, i = .lcmd b) ∨ (∃ len, i = .laddr len) ∨
      (∃ len, i = .ldin len) ∨ i = .waitrdy ∨ ∃ page column, i = .addrcyc page column) →
    exec i s = .next t → t.dir = s.dir)

/-- R22 and R62: checks and writes read the mirrors, never the lines. -/
def Obligations.PhysicalLinesAreNeverRead : Prop :=
  ∀ (i : Instr) (s t : State) (c d : Option Byte), exec i s = .next t →
    ∃ c' d', exec i { s with physCtrl := c, physData := d } = .next { t with physCtrl := c', physData := d' }

/-- R79 with the codes of R125, and the reading of the response (R34; entry 20). (A longer result has a free length field, entry 14.) -/
def Obligations.BinaryResponseLayout : Prop :=
  (∀ r : Response, r.bytes.length < 2 ^ 24 →
    ∃ flag l0 l1 l2 : Byte, r.encode = [r.report.code, flag, l0, l1, l2] ++ r.bytes ∧
      flag = (if r.idMatch then 1 else 0) ∧ r.bytes.length = l0.toNat + 256 * l1.toNat + 65536 * l2.toNat) ∧
  (Report.ok.code = 0x00 ∧ (∀ op sig, (Report.protocolPrecondition op sig).code = 0x01) ∧
    Report.identityMismatch.code = 0x02 ∧ (∀ b st, (Report.eraseFailed b st).code = 0x03) ∧
    (∀ p st, (Report.programFailed p st).code = 0x04) ∧ (∀ k, (Report.timeout k).code = 0x05) ∧
    (∀ k, (Report.storageIO k).code = 0x06) ∧ (∀ op, (Report.illegalRequest op).code = 0x10) ∧
    (∀ k, (Report.lengthMismatch k).code = 0x11) ∧ ∀ bus, (Report.directionViolation bus).code = 0x12) ∧
  (∀ (s : State) (r : Response), s.resp = some r → readResponse s = .ok r) ∧
  (∀ s : State, MachineInv s → (readResponse s = .error .noResponse ↔ s.rp = 0))

/-- R18, R46 and R68: payload offset 0 is the byte after the descriptor. -/
def Obligations.PayloadIsReadFromTheStream : Prop :=
  ∀ (s : State) (a n : Nat), s.pos + 8 + a + n ≤ s.stream.length →
    (memRead s a n).length = n ∧
    ∀ k < n, (memRead s a n)[k]? = some (Memory.read s.stream.mem (s.pos + 8 + a + k))

/-- R114 with R129 item 2: on every path that produces a response the bracket is closed, also from a state that is not idle. PROGRAMRANGE
makes an adapter call only in the bracket of a record (R120, R121). -/
def Obligations.BracketIsClosedAtEveryResponse : Prop :=
  ∀ (i : Instr) (s t : State), Between s →
    ((∃ block, i = .erase block) ∨
      (∃ page length, i = .program page length ∧ length.toNat = s.cfg.pageSize ∧ PayloadPresent i s) ∨
      (∃ start count, i = .eraserange start count ∧ 0 < count.toNat) ∨
      ∃ start count, i = .programrange start count ∧ t.trace ≠ s.trace) →
    RespondsAt i s t → ProtectionOn t ∧ t.physCtrl = some t.ctrl

/-- R129, as the shared operation that raises an error does it, for every error and every state. That the raise, the restore and the
response are three steps is the model's choice (entry 7). The `id_match` of a READID that made no comparison is left open (entry 22). -/
def Obligations.AbortedRequestKeepsItsBytes : Prop :=
  ∀ (e : Report) (q : Seq) (s : State), s.sessionOpen = true →
    let r := raiseError e q s
    (r.trace = s.trace ∧ r.resp = s.resp ∧ r.rp = s.rp ∧ r.ctrl = s.ctrl ∧ r.data = s.data ∧ r.dir = s.dir ∧
      r.physCtrl = s.physCtrl ∧ r.physData = s.physData) ∧
    ∃ b, (q.op ≠ .readid → b = false) ∧ (∀ found, q.op = .readid → q.idMatch = some found → b = found) ∧
    (q.wpOpen = false → exec q.op r = .next (ended q.op e q.buf b s)) ∧
    (q.wpOpen = true → ∃ s₁, exec q.op r = .next s₁ ∧ s₁.resp = s.resp ∧ s₁.rp = s.rp ∧
      s₁.trace = s.trace ++ [.writeCtrl (withLevel s.ctrl .nWP false)] ∧
      exec q.op s₁ = .next (ended q.op e q.buf b
        { s with
          ctrl := withLevel s.ctrl .nWP false
          physCtrl := some (withLevel s.ctrl .nWP false)
          trace := s.trace ++ [.writeCtrl (withLevel s.ctrl .nWP false)] }))
end

