-- ==== Sys2Proof/Laws/State.lean ====
section
/-! SUPPORT. One lemma for each field of the state under each named operation, so that no later proof unfolds a record update. -/

namespace Sys2Proof.Machine

@[simp] theorem setSignal_cfg (sig : Signal) (b : Bool) (s : State) : (setSignal sig b s).cfg = s.cfg := rfl
@[simp] theorem setSignal_stream (sig : Signal) (b : Bool) (s : State) : (setSignal sig b s).stream = s.stream := rfl
@[simp] theorem setSignal_pos (sig : Signal) (b : Bool) (s : State) : (setSignal sig b s).pos = s.pos := rfl
@[simp] theorem setSignal_ctrl (sig : Signal) (b : Bool) (s : State) : (setSignal sig b s).ctrl = withLevel s.ctrl sig b := rfl
@[simp] theorem setSignal_data (sig : Signal) (b : Bool) (s : State) : (setSignal sig b s).data = s.data := rfl
@[simp] theorem setSignal_dir (sig : Signal) (b : Bool) (s : State) : (setSignal sig b s).dir = s.dir := rfl
@[simp] theorem setSignal_physCtrl (sig : Signal) (b : Bool) (s : State) : (setSignal sig b s).physCtrl = s.physCtrl := rfl
@[simp] theorem setSignal_physData (sig : Signal) (b : Bool) (s : State) : (setSignal sig b s).physData = s.physData := rfl
@[simp] theorem setSignal_seq (sig : Signal) (b : Bool) (s : State) : (setSignal sig b s).seq = s.seq := rfl
@[simp] theorem setSignal_resp (sig : Signal) (b : Bool) (s : State) : (setSignal sig b s).resp = s.resp := rfl
@[simp] theorem setSignal_rp (sig : Signal) (b : Bool) (s : State) : (setSignal sig b s).rp = s.rp := rfl
@[simp] theorem setSignal_env (sig : Signal) (b : Bool) (s : State) : (setSignal sig b s).env = s.env := rfl
@[simp] theorem setSignal_trace (sig : Signal) (b : Bool) (s : State) : (setSignal sig b s).trace = s.trace := rfl
@[simp] theorem setSignal_sink (sig : Signal) (b : Bool) (s : State) : (setSignal sig b s).sink = s.sink := rfl
@[simp] theorem setSignal_sessionOpen (sig : Signal) (b : Bool) (s : State) : (setSignal sig b s).sessionOpen = s.sessionOpen := rfl

@[simp] theorem setSignals_cfg (changes : List (Signal × Bool)) (s : State) : (setSignals changes s).cfg = s.cfg := rfl
@[simp] theorem setSignals_stream (changes : List (Signal × Bool)) (s : State) : (setSignals changes s).stream = s.stream := rfl
@[simp] theorem setSignals_pos (changes : List (Signal × Bool)) (s : State) : (setSignals changes s).pos = s.pos := rfl
@[simp] theorem setSignals_ctrl (changes : List (Signal × Bool)) (s : State) : (setSignals changes s).ctrl = withLevels s.ctrl changes := rfl
@[simp] theorem setSignals_data (changes : List (Signal × Bool)) (s : State) : (setSignals changes s).data = s.data := rfl
@[simp] theorem setSignals_dir (changes : List (Signal × Bool)) (s : State) : (setSignals changes s).dir = s.dir := rfl
@[simp] theorem setSignals_physCtrl (changes : List (Signal × Bool)) (s : State) : (setSignals changes s).physCtrl = s.physCtrl := rfl
@[simp] theorem setSignals_physData (changes : List (Signal × Bool)) (s : State) : (setSignals changes s).physData = s.physData := rfl
@[simp] theorem setSignals_seq (changes : List (Signal × Bool)) (s : State) : (setSignals changes s).seq = s.seq := rfl
@[simp] theorem setSignals_resp (changes : List (Signal × Bool)) (s : State) : (setSignals changes s).resp = s.resp := rfl
@[simp] theorem setSignals_rp (changes : List (Signal × Bool)) (s : State) : (setSignals changes s).rp = s.rp := rfl
@[simp] theorem setSignals_env (changes : List (Signal × Bool)) (s : State) : (setSignals changes s).env = s.env := rfl
@[simp] theorem setSignals_trace (changes : List (Signal × Bool)) (s : State) : (setSignals changes s).trace = s.trace := rfl
@[simp] theorem setSignals_sink (changes : List (Signal × Bool)) (s : State) : (setSignals changes s).sink = s.sink := rfl
@[simp] theorem setSignals_sessionOpen (changes : List (Signal × Bool)) (s : State) : (setSignals changes s).sessionOpen = s.sessionOpen := rfl

@[simp] theorem setData_cfg (b : Byte) (s : State) : (setData b s).cfg = s.cfg := rfl
@[simp] theorem setData_stream (b : Byte) (s : State) : (setData b s).stream = s.stream := rfl
@[simp] theorem setData_pos (b : Byte) (s : State) : (setData b s).pos = s.pos := rfl
@[simp] theorem setData_ctrl (b : Byte) (s : State) : (setData b s).ctrl = s.ctrl := rfl
@[simp] theorem setData_data (b : Byte) (s : State) : (setData b s).data = b := rfl
@[simp] theorem setData_dir (b : Byte) (s : State) : (setData b s).dir = s.dir := rfl
@[simp] theorem setData_physCtrl (b : Byte) (s : State) : (setData b s).physCtrl = s.physCtrl := rfl
@[simp] theorem setData_physData (b : Byte) (s : State) : (setData b s).physData = s.physData := rfl
@[simp] theorem setData_seq (b : Byte) (s : State) : (setData b s).seq = s.seq := rfl
@[simp] theorem setData_resp (b : Byte) (s : State) : (setData b s).resp = s.resp := rfl
@[simp] theorem setData_rp (b : Byte) (s : State) : (setData b s).rp = s.rp := rfl
@[simp] theorem setData_env (b : Byte) (s : State) : (setData b s).env = s.env := rfl
@[simp] theorem setData_trace (b : Byte) (s : State) : (setData b s).trace = s.trace := rfl
@[simp] theorem setData_sink (b : Byte) (s : State) : (setData b s).sink = s.sink := rfl
@[simp] theorem setData_sessionOpen (b : Byte) (s : State) : (setData b s).sessionOpen = s.sessionOpen := rfl

@[simp] theorem flushCtrl_cfg (s : State) : (flushCtrl s).cfg = s.cfg := rfl
@[simp] theorem flushCtrl_stream (s : State) : (flushCtrl s).stream = s.stream := rfl
@[simp] theorem flushCtrl_pos (s : State) : (flushCtrl s).pos = s.pos := rfl
@[simp] theorem flushCtrl_ctrl (s : State) : (flushCtrl s).ctrl = s.ctrl := rfl
@[simp] theorem flushCtrl_data (s : State) : (flushCtrl s).data = s.data := rfl
@[simp] theorem flushCtrl_dir (s : State) : (flushCtrl s).dir = s.dir := rfl
@[simp] theorem flushCtrl_physCtrl (s : State) : (flushCtrl s).physCtrl = some s.ctrl := rfl
@[simp] theorem flushCtrl_physData (s : State) : (flushCtrl s).physData = s.physData := rfl
@[simp] theorem flushCtrl_seq (s : State) : (flushCtrl s).seq = s.seq := rfl
@[simp] theorem flushCtrl_resp (s : State) : (flushCtrl s).resp = s.resp := rfl
@[simp] theorem flushCtrl_rp (s : State) : (flushCtrl s).rp = s.rp := rfl
@[simp] theorem flushCtrl_env (s : State) : (flushCtrl s).env = s.env := rfl
@[simp] theorem flushCtrl_trace (s : State) : (flushCtrl s).trace = s.trace ++ [.writeCtrl s.ctrl] := rfl
@[simp] theorem flushCtrl_sink (s : State) : (flushCtrl s).sink = s.sink := rfl
@[simp] theorem flushCtrl_sessionOpen (s : State) : (flushCtrl s).sessionOpen = s.sessionOpen := rfl

@[simp] theorem flushData_cfg (s : State) : (flushData s).cfg = s.cfg := rfl
@[simp] theorem flushData_stream (s : State) : (flushData s).stream = s.stream := rfl
@[simp] theorem flushData_pos (s : State) : (flushData s).pos = s.pos := rfl
@[simp] theorem flushData_ctrl (s : State) : (flushData s).ctrl = s.ctrl := rfl
@[simp] theorem flushData_data (s : State) : (flushData s).data = s.data := rfl
@[simp] theorem flushData_dir (s : State) : (flushData s).dir = s.dir := rfl
@[simp] theorem flushData_physCtrl (s : State) : (flushData s).physCtrl = s.physCtrl := rfl
@[simp] theorem flushData_physData (s : State) : (flushData s).physData = some s.data := rfl
@[simp] theorem flushData_seq (s : State) : (flushData s).seq = s.seq := rfl
@[simp] theorem flushData_resp (s : State) : (flushData s).resp = s.resp := rfl
@[simp] theorem flushData_rp (s : State) : (flushData s).rp = s.rp := rfl
@[simp] theorem flushData_env (s : State) : (flushData s).env = s.env := rfl
@[simp] theorem flushData_trace (s : State) : (flushData s).trace = s.trace ++ [.writeData s.data] := rfl
@[simp] theorem flushData_sink (s : State) : (flushData s).sink = s.sink := rfl
@[simp] theorem flushData_sessionOpen (s : State) : (flushData s).sessionOpen = s.sessionOpen := rfl

@[simp] theorem setDir_cfg (d : DirSel) (s : State) : (setDir d s).cfg = s.cfg := rfl
@[simp] theorem setDir_stream (d : DirSel) (s : State) : (setDir d s).stream = s.stream := rfl
@[simp] theorem setDir_pos (d : DirSel) (s : State) : (setDir d s).pos = s.pos := rfl
@[simp] theorem setDir_ctrl (d : DirSel) (s : State) : (setDir d s).ctrl = s.ctrl := rfl
@[simp] theorem setDir_data (d : DirSel) (s : State) : (setDir d s).data = s.data := rfl
@[simp] theorem setDir_dir (d : DirSel) (s : State) : (setDir d s).dir = DirSel.toDir d := rfl
@[simp] theorem setDir_physCtrl (d : DirSel) (s : State) : (setDir d s).physCtrl = s.physCtrl := rfl
@[simp] theorem setDir_physData (d : DirSel) (s : State) : (setDir d s).physData = s.physData := rfl
@[simp] theorem setDir_seq (d : DirSel) (s : State) : (setDir d s).seq = s.seq := rfl
@[simp] theorem setDir_resp (d : DirSel) (s : State) : (setDir d s).resp = s.resp := rfl
@[simp] theorem setDir_rp (d : DirSel) (s : State) : (setDir d s).rp = s.rp := rfl
@[simp] theorem setDir_env (d : DirSel) (s : State) : (setDir d s).env = s.env := rfl
@[simp] theorem setDir_trace (d : DirSel) (s : State) : (setDir d s).trace = s.trace ++ [.setDir d] := rfl
@[simp] theorem setDir_sink (d : DirSel) (s : State) : (setDir d s).sink = s.sink := rfl
@[simp] theorem setDir_sessionOpen (d : DirSel) (s : State) : (setDir d s).sessionOpen = s.sessionOpen := rfl

@[simp] theorem adapterRead_cfg (bus : Bus) (s : State) : (adapterRead bus s).cfg = s.cfg := rfl
@[simp] theorem adapterRead_stream (bus : Bus) (s : State) : (adapterRead bus s).stream = s.stream := rfl
@[simp] theorem adapterRead_pos (bus : Bus) (s : State) : (adapterRead bus s).pos = s.pos := rfl
@[simp] theorem adapterRead_ctrl (bus : Bus) (s : State) : (adapterRead bus s).ctrl = s.ctrl := rfl
@[simp] theorem adapterRead_data (bus : Bus) (s : State) : (adapterRead bus s).data = s.data := rfl
@[simp] theorem adapterRead_dir (bus : Bus) (s : State) : (adapterRead bus s).dir = s.dir := rfl
@[simp] theorem adapterRead_physCtrl (bus : Bus) (s : State) : (adapterRead bus s).physCtrl = s.physCtrl := rfl
@[simp] theorem adapterRead_physData (bus : Bus) (s : State) : (adapterRead bus s).physData = s.physData := rfl
@[simp] theorem adapterRead_seq (bus : Bus) (s : State) : (adapterRead bus s).seq = s.seq := rfl
@[simp] theorem adapterRead_resp (bus : Bus) (s : State) : (adapterRead bus s).resp = s.resp := rfl
@[simp] theorem adapterRead_rp (bus : Bus) (s : State) : (adapterRead bus s).rp = s.rp := rfl
@[simp] theorem adapterRead_env (bus : Bus) (s : State) : (adapterRead bus s).env = Env.afterSample s.env := rfl
@[simp] theorem adapterRead_trace (bus : Bus) (s : State) : (adapterRead bus s).trace = s.trace ++ [readEvent bus (Env.sample s.env)] := rfl
@[simp] theorem adapterRead_sink (bus : Bus) (s : State) : (adapterRead bus s).sink = s.sink := rfl
@[simp] theorem adapterRead_sessionOpen (bus : Bus) (s : State) : (adapterRead bus s).sessionOpen = s.sessionOpen := rfl

/-- R79: `id_match` is 0 for every operation but READID. -/
theorem responseIdMatch_other {op : Byte} (h : op ≠ Mnemonic.READID.opcode) (n : Nat) (found : Option Bool) :
    responseIdMatch op n found = false := if_neg h

@[simp] theorem responseIdMatch_of_ne {i : Instr} (h : i ≠ .readid) (n : Nat) (found : Option Bool) :
    responseIdMatch i.opcode n found = false := by
  refine responseIdMatch_other ?_ n found
  cases i <;> first | exact absurd rfl h | (simp only [Instr.opcode, Instr.mnemonic]; decide)

/-- R109: READID answers what its comparison found. -/
@[simp] theorem responseIdMatch_found (n : Nat) (b : Bool) : responseIdMatch Instr.readid.opcode n (some b) = b := rfl

@[simp] theorem respond_cfg (q : Seq) (r : Report) (s : State) : (respond q r s).cfg = s.cfg := rfl
@[simp] theorem respond_stream (q : Seq) (r : Report) (s : State) : (respond q r s).stream = s.stream := rfl
@[simp] theorem respond_pos (q : Seq) (r : Report) (s : State) : (respond q r s).pos = s.pos + 8 + q.op.payloadLength s.cfg.pageSize := rfl
@[simp] theorem respond_ctrl (q : Seq) (r : Report) (s : State) : (respond q r s).ctrl = s.ctrl := rfl
@[simp] theorem respond_data (q : Seq) (r : Report) (s : State) : (respond q r s).data = s.data := rfl
@[simp] theorem respond_dir (q : Seq) (r : Report) (s : State) : (respond q r s).dir = s.dir := rfl
@[simp] theorem respond_physCtrl (q : Seq) (r : Report) (s : State) : (respond q r s).physCtrl = s.physCtrl := rfl
@[simp] theorem respond_physData (q : Seq) (r : Report) (s : State) : (respond q r s).physData = s.physData := rfl
@[simp] theorem respond_seq (q : Seq) (r : Report) (s : State) : (respond q r s).seq = none := rfl
@[simp] theorem respond_resp (q : Seq) (r : Report) (s : State) : (respond q r s).resp = some { report := r, bytes := q.buf, idMatch := responseIdMatch q.op.opcode s.rp q.idMatch } := rfl
@[simp] theorem respond_rp (q : Seq) (r : Report) (s : State) : (respond q r s).rp = s.rp + 1 := rfl
@[simp] theorem respond_env (q : Seq) (r : Report) (s : State) : (respond q r s).env = s.env := rfl
@[simp] theorem respond_trace (q : Seq) (r : Report) (s : State) : (respond q r s).trace = s.trace := rfl
@[simp] theorem respond_sink (q : Seq) (r : Report) (s : State) : (respond q r s).sink = s.sink := rfl
@[simp] theorem respond_sessionOpen (q : Seq) (r : Report) (s : State) : (respond q r s).sessionOpen = s.sessionOpen := rfl

@[simp] theorem refuseDescriptor_cfg (w : Descriptor) (s : State) : (refuseDescriptor w s).cfg = s.cfg := rfl
@[simp] theorem refuseDescriptor_stream (w : Descriptor) (s : State) : (refuseDescriptor w s).stream = s.stream := rfl
@[simp] theorem refuseDescriptor_pos (w : Descriptor) (s : State) : (refuseDescriptor w s).pos = s.pos + 8 + payloadLength s.cfg.pageSize w := rfl
@[simp] theorem refuseDescriptor_ctrl (w : Descriptor) (s : State) : (refuseDescriptor w s).ctrl = s.ctrl := rfl
@[simp] theorem refuseDescriptor_data (w : Descriptor) (s : State) : (refuseDescriptor w s).data = s.data := rfl
@[simp] theorem refuseDescriptor_dir (w : Descriptor) (s : State) : (refuseDescriptor w s).dir = s.dir := rfl
@[simp] theorem refuseDescriptor_physCtrl (w : Descriptor) (s : State) : (refuseDescriptor w s).physCtrl = s.physCtrl := rfl
@[simp] theorem refuseDescriptor_physData (w : Descriptor) (s : State) : (refuseDescriptor w s).physData = s.physData := rfl
@[simp] theorem refuseDescriptor_seq (w : Descriptor) (s : State) : (refuseDescriptor w s).seq = s.seq := rfl
@[simp] theorem refuseDescriptor_resp (w : Descriptor) (s : State) : (refuseDescriptor w s).resp = some { report := .illegalRequest (Descriptor.op w), bytes := [], idMatch := responseIdMatch (Descriptor.op w) s.rp none } := rfl
@[simp] theorem refuseDescriptor_rp (w : Descriptor) (s : State) : (refuseDescriptor w s).rp = s.rp + 1 := rfl
@[simp] theorem refuseDescriptor_env (w : Descriptor) (s : State) : (refuseDescriptor w s).env = s.env := rfl
@[simp] theorem refuseDescriptor_trace (w : Descriptor) (s : State) : (refuseDescriptor w s).trace = s.trace := rfl
@[simp] theorem refuseDescriptor_sink (w : Descriptor) (s : State) : (refuseDescriptor w s).sink = s.sink := rfl
@[simp] theorem refuseDescriptor_sessionOpen (w : Descriptor) (s : State) : (refuseDescriptor w s).sessionOpen = s.sessionOpen := rfl

@[simp] theorem sleep_cfg (t : Nat) (s : State) : (sleep t s).cfg = s.cfg := by unfold sleep; split <;> rfl
@[simp] theorem sleep_stream (t : Nat) (s : State) : (sleep t s).stream = s.stream := by unfold sleep; split <;> rfl
@[simp] theorem sleep_pos (t : Nat) (s : State) : (sleep t s).pos = s.pos := by unfold sleep; split <;> rfl
@[simp] theorem sleep_ctrl (t : Nat) (s : State) : (sleep t s).ctrl = s.ctrl := by unfold sleep; split <;> rfl
@[simp] theorem sleep_data (t : Nat) (s : State) : (sleep t s).data = s.data := by unfold sleep; split <;> rfl
@[simp] theorem sleep_dir (t : Nat) (s : State) : (sleep t s).dir = s.dir := by unfold sleep; split <;> rfl
@[simp] theorem sleep_physCtrl (t : Nat) (s : State) : (sleep t s).physCtrl = s.physCtrl := by unfold sleep; split <;> rfl
@[simp] theorem sleep_physData (t : Nat) (s : State) : (sleep t s).physData = s.physData := by unfold sleep; split <;> rfl
@[simp] theorem sleep_seq (t : Nat) (s : State) : (sleep t s).seq = s.seq := by unfold sleep; split <;> rfl
@[simp] theorem sleep_resp (t : Nat) (s : State) : (sleep t s).resp = s.resp := by unfold sleep; split <;> rfl
@[simp] theorem sleep_rp (t : Nat) (s : State) : (sleep t s).rp = s.rp := by unfold sleep; split <;> rfl
@[simp] theorem sleep_env (t : Nat) (s : State) : (sleep t s).env = s.env := by unfold sleep; split <;> rfl
@[simp] theorem sleep_sink (t : Nat) (s : State) : (sleep t s).sink = s.sink := by unfold sleep; split <;> rfl
@[simp] theorem sleep_sessionOpen (t : Nat) (s : State) : (sleep t s).sessionOpen = s.sessionOpen := by unfold sleep; split <;> rfl

@[simp] theorem setPin_cfg (bus : Bus) (pin : BitVec 3) (value : Bool) (s : State) : (setPin bus pin value s).cfg = s.cfg := by cases bus <;> rfl
@[simp] theorem setPin_stream (bus : Bus) (pin : BitVec 3) (value : Bool) (s : State) : (setPin bus pin value s).stream = s.stream := by cases bus <;> rfl
@[simp] theorem setPin_pos (bus : Bus) (pin : BitVec 3) (value : Bool) (s : State) : (setPin bus pin value s).pos = s.pos := by cases bus <;> rfl
@[simp] theorem setPin_dir (bus : Bus) (pin : BitVec 3) (value : Bool) (s : State) : (setPin bus pin value s).dir = s.dir := by cases bus <;> rfl
@[simp] theorem setPin_physCtrl (bus : Bus) (pin : BitVec 3) (value : Bool) (s : State) : (setPin bus pin value s).physCtrl = s.physCtrl := by cases bus <;> rfl
@[simp] theorem setPin_physData (bus : Bus) (pin : BitVec 3) (value : Bool) (s : State) : (setPin bus pin value s).physData = s.physData := by cases bus <;> rfl
@[simp] theorem setPin_seq (bus : Bus) (pin : BitVec 3) (value : Bool) (s : State) : (setPin bus pin value s).seq = s.seq := by cases bus <;> rfl
@[simp] theorem setPin_resp (bus : Bus) (pin : BitVec 3) (value : Bool) (s : State) : (setPin bus pin value s).resp = s.resp := by cases bus <;> rfl
@[simp] theorem setPin_rp (bus : Bus) (pin : BitVec 3) (value : Bool) (s : State) : (setPin bus pin value s).rp = s.rp := by cases bus <;> rfl
@[simp] theorem setPin_env (bus : Bus) (pin : BitVec 3) (value : Bool) (s : State) : (setPin bus pin value s).env = s.env := by cases bus <;> rfl
@[simp] theorem setPin_trace (bus : Bus) (pin : BitVec 3) (value : Bool) (s : State) : (setPin bus pin value s).trace = s.trace := by cases bus <;> rfl
@[simp] theorem setPin_sink (bus : Bus) (pin : BitVec 3) (value : Bool) (s : State) : (setPin bus pin value s).sink = s.sink := by cases bus <;> rfl
@[simp] theorem setPin_sessionOpen (bus : Bus) (pin : BitVec 3) (value : Bool) (s : State) : (setPin bus pin value s).sessionOpen = s.sessionOpen := by cases bus <;> rfl

@[simp] theorem State_endSession_cfg (s : State) : (State.endSession s).cfg = s.cfg := rfl
@[simp] theorem State_endSession_stream (s : State) : (State.endSession s).stream = s.stream := rfl
@[simp] theorem State_endSession_pos (s : State) : (State.endSession s).pos = s.pos := rfl
@[simp] theorem State_endSession_ctrl (s : State) : (State.endSession s).ctrl = 0x00 := rfl
@[simp] theorem State_endSession_data (s : State) : (State.endSession s).data = 0x00 := rfl
@[simp] theorem State_endSession_dir (s : State) : (State.endSession s).dir = s.dir := rfl
@[simp] theorem State_endSession_physCtrl (s : State) : (State.endSession s).physCtrl = s.physCtrl := rfl
@[simp] theorem State_endSession_physData (s : State) : (State.endSession s).physData = s.physData := rfl
@[simp] theorem State_endSession_seq (s : State) : (State.endSession s).seq = none := rfl
@[simp] theorem State_endSession_resp (s : State) : (State.endSession s).resp = s.resp := rfl
@[simp] theorem State_endSession_rp (s : State) : (State.endSession s).rp = s.rp := rfl
@[simp] theorem State_endSession_env (s : State) : (State.endSession s).env = s.env := rfl
@[simp] theorem State_endSession_trace (s : State) : (State.endSession s).trace = s.trace := rfl
@[simp] theorem State_endSession_sink (s : State) : (State.endSession s).sink = s.sink := rfl
@[simp] theorem State_endSession_sessionOpen (s : State) : (State.endSession s).sessionOpen = false := rfl

@[simp] theorem placeRequest_cfg (w : Descriptor) (s : State) : (placeRequest w s).cfg = s.cfg := rfl
@[simp] theorem placeRequest_stream (w : Descriptor) (s : State) : (placeRequest w s).stream = Stream.place s.stream s.pos w (payloadLength s.cfg.pageSize w) := rfl
@[simp] theorem placeRequest_pos (w : Descriptor) (s : State) : (placeRequest w s).pos = s.pos := rfl
@[simp] theorem placeRequest_ctrl (w : Descriptor) (s : State) : (placeRequest w s).ctrl = s.ctrl := rfl
@[simp] theorem placeRequest_data (w : Descriptor) (s : State) : (placeRequest w s).data = s.data := rfl
@[simp] theorem placeRequest_dir (w : Descriptor) (s : State) : (placeRequest w s).dir = s.dir := rfl
@[simp] theorem placeRequest_physCtrl (w : Descriptor) (s : State) : (placeRequest w s).physCtrl = s.physCtrl := rfl
@[simp] theorem placeRequest_physData (w : Descriptor) (s : State) : (placeRequest w s).physData = s.physData := rfl
@[simp] theorem placeRequest_seq (w : Descriptor) (s : State) : (placeRequest w s).seq = s.seq := rfl
@[simp] theorem placeRequest_resp (w : Descriptor) (s : State) : (placeRequest w s).resp = s.resp := rfl
@[simp] theorem placeRequest_rp (w : Descriptor) (s : State) : (placeRequest w s).rp = s.rp := rfl
@[simp] theorem placeRequest_env (w : Descriptor) (s : State) : (placeRequest w s).env = s.env := rfl
@[simp] theorem placeRequest_trace (w : Descriptor) (s : State) : (placeRequest w s).trace = s.trace := rfl
@[simp] theorem placeRequest_sink (w : Descriptor) (s : State) : (placeRequest w s).sink = s.sink := rfl
@[simp] theorem placeRequest_sessionOpen (w : Descriptor) (s : State) : (placeRequest w s).sessionOpen = s.sessionOpen := rfl

@[simp] theorem raiseError_cfg (e : Report) (q : Seq) (s : State) : (raiseError e q s).cfg = s.cfg := rfl
@[simp] theorem raiseError_stream (e : Report) (q : Seq) (s : State) : (raiseError e q s).stream = s.stream := rfl
@[simp] theorem raiseError_pos (e : Report) (q : Seq) (s : State) : (raiseError e q s).pos = s.pos := rfl
@[simp] theorem raiseError_ctrl (e : Report) (q : Seq) (s : State) : (raiseError e q s).ctrl = s.ctrl := rfl
@[simp] theorem raiseError_data (e : Report) (q : Seq) (s : State) : (raiseError e q s).data = s.data := rfl
@[simp] theorem raiseError_dir (e : Report) (q : Seq) (s : State) : (raiseError e q s).dir = s.dir := rfl
@[simp] theorem raiseError_physCtrl (e : Report) (q : Seq) (s : State) : (raiseError e q s).physCtrl = s.physCtrl := rfl
@[simp] theorem raiseError_physData (e : Report) (q : Seq) (s : State) : (raiseError e q s).physData = s.physData := rfl
@[simp] theorem raiseError_seq (e : Report) (q : Seq) (s : State) : (raiseError e q s).seq = some { q with failing := some e } := rfl
@[simp] theorem raiseError_resp (e : Report) (q : Seq) (s : State) : (raiseError e q s).resp = s.resp := rfl
@[simp] theorem raiseError_rp (e : Report) (q : Seq) (s : State) : (raiseError e q s).rp = s.rp := rfl
@[simp] theorem raiseError_env (e : Report) (q : Seq) (s : State) : (raiseError e q s).env = s.env := rfl
@[simp] theorem raiseError_trace (e : Report) (q : Seq) (s : State) : (raiseError e q s).trace = s.trace := rfl
@[simp] theorem raiseError_sink (e : Report) (q : Seq) (s : State) : (raiseError e q s).sink = s.sink := rfl
@[simp] theorem raiseError_sessionOpen (e : Report) (q : Seq) (s : State) : (raiseError e q s).sessionOpen = s.sessionOpen := rfl

@[simp] theorem restoreProtection_cfg (q : Seq) (s : State) : (restoreProtection q s).cfg = s.cfg := rfl
@[simp] theorem restoreProtection_stream (q : Seq) (s : State) : (restoreProtection q s).stream = s.stream := rfl
@[simp] theorem restoreProtection_pos (q : Seq) (s : State) : (restoreProtection q s).pos = s.pos := rfl
@[simp] theorem restoreProtection_ctrl (q : Seq) (s : State) : (restoreProtection q s).ctrl = withLevel s.ctrl .nWP false := rfl
@[simp] theorem restoreProtection_data (q : Seq) (s : State) : (restoreProtection q s).data = s.data := rfl
@[simp] theorem restoreProtection_dir (q : Seq) (s : State) : (restoreProtection q s).dir = s.dir := rfl
@[simp] theorem restoreProtection_physCtrl (q : Seq) (s : State) : (restoreProtection q s).physCtrl = some (withLevel s.ctrl .nWP false) := rfl
@[simp] theorem restoreProtection_physData (q : Seq) (s : State) : (restoreProtection q s).physData = s.physData := rfl
@[simp] theorem restoreProtection_seq (q : Seq) (s : State) : (restoreProtection q s).seq = some { q with wpOpen := false } := rfl
@[simp] theorem restoreProtection_resp (q : Seq) (s : State) : (restoreProtection q s).resp = s.resp := rfl
@[simp] theorem restoreProtection_rp (q : Seq) (s : State) : (restoreProtection q s).rp = s.rp := rfl
@[simp] theorem restoreProtection_env (q : Seq) (s : State) : (restoreProtection q s).env = s.env := rfl
@[simp] theorem restoreProtection_trace (q : Seq) (s : State) : (restoreProtection q s).trace = s.trace ++ [.writeCtrl (withLevel s.ctrl .nWP false)] := rfl
@[simp] theorem restoreProtection_sink (q : Seq) (s : State) : (restoreProtection q s).sink = s.sink := rfl
@[simp] theorem restoreProtection_sessionOpen (q : Seq) (s : State) : (restoreProtection q s).sessionOpen = s.sessionOpen := rfl

/-- `Sleep(t)` appends its event, or nothing for t = 0 (R89). -/
@[simp] theorem sleep_trace (t : Nat) (s : State) : (sleep t s).trace = s.trace ++ delayEvents t := by
  unfold sleep delayEvents; split <;> simp

/-- A control-bus `setPin` changes the control mirror alone (R84). -/
@[simp] theorem setPin_ctrl_ctrl (pin : BitVec 3) (value : Bool) (s : State) :
    (setPin .ctrl pin value s).ctrl = withLevel s.ctrl (.ofPin pin) value := rfl
@[simp] theorem setPin_data_ctrl (pin : BitVec 3) (value : Bool) (s : State) : (setPin .data pin value s).ctrl = s.ctrl := rfl
@[simp] theorem setPin_ctrl_data (pin : BitVec 3) (value : Bool) (s : State) : (setPin .ctrl pin value s).data = s.data := rfl
@[simp] theorem setPin_data_data (pin : BitVec 3) (value : Bool) (s : State) :
    (setPin .data pin value s).data = setBit s.data pin.toNat value := rfl

/-! The sequencer state's own updates. -/

@[simp] theorem Seq_next_op (q : Seq) : (Seq.next q).op = q.op := rfl
@[simp] theorem Seq_next_step (q : Seq) : (Seq.next q).step = q.step + 1 := rfl
@[simp] theorem Seq_next_k (q : Seq) : (Seq.next q).k = q.k := rfl
@[simp] theorem Seq_next_polls (q : Seq) : (Seq.next q).polls = q.polls := rfl
@[simp] theorem Seq_next_outbuf (q : Seq) : (Seq.next q).outbuf = q.outbuf := rfl
@[simp] theorem Seq_next_status (q : Seq) : (Seq.next q).status = q.status := rfl
@[simp] theorem Seq_next_wpOpen (q : Seq) : (Seq.next q).wpOpen = q.wpOpen := rfl
@[simp] theorem Seq_next_rangeI (q : Seq) : (Seq.next q).rangeI = q.rangeI := rfl
@[simp] theorem Seq_next_buf (q : Seq) : (Seq.next q).buf = q.buf := rfl
@[simp] theorem Seq_next_report (q : Seq) : (Seq.next q).report = q.report := rfl
@[simp] theorem Seq_next_idMatch (q : Seq) : (Seq.next q).idMatch = q.idMatch := rfl
@[simp] theorem Seq_next_failing (q : Seq) : (Seq.next q).failing = q.failing := rfl
@[simp] theorem memWrite_op (addr : Nat) (v : List Byte) (q : Seq) : (memWrite addr v q).op = q.op := rfl
@[simp] theorem memWrite_step (addr : Nat) (v : List Byte) (q : Seq) : (memWrite addr v q).step = q.step := rfl
@[simp] theorem memWrite_k (addr : Nat) (v : List Byte) (q : Seq) : (memWrite addr v q).k = q.k := rfl
@[simp] theorem memWrite_polls (addr : Nat) (v : List Byte) (q : Seq) : (memWrite addr v q).polls = q.polls := rfl
@[simp] theorem memWrite_outbuf (addr : Nat) (v : List Byte) (q : Seq) : (memWrite addr v q).outbuf = q.outbuf := rfl
@[simp] theorem memWrite_status (addr : Nat) (v : List Byte) (q : Seq) : (memWrite addr v q).status = q.status := rfl
@[simp] theorem memWrite_wpOpen (addr : Nat) (v : List Byte) (q : Seq) : (memWrite addr v q).wpOpen = q.wpOpen := rfl
@[simp] theorem memWrite_rangeI (addr : Nat) (v : List Byte) (q : Seq) : (memWrite addr v q).rangeI = q.rangeI := rfl
@[simp] theorem memWrite_buf (addr : Nat) (v : List Byte) (q : Seq) : (memWrite addr v q).buf = q.buf.take addr ++ v ++ q.buf.drop (addr + v.length) := rfl
@[simp] theorem memWrite_report (addr : Nat) (v : List Byte) (q : Seq) : (memWrite addr v q).report = q.report := rfl
@[simp] theorem memWrite_idMatch (addr : Nat) (v : List Byte) (q : Seq) : (memWrite addr v q).idMatch = q.idMatch := rfl
@[simp] theorem memWrite_failing (addr : Nat) (v : List Byte) (q : Seq) : (memWrite addr v q).failing = q.failing := rfl
@[simp] theorem Seq_start_op (i : Instr) : (Seq.start i).op = i := rfl
@[simp] theorem Seq_start_step (i : Instr) : (Seq.start i).step = 0 := rfl
@[simp] theorem Seq_start_k (i : Instr) : (Seq.start i).k = 0 := rfl
@[simp] theorem Seq_start_polls (i : Instr) : (Seq.start i).polls = 0 := rfl
@[simp] theorem Seq_start_outbuf (i : Instr) : (Seq.start i).outbuf = [] := rfl
@[simp] theorem Seq_start_status (i : Instr) : (Seq.start i).status = none := rfl
@[simp] theorem Seq_start_wpOpen (i : Instr) : (Seq.start i).wpOpen = false := rfl
@[simp] theorem Seq_start_rangeI (i : Instr) : (Seq.start i).rangeI = 0 := rfl
@[simp] theorem Seq_start_buf (i : Instr) : (Seq.start i).buf = [] := rfl
@[simp] theorem Seq_start_report (i : Instr) : (Seq.start i).report = .ok := rfl
@[simp] theorem Seq_start_idMatch (i : Instr) : (Seq.start i).idMatch = none := rfl
@[simp] theorem Seq_start_failing (i : Instr) : (Seq.start i).failing = none := rfl

end Sys2Proof.Machine
end

