-- ==== Sys2Proof/Laws/Bits.lean ====
section
/-! SUPPORT. Levels of a control byte under signal changes (R16, R24, R84): every later fact about a control byte follows from
`level_withLevel` and `ext_levels`. -/

namespace Sys2Proof.Machine

/-- Changing a signal changes its own level and no other; the RDY bit never changes (R16, R24). -/
@[simp] theorem level_withLevel (v : Byte) (sig sig' : Signal) (b : Bool) :
    level (withLevel v sig b) sig' = if sig = sig' ∧ sig ≠ .RDY then b else level v sig' := by
  cases sig <;> cases sig' <;> cases b <;> simp [level, withLevel, setBit, Signal.bit]

/-- Two control bytes with the same levels are equal. -/
theorem ext_levels {a b : Byte} (h : ∀ sig, level a sig = level b sig) : a = b := by
  apply BitVec.eq_of_getLsbD_eq
  intro i hi
  have h0 := h .CLE
  have h1 := h .ALE
  have h2 := h .nCE
  have h3 := h .nWE
  have h4 := h .nRE
  have h5 := h .nWP
  have h6 := h .RDY
  have h7 := h .AUX
  simp only [level, Signal.bit] at h0 h1 h2 h3 h4 h5 h6 h7
  interval_cases i <;> assumption

/-- The last change of a signal counts. -/
@[simp] theorem withLevel_withLevel_same (v : Byte) (sig : Signal) (a b : Bool) :
    withLevel (withLevel v sig a) sig b = withLevel v sig b := by
  apply ext_levels; intro sig'; simp only [level_withLevel]; split <;> simp_all

/-- Changes of different signals commute. -/
theorem withLevel_comm (v : Byte) {sig sig' : Signal} (h : sig ≠ sig') (a b : Bool) :
    withLevel (withLevel v sig a) sig' b = withLevel (withLevel v sig' b) sig a := by
  apply ext_levels; intro x; simp only [level_withLevel]; split <;> split <;> simp_all

/-- Setting a signal to the level it has changes nothing. -/
theorem withLevel_self (v : Byte) (sig : Signal) {b : Bool} (h : level v sig = b) : withLevel v sig b = v := by
  apply ext_levels; intro x; simp only [level_withLevel]; split <;> simp_all

/-- `setBit` changes its own bit and no other (R84). -/
theorem getLsbD_setBit (v : Byte) (i j : Nat) (b : Bool) (hi : i < 8) (hj : j < 8) :
    (setBit v i b).getLsbD j = if i = j then b else v.getLsbD j := by
  interval_cases i <;> interval_cases j <;> cases b <;> simp [setBit]

/-- The pin of a control SETPIN names the signal at that bit (R66). -/
theorem bit_ofPin (pin : BitVec 3) : (Signal.ofPin pin).bit = pin.toNat := by
  revert pin; decide

end Sys2Proof.Machine
end

