-- ==== Sys2Proof/Laws/BusView.lean ====
section
/-! SUPPORT. The bus view: which control writes make a read clock, what a sample is, and the view over parts of a list of events
(R52, R53, R63). -/

namespace Sys2Proof.Machine

theorem latchCycle_ne_readClock (v : Byte) (byte : Option Byte) : latchCycle v byte ≠ .readClock := by
  unfold latchCycle; split
  · simp
  · split <;> simp

theorem readClock_not_mem_latchCycles (b : BusView) (v : Byte) : Cycle.readClock ∉ latchCycles b v := by
  unfold latchCycles; split
  · split <;> simp
  · split <;> simp [(latchCycle_ne_readClock _ _).symm]

/-- R53: from known levels, a control write makes a read clock exactly when it takes nRE from 1 to 0; no other line has a say. -/
theorem readClock_mem_controlCycles {b : BusView} {u : Byte} (hu : b.ctrl = some u) (v : Byte) :
    Cycle.readClock ∈ controlCycles b v ↔ level u .nRE = true ∧ level v .nRE = false := by
  simp [controlCycles, readClock_not_mem_latchCycles, clockCycles, hu]

/-- While nRE may have fallen, no sample counts as outside a data-out cycle: that is said only where nRE is 1. -/
theorem sampleCycle_outside {b : BusView} {v : Byte} : sampleCycle b v = .outside v ↔ b.phase = .high := by
  unfold sampleCycle; split <;> simp_all

/-- After a control write nRE stands at 1 exactly when the write says so. -/
theorem phaseAfter_high {b : BusView} (hb : b.phase = .high → ∃ u, b.ctrl = some u ∧ level u .nRE = true) (v : Byte) :
    phaseAfter b v = .high ↔ level v .nRE = true := by
  unfold phaseAfter
  split
  · simp_all
  · split
    · simp_all
    · rename_i u hu
      split
      · split <;> simp_all
      · rename_i h _; constructor
        · intro hp; obtain ⟨w, hw, hl⟩ := hb hp; simp_all
        · intro hl; simp_all

/-- The lines after a list of events. -/
def BusView.afterAll (b : BusView) : List Event → BusView
  | [] => b
  | e :: rest => (b.after e).afterAll rest

theorem busCycles_append (l m : List Event) : ∀ b, busCycles b (l ++ m) = busCycles b l ++ busCycles (b.afterAll l) m := by
  induction l with
  | nil => intro b; rfl
  | cons e r ih => intro b; simp [busCycles, BusView.afterAll, ih]

theorem afterAll_append (l m : List Event) : ∀ b : BusView, b.afterAll (l ++ m) = (b.afterAll l).afterAll m := by
  induction l with
  | nil => intro b; rfl
  | cons e r ih => intro b; simp [BusView.afterAll, ih]

theorem busCycles_delay (b : BusView) (t : Nat) : busCycles b (delayEvents t) = [] := by
  unfold delayEvents; split <;> simp [busCycles, eventCycles]

theorem afterAll_delay (b : BusView) (t : Nat) : b.afterAll (delayEvents t) = b := by
  unfold delayEvents; split <;> rfl

end Sys2Proof.Machine
end

