-- ==== Sys2Proof/Laws/Sequencer.lean ====
section
/-! SUPPORT. What a line, a step and an instruction can do: one lemma for each shared operation of the sequencer, and the run of a
fixed sequence assembled from its segments. -/

namespace Sys2Proof.Machine

/-! ## The fixed sequence of each instruction -/

/-- The fixed sequence of an instruction, as its meaning passes it to `perform`. -/
def linesOf (i : Instr) (s : State) : List Line :=
  match i with
  | .setpin bus pin value => setpinLines bus pin value
  | .setdata byte => setdataLines byte
  | .flush bus => flushLines bus
  | .sample bus => sampleLines bus
  | .setdir d => setdirLines d
  | .delay t => delayLines t
  | .init => initLines
  | .lcmd command => latchCommand command
  | .laddr n => laddrLines n s
  | .lout count => loutLines count s
  | .ldin n => ldinLines n s
  | .waitrdy => waitWhileBusy
  | .addrcyc page column => addrcycLines page column
  | .readid => readIdLines s.cfg
  | .readpage page => readPageLines s.cfg page.toNat
  | .erase block => eraseLines s.cfg true block.toNat
  | .program page _ => programLines s.cfg true page.toNat (memRead s 0 s.cfg.pageSize)
  | .readstatus => readStatusLines s.cfg
  | .dump start count => rangeLines (dumpElement s.cfg start.toNat) 0 count.toNat
  | .programrange start count => rangeLines (programElement s start.toNat) 0 count.toNat
  | .eraserange start count => rangeLines (eraseElement s.cfg start.toNat) 0 count.toNat

/-- Every meaning is one step of its own fixed sequence. -/
theorem exec_eq_perform (i : Instr) (s : State) : exec i s = perform i (linesOf i s) s := by
  cases i <;> rfl

/-- The fixed sequence depends on the configuration and the request's payload alone. -/
theorem linesOf_congr (i : Instr) {s t : State} (hc : t.cfg = s.cfg) (hs : t.stream = s.stream) (hp : t.pos = s.pos) :
    linesOf i t = linesOf i s := by
  have hm : ∀ a n, memRead t a n = memRead s a n := by intro a n; simp only [memRead, hs, hp]
  have hr : ∀ start, programElement t start = programElement s start := by
    intro start; funext j; simp only [programElement, sourceRecord, hm, hc]; rfl
  cases i <;> simp only [linesOf, laddrLines, loutLines, ldinLines, hc, hm, hr]

/-! ## Lines -/

/-- A line does not read or change `seq`, which the step sets after it. -/
def LineOutcome.withSeq (x : Option Seq) : LineOutcome → LineOutcome
  | .done q s => .done q { s with seq := x }
  | .raised e q s => .raised e q { s with seq := x }

/-- A line does the same whatever `seq` the state holds. -/
theorem runLine_seq (l : Line) (q : Seq) (s : State) (x : Option Seq) :
    runLine l q { s with seq := x } = (runLine l q s).withSeq x := by
  cases l with
  | setPin bus _ _ => cases bus <;> rfl
  | flush bus => cases bus <;> simp only [runLine, lineFlush, lineFlushData] <;> (try split) <;> rfl
  | sample bus => simp only [runLine, lineSample]; split <;> rfl
  | sleep t => simp only [runLine, sleep, LineOutcome.withSeq]; split <;> rfl
  | driveData b => simp only [runLine, lineFlushData]; split <;> rename_i h <;> simp_all [LineOutcome.withSeq, flushData, setData]
  | checkEntry op =>
    have h : entryError op { s with seq := x } = entryError op s := rfl
    simp only [runLine, lineCheckEntry, h]; split <;> rfl
  | latchByte b =>
    simp only [runLine, lineLatchByte, lineFlushData]
    split <;> rename_i h <;> simp_all [LineOutcome.withSeq, flushData, setData]
  | readByte r => simp only [runLine, lineReadByte]; split <;> rfl
  | byteEnd t => simp only [runLine, lineByteEnd, sleep, LineOutcome.withSeq]; split <;> rfl
  | waitStart => simp only [runLine, lineWaitStart, sleep, LineOutcome.withSeq]; split <;> rfl
  | poll => simp only [runLine, linePoll]; split <;> (try split) <;> rfl
  | pollInterval => simp only [runLine, linePollInterval, sleep, LineOutcome.withSeq]; split <;> rfl
  | compareId => simp only [runLine, lineCompareId]; split <;> rfl
  | testErase b =>
    simp only [runLine, lineTestStatus]; cases q.status with
    | none => rfl
    | some v => dsimp only; split <;> rfl
  | testProgram b =>
    simp only [runLine, lineTestStatus]; cases q.status with
    | none => rfl
    | some v => dsimp only; split <;> rfl
  | sourceRecord i => simp only [runLine, lineSourceRecord]; split <;> rfl
  | sinkRecord => simp only [runLine, lineSinkRecord]; split <;> rfl
  | _ => rfl

/-- What no line changes: the configuration, the stream, the request's place, the session, the last response and `rp`, and in
`seq` the operation and a pending error. -/
structure LineFrame (q : Seq) (s : State) (q' : Seq) (s' : State) : Prop where
  cfg : s'.cfg = s.cfg
  stream : s'.stream = s.stream
  pos : s'.pos = s.pos
  seq : s'.seq = s.seq
  resp : s'.resp = s.resp
  rp : s'.rp = s.rp
  sessionOpen : s'.sessionOpen = s.sessionOpen
  op : q'.op = q.op
  failing : q'.failing = q.failing

/-- What a line leaves keeps what `LineFrame` lists. -/
def LineOutcome.Keeps (q : Seq) (s : State) : LineOutcome → Prop
  | .done q' s' => LineFrame q s q' s'
  | .raised _ q' s' => LineFrame q s q' s'

/-- A line keeps what `LineFrame` lists, whether it is done or raises an error. -/
theorem runLine_keeps (l : Line) (q : Seq) (s : State) : (runLine l q s).Keeps q s := by
  cases l with
  | flush bus =>
    cases bus
    · simp only [runLine, lineFlush, lineFlushData]; split <;> constructor <;> simp
    · constructor <;> simp
  | sample bus => simp only [runLine, lineSample]; split <;> constructor <;> simp
  | driveData b => simp only [runLine, lineFlushData]; split <;> constructor <;> simp
  | checkEntry op => simp only [runLine, lineCheckEntry]; split <;> constructor <;> simp
  | latchByte b => simp only [runLine, lineLatchByte, lineFlushData]; split <;> constructor <;> simp
  | readByte r =>
    simp only [runLine, lineReadByte]
    split
    · cases r <;> constructor <;> simp
    · constructor <;> simp
  | poll =>
    simp only [runLine, linePoll]
    split
    · constructor <;> simp
    · split <;> constructor <;> simp
  | compareId => simp only [runLine, lineCompareId]; split <;> constructor <;> simp
  | testErase b => simp only [runLine, lineTestStatus]; split <;> (try split) <;> constructor <;> simp
  | testProgram b => simp only [runLine, lineTestStatus]; split <;> (try split) <;> constructor <;> simp
  | sourceRecord i => simp only [runLine, lineSourceRecord]; split <;> constructor <;> simp
  | sinkRecord => simp only [runLine, lineSinkRecord]; split <;> constructor <;> simp
  | _ => constructor <;> simp

theorem runLine_done_frame {l : Line} {q q' : Seq} {s s' : State} (h : runLine l q s = .done q' s') : LineFrame q s q' s' := by
  have := runLine_keeps l q s; rw [h] at this; exact this

theorem runLine_raised_frame {l : Line} {e : Report} {q q' : Seq} {s s' : State} (h : runLine l q s = .raised e q' s') :
    LineFrame q s q' s' := by
  have := runLine_keeps l q s; rw [h] at this; exact this

/-! ## One step -/

/-- What one step of a running operation can be: the restore or the response of a raised error, the response past the last line,
or one line that leaves the request waiting or raises an error. -/
inductive Advances (lines : List Line) (q : Seq) (s : State) : State → Prop
  | restores {e : Report} (hf : q.failing = some e) (hw : q.wpOpen = true) : Advances lines q s (restoreProtection q s)
  | fails {e : Report} (hf : q.failing = some e) (hw : q.wpOpen = false) : Advances lines q s (respond q e s)
  | ends (hf : q.failing = none) (hl : lines[q.step]? = none) : Advances lines q s (respond q q.report s)
  | goesOn {l : Line} {q' : Seq} {s' : State} (hf : q.failing = none) (hl : lines[q.step]? = some l)
      (hr : runLine l q s = .done q' s') : Advances lines q s { s' with seq := some q' }
  | raises {l : Line} {e : Report} {q' : Seq} {s' : State} (hf : q.failing = none) (hl : lines[q.step]? = some l)
      (hr : runLine l q s = .raised e q' s') : Advances lines q s (raiseError e q' s')

/-- Every step of a running operation is one of `Advances`. -/
theorem advance_advances (lines : List Line) (q : Seq) (s : State) : Advances lines q s (advance lines q s) := by
  unfold advance
  cases hf : q.failing with
  | some e =>
    dsimp only [abortStep]
    split
    · exact .restores hf (by assumption)
    · exact .fails hf (by simpa using ‹¬q.wpOpen = true›)
  | none =>
    cases hl : lines[q.step]? with
    | none => exact .ends hf hl
    | some l =>
      dsimp only
      split
      · exact .goesOn hf hl (by assumption)
      · exact .raises hf hl (by assumption)

/-- A request that is not failing, at the end of its sequence, responds with its report (R83, R91). -/
theorem advance_past {lines : List Line} {q : Seq} {s : State} (hf : q.failing = none) (hl : lines[q.step]? = none) :
    advance lines q s = respond q q.report s := by simp [advance, hf, hl]

/-- A line that is done leaves the request waiting (R33). -/
theorem advance_done {lines : List Line} {l : Line} {q q' : Seq} {s s' : State} (hf : q.failing = none)
    (hl : lines[q.step]? = some l) (hr : runLine l q s = .done q' s') : advance lines q s = { s' with seq := some q' } := by
  simp [advance, hf, hl, hr]

/-- A line that raises an error leaves it waiting (R129). -/
theorem advance_raised {lines : List Line} {l : Line} {e : Report} {q q' : Seq} {s s' : State} (hf : q.failing = none)
    (hl : lines[q.step]? = some l) (hr : runLine l q s = .raised e q' s') : advance lines q s = raiseError e q' s' := by
  simp [advance, hf, hl, hr]

/-- An error outside the bracket is the response (R129). -/
theorem advance_fails {lines : List Line} {e : Report} {q : Seq} {s : State} (hf : q.failing = some e) (hw : q.wpOpen = false) :
    advance lines q s = respond q e s := by simp [advance, hf, abortStep, hw]

/-- An error inside the bracket closes it first (R129 item 2). -/
theorem advance_restores {lines : List Line} {e : Report} {q : Seq} {s : State} (hf : q.failing = some e) (hw : q.wpOpen = true) :
    advance lines q s = restoreProtection q s := by simp [advance, hf, abortStep, hw]

/-- What `exec` can do: refuse after the session's end or while another request runs, refuse or start a request, or go on with it. -/
theorem exec_cases (i : Instr) (s : State) :
    (s.sessionOpen = false ∧ exec i s = .refused .sessionEnded) ∨
    s.sessionOpen = true ∧
    ((∃ q, s.seq = some q ∧ q.op ≠ i ∧ exec i s = .refused .anotherRequestRunning) ∨
    (∃ e, s.seq = none ∧ requestError i s = some e ∧ exec i s = .next (respond (Seq.start i) e s)) ∨
    (s.seq = none ∧ requestError i s = none ∧ exec i s = .next (advance (linesOf i s) (Seq.start i) s)) ∨
    (∃ q, s.seq = some q ∧ q.op = i ∧ exec i s = .next (advance (linesOf i s) q s))) := by
  rw [exec_eq_perform]
  unfold perform
  cases ho : s.sessionOpen with
  | false => exact .inl ⟨rfl, rfl⟩
  | true =>
    refine .inr ⟨rfl, ?_⟩
    cases hs : s.seq with
    | none =>
      cases ha : requestError i s with
      | some e => exact .inr (.inl ⟨e, rfl, rfl, rfl⟩)
      | none => exact .inr (.inr (.inl ⟨rfl, rfl, rfl⟩))
    | some q =>
      by_cases h : q.op = i
      · exact .inr (.inr (.inr ⟨q, rfl, h, by simp [h]⟩))
      · exact .inl ⟨q, rfl, h, by simp [h]⟩

/-- In an open session, `exec` of the running request's own instruction, or of any instruction between requests, answers a next
state. -/
theorem exec_next (i : Instr) (s : State) (ho : s.sessionOpen = true) (h : ∀ q, s.seq = some q → q.op = i) :
    ∃ t, exec i s = .next t := by
  rcases exec_cases i s with ⟨hc, _⟩ | ⟨_, ⟨q, hq, hne, _⟩ | ⟨e, _, _, he⟩ | ⟨_, _, he⟩ | ⟨q, _, _, he⟩⟩
  · rw [ho] at hc; cases hc
  · exact absurd (h q hq) hne
  · exact ⟨_, he⟩
  · exact ⟨_, he⟩
  · exact ⟨_, he⟩

end Sys2Proof.Machine
end

