-- ==== Sys2Proof/Laws/Run.lean ====
section
/-! SUPPORT. Runs of a fixed sequence: a request's run is put together from the runs of its segments, and a run to the end, or to
a raised error, is what `exec` reaches from the state before the request. -/

namespace Sys2Proof.Machine

/-! ## Starting a request -/

/-- A well-formed request of a legal length whose payload is present may start (R75). -/
theorem requestError_none {i : Instr} {s : State} (hw : i.wellFormed = true) (hl : i.lengthOk s.cfg.pageSize = true)
    (hp : PayloadPresent i s) : requestError i s = none := by
  unfold requestError
  rcases hp with h | h
  · simp [hw, hl, h]
  · simp [hw, hl]; intro _; omega

/-- Which requests may not start, and with which report (R75, R128 item 1). -/
theorem requestError_some {i : Instr} {s : State} {e : Report} (h : requestError i s = some e) :
    (i.wellFormed = false ∧ e = .illegalRequest i.opcode) ∨
    (i.lengthOk s.cfg.pageSize = false ∧ e = .lengthMismatch (i.payloadLength s.cfg.pageSize)) ∨
    (¬PayloadPresent i s ∧ e = .lengthMismatch (i.payloadLength s.cfg.pageSize)) := by
  unfold requestError at h
  cases hw : i.wellFormed with
  | false => simp [hw] at h; exact .inl ⟨rfl, h.symm⟩
  | true =>
    cases hl : i.lengthOk s.cfg.pageSize with
    | false => simp [hw, hl] at h; exact .inr (.inl ⟨rfl, h.symm⟩)
    | true =>
      simp only [hw, hl, if_true] at h
      split at h
      · cases h
      · rename_i h0
        split at h
        · cases h
        · rename_i h1
          simp only [Option.some.injEq] at h
          refine .inr (.inr ⟨?_, h.symm⟩)
          rintro (h2 | h2)
          · exact h0 h2
          · exact h1 h2

/-! ## Runs inside a sequence -/

/-- Lines performed one after another without an error: from `q`, `s` to `q'`, `s'`. -/
inductive Runs (lines : List Line) : Seq → State → Seq → State → Prop
  | refl (q : Seq) (s : State) : Runs lines q s q s
  | line {l : Line} {q q₁ q' : Seq} {s s₁ s' : State} (hl : lines[q.step]? = some l) (hr : runLine l q s = .done q₁ s₁)
      (h : Runs lines q₁ s₁ q' s') : Runs lines q s q' s'

theorem Runs.trans {lines : List Line} {q q₁ q₂ : Seq} {s s₁ s₂ : State} (h : Runs lines q s q₁ s₁)
    (h' : Runs lines q₁ s₁ q₂ s₂) : Runs lines q s q₂ s₂ := by
  induction h with
  | refl => exact h'
  | line hl hr _ ih => exact .line hl hr (ih h')

theorem Runs.cast {lines : List Line} {q q₀ q₁ q₂ : Seq} {s s₀ s₁ s₂ : State} (h : Runs lines q s q₁ s₁) (hq₀ : q₀ = q)
    (hs₀ : s₀ = s) (hq : q₂ = q₁) (hs : s₂ = s₁) : Runs lines q₀ s₀ q₂ s₂ := by rw [hq₀, hs₀, hq, hs]; exact h

/-- Line `i` of a part stands `i` places after its beginning. -/
theorem line_at {before part behind : List Line} {n : Nat} (i : Nat) {l : Line} (hn : n = before.length + i)
    (hl : part[i]? = some l) : (before ++ part ++ behind)[n]? = some l := by
  have hi : i < part.length := by
    by_contra h; rw [List.getElem?_eq_none (by omega)] at hl; cases hl
  rw [hn, List.append_assoc, List.getElem?_append_right (by omega), List.getElem?_append_left (by omega)]
  simpa using hl

/-- How a run of the whole sequence ends: past its last line, or at a line that raises an error, which closes the write-protect
bracket first when it is open (R33, R129). -/
inductive Ends (lines : List Line) : Seq → State → State → Prop
  | past {q : Seq} {s : State} (hl : lines[q.step]? = none) : Ends lines q s (respond q q.report s)
  | line {l : Line} {q q₁ : Seq} {s s₁ t : State} (hl : lines[q.step]? = some l) (hr : runLine l q s = .done q₁ s₁)
      (h : Ends lines q₁ s₁ t) : Ends lines q s t
  | raised {l : Line} {q q₁ : Seq} {s s₁ : State} {e : Report} (hl : lines[q.step]? = some l)
      (hr : runLine l q s = .raised e q₁ s₁) (hw : q₁.wpOpen = false) : Ends lines q s (respond q₁ e s₁)
  | restored {l : Line} {q q₁ : Seq} {s s₁ : State} {e : Report} (hl : lines[q.step]? = some l)
      (hr : runLine l q s = .raised e q₁ s₁) (hw : q₁.wpOpen = true) :
      Ends lines q s (respond q₁ e (flushCtrl (setSignal .nWP false s₁)))

theorem Runs.ends {lines : List Line} {q q' : Seq} {s s' t : State} (h : Runs lines q s q' s') (h' : Ends lines q' s' t) :
    Ends lines q s t := by
  induction h with
  | refl => exact h'
  | line hl hr _ ih => exact .line hl hr (ih h')

/-! ## From a run of the sequence to steps of `exec` -/

theorem respond_withSeq (q : Seq) (r : Report) (s : State) (x : Option Seq) : respond q r { s with seq := x } = respond q r s := rfl

theorem advance_seq (lines : List Line) (q : Seq) (s : State) (x : Option Seq) :
    advance lines q { s with seq := x } = advance lines q s := by
  unfold advance
  cases q.failing with
  | some e => dsimp only [abortStep]; split <;> rfl
  | none =>
    cases lines[q.step]? with
    | none => exact respond_withSeq q q.report s x
    | some l =>
      simp only [runLine_seq]
      cases runLine l q s with
      | done q' s' => rfl
      | raised e q' s' => rfl

/-- What ties a state inside a request's run to the state `s₀` at its start: the session is open, and the request's sequence is the
one computed at `s₀`. -/
structure SameRun (s₀ s : State) : Prop where
  sessionOpen : s.sessionOpen = true
  cfg : s.cfg = s₀.cfg
  stream : s.stream = s₀.stream
  pos : s.pos = s₀.pos

theorem SameRun.start {s : State} (h : s.sessionOpen = true) : SameRun s s := ⟨h, rfl, rfl, rfl⟩

/-- A line keeps the run. -/
theorem SameRun.line {s₀ s s' : State} {q q' : Seq} (h : SameRun s₀ s) (fr : LineFrame q s q' s') : SameRun s₀ s' :=
  ⟨fr.sessionOpen.trans h.sessionOpen, fr.cfg.trans h.cfg, fr.stream.trans h.stream, fr.pos.trans h.pos⟩

/-- One step of the running request of `i`. -/
theorem exec_running {i : Instr} {q : Seq} {s₀ s : State} (hop : q.op = i) (h : SameRun s₀ s) :
    exec i { s with seq := some q } = .next (advance (linesOf i s₀) q s) := by
  have hl : linesOf i { s with seq := some q } = linesOf i s₀ := linesOf_congr i h.cfg h.stream h.pos
  rw [exec_eq_perform, hl, ← advance_seq (linesOf i s₀) q s (some q)]
  simp [perform, hop, h.sessionOpen]

/-- The step that responds with an error raised outside the bracket (R129). -/
theorem exec_fails {i : Instr} {e : Report} {q : Seq} {s₀ s : State} (hop : q.op = i) (h : SameRun s₀ s) (hw : q.wpOpen = false) :
    exec i (raiseError e q s) = .next (respond q e s) :=
  (exec_running (q := { q with failing := some e }) hop h).trans
    (congrArg _ (advance_fails (q := { q with failing := some e }) rfl hw))

/-- The step that closes the bracket of an error raised inside it (R129 item 2). -/
theorem exec_restores {i : Instr} {e : Report} {q : Seq} {s₀ s : State} (hop : q.op = i) (h : SameRun s₀ s) (hw : q.wpOpen = true) :
    exec i (raiseError e q s) = .next (raiseError e { q with wpOpen := false } (flushCtrl (setSignal .nWP false s))) :=
  (exec_running (q := { q with failing := some e }) hop h).trans
    (congrArg _ (advance_restores (q := { q with failing := some e }) rfl hw))

/-- The step that responds after the bracket is closed (R129). -/
theorem exec_fails_restored {i : Instr} {e : Report} {q : Seq} {s₀ s : State} (hop : q.op = i) (h : SameRun s₀ s) :
    exec i (raiseError e { q with wpOpen := false } (flushCtrl (setSignal .nWP false s))) =
      .next (respond q e (flushCtrl (setSignal .nWP false s))) :=
  exec_fails (q := { q with wpOpen := false }) (s₀ := s₀) hop ⟨h.sessionOpen, h.cfg, h.stream, h.pos⟩ rfl

theorem execTimes_succ {n : Nat} {i : Instr} {s t : State} (h : exec i s = .next t) : execTimes (n + 1) i s = execTimes n i t := by
  simp [execTimes, h]

/-- A running request whose sequence ends at `t` reaches `t` in at least one step. -/
theorem execTimes_of_ends (i : Instr) (s₀ : State) {q : Seq} {s t : State} (h : Ends (linesOf i s₀) q s t) :
    q.op = i → q.failing = none → SameRun s₀ s → ∃ n, execTimes (n + 1) i { s with seq := some q } = .next t := by
  induction h with
  | past hl =>
    intro hop hf hs
    exact ⟨0, by rw [execTimes_succ (exec_running hop hs), advance_past hf hl]; rfl⟩
  | line hl hr _ ih =>
    intro hop hf hs
    have fr := runLine_done_frame hr
    obtain ⟨n, hn⟩ := ih (fr.op.trans hop) (fr.failing.trans hf) (hs.line fr)
    exact ⟨n + 1, by rw [execTimes_succ (exec_running hop hs), advance_done hf hl hr, hn]⟩
  | raised hl hr hw =>
    intro hop hf hs
    have fr := runLine_raised_frame hr
    refine ⟨1, ?_⟩
    rw [execTimes_succ (exec_running hop hs), advance_raised hf hl hr,
      execTimes_succ (exec_fails (fr.op.trans hop) (hs.line fr) hw)]
    rfl
  | restored hl hr hw =>
    intro hop hf hs
    have fr := runLine_raised_frame hr
    refine ⟨2, ?_⟩
    rw [execTimes_succ (exec_running hop hs), advance_raised hf hl hr,
      execTimes_succ (exec_restores (fr.op.trans hop) (hs.line fr) hw),
      execTimes_succ (exec_fails_restored (fr.op.trans hop) (hs.line fr))]
    rfl

/-- A request that may start does what it would do once started. -/
theorem exec_start {i : Instr} {s : State} (hs : Between s) (ha : requestError i s = none) :
    exec i s = exec i { s with seq := some (Seq.start i) } := by
  rw [exec_running (i := i) (q := Seq.start i) rfl (.start hs.1), exec_eq_perform]
  simp [perform, hs.1, hs.2, ha]

theorem execTimes_start {i : Instr} {s : State} (hs : Between s) (ha : requestError i s = none) (n : Nat) :
    execTimes (n + 1) i s = execTimes (n + 1) i { s with seq := some (Seq.start i) } := by
  simp only [execTimes, exec_start hs ha]

/-- A request that may start, whose sequence ends at `t`, completes with `t`. -/
theorem completes_of_ends {i : Instr} {s t : State} (hs : Between s) (ha : requestError i s = none)
    (h : Ends (linesOf i s) (Seq.start i) s t) : CompletesWith i s t := by
  obtain ⟨n, hn⟩ := execTimes_of_ends i s h rfl rfl (.start hs.1)
  have h1 := exec_start hs ha
  rw [exec_running (i := i) (q := Seq.start i) rfl (.start hs.1)] at h1
  rw [← execTimes_start hs ha, execTimes_succ h1] at hn
  exact ⟨_, h1, n, hn⟩

/-! ## Segments -/

/-- A part of a sequence that runs through without an error, wherever it stands. -/
def Segment (part : List Line) (q : Seq) (s : State) (q' : Seq) (s' : State) : Prop :=
  q'.step = q.step + part.length ∧
    ∀ before behind : List Line, before.length = q.step → Runs (before ++ part ++ behind) q s q' s'

/-- A part of a sequence that ends in a raised error, wherever it stands. -/
def Raises (part : List Line) (q : Seq) (s : State) (e : Report) (q' : Seq) (s' : State) : Prop :=
  ∀ before behind : List Line, before.length = q.step → ∃ q₀ s₀ l, Runs (before ++ part ++ behind) q s q₀ s₀ ∧
    (before ++ part ++ behind)[q₀.step]? = some l ∧ runLine l q₀ s₀ = .raised e q' s'

theorem Segment.cast {part : List Line} {q q₁ q₂ : Seq} {s s₁ s₂ : State} (h : Segment part q s q₁ s₁) (hq : q₂ = q₁)
    (hs : s₂ = s₁) : Segment part q s q₂ s₂ := by rw [hq, hs]; exact h

theorem Segment.of_eq {a b : List Line} {q q' : Seq} {s s' : State} (h : Segment a q s q' s') (he : b = a) : Segment b q s q' s' := by
  rw [he]; exact h

theorem Raises.of_eq {a b : List Line} {q q' : Seq} {s s' : State} {e : Report} (h : Raises a q s e q' s') (he : b = a) :
    Raises b q s e q' s' := by
  rw [he]; exact h

theorem Segment.nil (q : Seq) (s : State) : Segment [] q s q s := ⟨rfl, fun _ _ _ => .refl q s⟩

theorem Segment.append {a b : List Line} {q q₁ q₂ : Seq} {s s₁ s₂ : State} (h : Segment a q s q₁ s₁) (h' : Segment b q₁ s₁ q₂ s₂) :
    Segment (a ++ b) q s q₂ s₂ := by
  refine ⟨by rw [h'.1, h.1, List.length_append]; omega, fun before behind hb => ?_⟩
  have h1 := h.2 before (b ++ behind) hb
  have h2 := h'.2 (before ++ a) behind (by rw [List.length_append, hb, h.1])
  simp only [List.append_assoc] at h1 h2 ⊢
  exact h1.trans h2

theorem Segment.raises {a b : List Line} {q q₁ q₂ : Seq} {s s₁ s₂ : State} {e : Report} (h : Segment a q s q₁ s₁)
    (h' : Raises b q₁ s₁ e q₂ s₂) : Raises (a ++ b) q s e q₂ s₂ := by
  intro before behind hb
  have h1 := h.2 before (b ++ behind) hb
  obtain ⟨q₀, s₀, l, h2, h3, h4⟩ := h' (before ++ a) behind (by rw [List.length_append, hb, h.1])
  simp only [List.append_assoc] at h1 h2 h3 ⊢
  exact ⟨q₀, s₀, l, h1.trans h2, h3, h4⟩

theorem Raises.append {a : List Line} {q q' : Seq} {s s' : State} {e : Report} (h : Raises a q s e q' s') (b : List Line) :
    Raises (a ++ b) q s e q' s' := by
  intro before behind hb
  obtain ⟨q₀, s₀, l, h1, h2, h3⟩ := h before (b ++ behind) hb
  simp only [List.append_assoc] at h1 h2 ⊢
  exact ⟨q₀, s₀, l, h1, h2, h3⟩

/-- One line that goes on to the next is a segment. -/
theorem Segment.single {l : Line} {q q' : Seq} {s s' : State} (h : runLine l q s = .done q' s') (hn : q'.step = q.step + 1) :
    Segment [l] q s q' s' :=
  ⟨hn, fun before behind hb => .line (by simp [← hb]) h (.refl _ _)⟩

theorem Raises.single {l : Line} {q q' : Seq} {s s' : State} {e : Report} (h : runLine l q s = .raised e q' s') :
    Raises [l] q s e q' s' :=
  fun before behind hb => ⟨q, s, l, .refl _ _, by simp [← hb], h⟩

/-- A sequence that is a segment ends with the report it has then. -/
theorem ends_of_segment {lines : List Line} {i : Instr} {s s' : State} {q' : Seq} (h : Segment lines (Seq.start i) s q' s') :
    Ends lines (Seq.start i) s (respond q' q'.report s') := by
  have h1 := h.2 [] [] rfl
  simp only [List.nil_append, List.append_nil] at h1
  refine h1.ends (.past ?_)
  rw [h.1]; simp [Seq.start]

/-- A sequence that raises an error outside the bracket ends with it (R129). -/
theorem ends_of_raises {lines : List Line} {i : Instr} {s s' : State} {q' : Seq} {e : Report}
    (h : Raises lines (Seq.start i) s e q' s') (hw : q'.wpOpen = false) : Ends lines (Seq.start i) s (respond q' e s') := by
  obtain ⟨q₀, s₀, l, h1, h2, h3⟩ := h [] [] rfl
  simp only [List.nil_append, List.append_nil] at h1 h2
  exact h1.ends (.raised h2 h3 hw)

/-- A sequence that raises an error inside the bracket ends with it after the restore (R129). -/
theorem ends_of_restored {lines : List Line} {i : Instr} {s s' : State} {q' : Seq} {e : Report}
    (h : Raises lines (Seq.start i) s e q' s') (hw : q'.wpOpen = true) :
    Ends lines (Seq.start i) s (respond q' e (flushCtrl (setSignal .nWP false s'))) := by
  obtain ⟨q₀, s₀, l, h1, h2, h3⟩ := h [] [] rfl
  simp only [List.nil_append, List.append_nil] at h1 h2
  exact h1.ends (.restored h2 h3 hw)

/-- A request that may start and whose whole sequence is a segment completes with its response. -/
theorem completes_of_segment {i : Instr} {s s' t : State} {q' : Seq} (hs : Between s) (ha : requestError i s = none)
    (h : Segment (linesOf i s) (Seq.start i) s q' s') (ht : t = respond q' q'.report s') : CompletesWith i s t :=
  completes_of_ends hs ha (ht ▸ ends_of_segment h)

/-- A request that may start and whose sequence raises an error outside the bracket completes with it (R129). -/
theorem completes_of_raises {i : Instr} {s s' t : State} {q' : Seq} {e : Report} (hs : Between s) (ha : requestError i s = none)
    (h : Raises (linesOf i s) (Seq.start i) s e q' s') (hw : q'.wpOpen = false) (ht : t = respond q' e s') :
    CompletesWith i s t :=
  completes_of_ends hs ha (ht ▸ ends_of_raises h hw)

/-- A request that may start and whose sequence raises an error inside the bracket completes with it after the restore (R129). -/
theorem completes_of_restored {i : Instr} {s s' t : State} {q' : Seq} {e : Report} (hs : Between s) (ha : requestError i s = none)
    (h : Raises (linesOf i s) (Seq.start i) s e q' s') (hw : q'.wpOpen = true)
    (ht : t = respond q' e (flushCtrl (setSignal .nWP false s'))) : CompletesWith i s t :=
  completes_of_ends hs ha (ht ▸ ends_of_restored h hw)

/-! ## Straight segments, computed -/

/-- Performs lines that each go on to the next; `none` if one raises an error or jumps. -/
def straight : List Line → Seq → State → Option (Seq × State)
  | [], q, s => some (q, s)
  | l :: rest, q, s =>
    match runLine l q s with
    | .done q' s' => if q'.step = q.step + 1 then straight rest q' s' else none
    | .raised _ _ _ => none

theorem segment_of_straight {part : List Line} : ∀ {q : Seq} {s : State} {q' : Seq} {s' : State},
    straight part q s = some (q', s') → Segment part q s q' s' := by
  induction part with
  | nil => intro q s q' s' h; simp only [straight, Option.some.injEq, Prod.mk.injEq] at h; rw [← h.1, ← h.2]; exact .nil q s
  | cons l rest ih =>
    intro q s q' s' h
    simp only [straight] at h
    split at h
    · rename_i q₁ s₁ hr
      split at h
      · rename_i hn; exact (Segment.single hr hn).append (ih h)
      · cases h
    · cases h

end Sys2Proof.Machine
end

