-- ==== Sys2Proof/Laws/Segments.lean ====
section
/-! SUPPORT. The segment of each bus operation, of the wait and of the write-protect bracket: what each leaves in the sequencer
state and in the machine's, under exactly the conditions of its rule. -/

namespace Sys2Proof.Machine

/-- `Sleep(t)` appends its event, if it has one (R89). -/
theorem sleep_eq (t : Nat) (s : State) : sleep t s = { s with trace := s.trace ++ delayEvents t } := by
  unfold sleep delayEvents; split <;> simp

/-- The entry checks of LatchCommand pass exactly under `PreCmd` and `dir = Drive` (R92). -/
theorem entryError_lcmd {s : State} (hce : level s.ctrl .nCE = false) (hre : level s.ctrl .nRE = true) (hd : s.dir = .drive) :
    entryError .LCMD s = none := by
  simp [entryError, BusOp.conjuncts, firstFailing, BusOp.drivesData, hce, hre, hd]

theorem entryError_laddr {s : State} (hce : level s.ctrl .nCE = false) (hcle : level s.ctrl .CLE = false)
    (hre : level s.ctrl .nRE = true) (hd : s.dir = .drive) : entryError .LADDR s = none := by
  simp [entryError, BusOp.conjuncts, firstFailing, BusOp.drivesData, hce, hcle, hre, hd]

theorem entryError_lout {s : State} (hce : level s.ctrl .nCE = false) (hwe : level s.ctrl .nWE = true)
    (hale : level s.ctrl .ALE = false) : entryError .LOUT s = none := by
  simp [entryError, BusOp.conjuncts, firstFailing, BusOp.drivesData, hce, hwe, hale]

theorem entryError_ldin {s : State} (hd : s.dir = .drive) : entryError .LDIN s = none := by
  simp [entryError, BusOp.conjuncts, firstFailing, BusOp.drivesData, hd]

/-! ## Bus operations -/

/-- LatchCommand (R93). -/
theorem latchCommand_segment (b : Byte) (q : Seq) (s : State) (hce : level s.ctrl .nCE = false)
    (hre : level s.ctrl .nRE = true) (hd : s.dir = .drive) :
    Segment (latchCommand b) q s { q with step := q.step + 6, k := 0 }
      { s with
        ctrl := commandCtrl s.ctrl, data := b, physCtrl := some (commandCtrl s.ctrl), physData := some b,
        trace := s.trace ++ commandEvents s.ctrl b } := by
  apply segment_of_straight
  simp [straight, latchCommand, runLine, lineCheckEntry, entryError_lcmd hce hre hd, Seq.next, lineFlushData, flushCtrl,
    flushData, setSignals, withLevels, setData, hd, commandCtrl, commandEvents]

/-- The per-byte loop of LatchAddress and LatchDataIn (R94, R96). -/
theorem latchBytes_segment (cfg : Config) (bytes : List Byte) : ∀ (q : Seq) (s : State), s.dir = .drive →
    Segment (latchBytes cfg bytes) q s { q with step := q.step + 6 * bytes.length, k := q.k + bytes.length }
      { s with
        ctrl := latchedCtrl s.ctrl bytes, data := bytes.getLastD s.data,
        physCtrl := if bytes = [] then s.physCtrl else some (pulsed s.ctrl),
        physData := if bytes = [] then s.physData else bytes.getLast?,
        trace := s.trace ++ dataInEvents cfg s.ctrl bytes } := by
  induction bytes with
  | nil => intro q s _; simpa [latchedCtrl, dataInEvents, latchBytes] using Segment.nil q s
  | cons b rest ih =>
    intro q s hd
    have h1 : Segment (latchByteLines cfg b) q s { q with step := q.step + 6, k := q.k + 1 }
        { s with
        ctrl := pulsed s.ctrl, data := b, physCtrl := some (pulsed s.ctrl), physData := some b,
        trace := s.trace ++ latchByteEvents cfg s.ctrl b } := by
      apply segment_of_straight
      simp [straight, latchByteLines, runLine, lineLatchByte, lineByteEnd, Seq.next, lineFlushData, flushCtrl, flushData, setSignals,
        withLevels, setData, hd, pulsed, latchByteEvents, sleep_eq]
    have h2 := ih { q with step := q.step + 6, k := q.k + 1 }
      { s with
        ctrl := pulsed s.ctrl, data := b, physCtrl := some (pulsed s.ctrl), physData := some b,
        trace := s.trace ++ latchByteEvents cfg s.ctrl b } hd
    have hp : pulsed (pulsed s.ctrl) = pulsed s.ctrl := by
      apply ext_levels; intro sig; simp only [pulsed, level_withLevel]; repeat' split <;> simp_all
    have he : latchByteEvents cfg (pulsed s.ctrl) = latchByteEvents cfg s.ctrl := by
      have h3 : withLevel (pulsed s.ctrl) .nWE false = withLevel s.ctrl .nWE false := by simp [pulsed]
      funext x; simp [latchByteEvents, hp, h3]
    have h := h1.append h2
    cases rest with
    | nil => simpa [latchedCtrl, dataInEvents, latchBytes] using h1
    | cons c rest' =>
      simp only [latchedCtrl, dataInEvents, hp, he, reduceCtorEq, if_false] at h
      simp only [latchBytes] at h ⊢
      convert h using 2 <;> simp [latchedCtrl, dataInEvents, List.getLast?_eq_some_getLast (List.cons_ne_nil c rest')] <;> try omega

/-- LatchAddress (R94). -/
theorem latchAddress_segment (cfg : Config) (bytes : List Byte) (q : Seq) (s : State) (hce : level s.ctrl .nCE = false)
    (hcle : level s.ctrl .CLE = false) (hre : level s.ctrl .nRE = true) (hd : s.dir = .drive) :
    Segment (latchAddress cfg bytes) q s { q with step := q.step + 6 * bytes.length + 3, k := bytes.length }
      { s with
        ctrl := addressCtrl s.ctrl bytes, data := bytes.getLastD s.data,
        physCtrl := some (addressCtrl s.ctrl bytes),
        physData := if bytes = [] then s.physData else bytes.getLast?,
        trace := s.trace ++ addressEvents cfg s.ctrl bytes } := by
  have h1 : Segment [.checkEntry .LADDR, .driveCtrl [(.ALE, true)]] q s { q with step := q.step + 2, k := 0 }
      { s with
        ctrl := withLevel s.ctrl .ALE true, physCtrl := some (withLevel s.ctrl .ALE true),
        trace := s.trace ++ [.writeCtrl (withLevel s.ctrl .ALE true)] } := by
    apply segment_of_straight
    simp [straight, runLine, lineCheckEntry, entryError_laddr hce hcle hre hd, Seq.next, flushCtrl, setSignals, withLevels]
  have h2 := h1.append (latchBytes_segment cfg bytes _ _ hd)
  have h3 : ∀ (q : Seq) (s : State), Segment [.driveCtrl [(.ALE, false)]] q s { q with step := q.step + 1 }
      { s with
        ctrl := withLevel s.ctrl .ALE false, physCtrl := some (withLevel s.ctrl .ALE false),
        trace := s.trace ++ [.writeCtrl (withLevel s.ctrl .ALE false)] } := by
    intro q s; apply segment_of_straight
    simp [straight, runLine, Seq.next, flushCtrl, setSignals, withLevels]
  have h := h2.append (h3 _ _)
  unfold latchAddress
  convert h using 1 <;> simp [addressCtrl, addressEvents, latchedCtrl]; omega

/-- LatchDataIn (R96). -/
theorem latchDataIn_segment (cfg : Config) (bytes : List Byte) (q : Seq) (s : State) (hd : s.dir = .drive) :
    Segment (latchDataIn cfg bytes) q s { q with step := q.step + 6 * bytes.length + 1, k := bytes.length }
      { s with
        ctrl := latchedCtrl s.ctrl bytes, data := bytes.getLastD s.data,
        physCtrl := if bytes = [] then s.physCtrl else some (pulsed s.ctrl),
        physData := if bytes = [] then s.physData else bytes.getLast?,
        trace := s.trace ++ dataInEvents cfg s.ctrl bytes } := by
  have h1 : Segment [.checkEntry .LDIN] q s { q with step := q.step + 1, k := 0 } s := by
    apply segment_of_straight
    simp [straight, runLine, lineCheckEntry, entryError_ldin hd, Seq.next]
  have h := h1.append (latchBytes_segment cfg bytes _ _ hd)
  unfold latchDataIn
  convert h using 1 <;> simp; omega

/-- The per-byte loop of LatchRegisterOut, its bytes the environment's next answers (R95). -/
theorem readBytes_segment (cfg : Config) (r : Bool) (n : Nat) : ∀ (q : Seq) (s : State), s.dir = .read →
    (r = true → q.buf.length = q.k) →
    Segment (readBytes cfg r n) q s
      { q with
        step := q.step + 5 * n, k := q.k + n, outbuf := q.outbuf ++ Env.upcoming n s.env,
        buf := if r then q.buf ++ Env.upcoming n s.env else q.buf }
      { s with
        ctrl := if n = 0 then s.ctrl else clocked s.ctrl,
        physCtrl := if n = 0 then s.physCtrl else some (clocked s.ctrl),
        env := Env.after n s.env,
        trace := s.trace ++ (Env.upcoming n s.env).flatMap (readByteEvents cfg s.ctrl) } := by
  induction n with
  | zero => intro q s _ _; simpa [readBytes, Env.upcoming, Env.after] using Segment.nil q s
  | succ n ih =>
    intro q s hd hb
    have h1 : Segment (readByteLines cfg r) q s
        { q with
          step := q.step + 5, k := q.k + 1, outbuf := q.outbuf ++ [Env.sample s.env],
          buf := if r then q.buf ++ [Env.sample s.env] else q.buf }
        { s with
          ctrl := clocked s.ctrl, physCtrl := some (clocked s.ctrl), env := Env.afterSample s.env,
          trace := s.trace ++ readByteEvents cfg s.ctrl (Env.sample s.env) } := by
      apply segment_of_straight
      cases r
      · simp [straight, readByteLines, runLine, lineReadByte, lineByteEnd, Seq.next, adapterRead, flushCtrl, setSignals, withLevels, hd, clocked,
          readByteEvents, sleep_eq, readEvent]
      · have hb' := hb rfl
        simp [straight, readByteLines, runLine, lineReadByte, lineByteEnd, Seq.next, adapterRead, flushCtrl, setSignals, withLevels, hd, clocked,
          readByteEvents, sleep_eq, readEvent, memWrite, ← hb']
    have hc : clocked (clocked s.ctrl) = clocked s.ctrl := by
      apply ext_levels; intro sig; simp only [clocked, level_withLevel]; repeat' split <;> simp_all
    have he : readByteEvents cfg (clocked s.ctrl) = readByteEvents cfg s.ctrl := by
      have h3 : withLevel (clocked s.ctrl) .nRE false = withLevel s.ctrl .nRE false := by simp [clocked]
      funext x; simp [readByteEvents, hc, h3]
    have h := h1.append (ih _ _ hd (by intro hr; simp [hr, hb hr]))
    simp only [hc, he] at h
    unfold readBytes
    refine h.cast ?_ ?_
    · cases r <;> simp [Env.upcoming] <;> omega
    · simp [Env.upcoming, Env.after]

/-- LatchRegisterOut (R95). -/
theorem latchRegisterOut_segment (cfg : Config) (r : Bool) (n : Nat) (q : Seq) (s : State) (hce : level s.ctrl .nCE = false)
    (hwe : level s.ctrl .nWE = true) (hale : level s.ctrl .ALE = false) (hb : r = true → q.buf = []) :
    Segment (latchRegisterOut cfg r n) q s
      { q with
        step := q.step + 5 * n + 3, k := n, outbuf := Env.upcoming n s.env,
        buf := if r then Env.upcoming n s.env else q.buf }
      { s with
        ctrl := if n = 0 then s.ctrl else clocked s.ctrl, dir := .drive,
        physCtrl := if n = 0 then s.physCtrl else some (clocked s.ctrl),
        env := Env.after n s.env,
        trace := s.trace ++ dataOutEvents cfg s.ctrl (Env.upcoming n s.env) } := by
  have h1 : Segment [.checkEntry .LOUT, .setDir .read] q s { q with step := q.step + 2, k := 0, outbuf := [] }
      { s with dir := .read, trace := s.trace ++ [.setDir .read] } := by
    apply segment_of_straight
    simp [straight, runLine, lineCheckEntry, entryError_lout hce hwe hale, Seq.next, setDir, DirSel.toDir]
  have h2 := h1.append (readBytes_segment cfg r n _ _ rfl (by intro hr; simp [hb hr]))
  have h3 : ∀ (q : Seq) (s : State), Segment [.setDir .drive] q s { q with step := q.step + 1 }
      { s with dir := .drive, trace := s.trace ++ [.setDir .drive] } := by
    intro q s; apply segment_of_straight
    simp [straight, runLine, Seq.next, setDir, DirSel.toDir]
  have h := h2.append (h3 _ _)
  unfold latchRegisterOut
  refine h.cast ?_ ?_
  · cases r
    · simp; omega
    · simp [hb rfl]; omega
  · simp [dataOutEvents]

/-! ## The wait -/

theorem ready_false {v : Byte} : ready v = false ↔ level v .RDY = false := Iff.rfl

/-- The wait's loop on the samples `busy` and `last`, from `polls` samples taken (R99). -/
theorem pollLoop_runs (before behind : List Line) (busy : List Byte) (last : Byte) : ∀ (q : Seq) (s : State),
    q.step = before.length + 1 →
    Env.upcoming (busy.length + 1) s.env = busy ++ [last] → (∀ v ∈ busy, ready v = false) → ready last = true →
    (∀ limit, s.cfg.pollLimit = some limit → q.polls + busy.length < limit.val) →
    Runs (before ++ waitWhileBusy ++ behind) q s
      { q with step := q.step + 2, polls := q.polls + busy.length + 1 }
      { s with
        env := Env.after (busy.length + 1) s.env,
        trace := s.trace ++ busy.flatMap (fun v => [.readCtrl v] ++ delayEvents s.cfg.tPollInterval) ++ [.readCtrl last] } := by
  induction busy with
  | nil =>
    intro q s hq hu _ hr _
    simp [Env.upcoming] at hu
    refine .line (l := .poll) (line_at 1 hq rfl) (by simp [runLine, linePoll, hu, hr]; exact ⟨rfl, rfl⟩) ?_
    simpa [adapterRead, readEvent, Env.after, hu] using Runs.refl _ _
  | cons v rest ih =>
    intro q s hq hu hb hr hl
    have hu1 : Env.sample s.env = v := by simp [Env.upcoming] at hu; exact hu.1
    have hu2 : Env.upcoming (rest.length + 1) (Env.afterSample s.env) = rest ++ [last] := by
      simp [Env.upcoming] at hu ⊢; exact hu.2
    have hlim : pollLimitReached s.cfg (q.polls + 1) = false := by
      unfold pollLimitReached
      split
      · rfl
      · rename_i limit h
        have := hl limit h
        simp at this
        simp; omega
    have hv : ready v = false := hb v (by simp)
    refine .line (l := .poll) (line_at 1 hq rfl)
      (by simp only [runLine, linePoll, hu1, hv, hlim]; rfl) ?_
    refine .line (l := .pollInterval) (line_at 2 (by simp only [hq]) rfl) rfl ?_
    have h := ih { q with polls := q.polls + 1 }
      { s with
        env := Env.afterSample s.env, trace := s.trace ++ [.readCtrl v] ++ delayEvents s.cfg.tPollInterval } hq hu2
      (fun x hx => hb x (by simp [hx])) hr
      (by intro limit h; have := hl limit h; simp at this ⊢; omega)
    simp only [sleep_eq, adapterRead, readEvent, hu1]
    refine h.cast (by simp) rfl ?_ ?_
    · simp; omega
    · simp [Env.after]

/-- waitWhileBusy, ending on a ready sample below the safety valve (R99, R100). -/
theorem waitWhileBusy_segment (busy : List Byte) (last : Byte) (q : Seq) (s : State)
    (hu : Env.upcoming (busy.length + 1) s.env = busy ++ [last]) (hw : WaitEnds s.cfg busy last) :
    Segment waitWhileBusy q s { q with step := q.step + 3, polls := busy.length + 1 }
      { s with
        env := Env.after (busy.length + 1) s.env,
        trace := s.trace ++ waitEvents s.cfg busy last } := by
  refine ⟨rfl, fun before behind hb => ?_⟩
  refine .line (l := .waitStart) (line_at 0 hb.symm rfl) rfl ?_
  have h := pollLoop_runs before behind busy last { q with step := q.step + 1, polls := 0 }
    { s with trace := s.trace ++ delayEvents s.cfg.tBusySettle } (by simp [hb]) hu hw.1 hw.2.1
    (by intro limit h; have := hw.2.2 limit h; simpa using this)
  simp only [sleep_eq, Seq.next]
  refine h.cast rfl rfl ?_ ?_
  · simp
  · simp [waitEvents]

/-- The wait's loop on busy samples alone, up to the safety valve (R99, R100). -/
theorem pollLoop_raises (before behind : List Line) (limit : ℕ+) (busy : List Byte) (last : Byte) : ∀ (q : Seq) (s : State),
    q.step = before.length + 1 → s.cfg.pollLimit = some limit →
    Env.upcoming (busy.length + 1) s.env = busy ++ [last] → (∀ v ∈ busy, ready v = false) → ready last = false →
    q.polls + busy.length + 1 = limit.val →
    ∃ q₀ s₀ l, Runs (before ++ waitWhileBusy ++ behind) q s q₀ s₀ ∧ (before ++ waitWhileBusy ++ behind)[q₀.step]? = some l ∧
      runLine l q₀ s₀ = .raised (.timeout limit.val) { q with polls := limit.val }
        { s with
          env := Env.after (busy.length + 1) s.env,
          trace := s.trace ++ busy.flatMap (fun v => [.readCtrl v] ++ delayEvents s.cfg.tPollInterval) ++ [.readCtrl last] } := by
  induction busy with
  | nil =>
    intro q s hq hc hu _ hr hl
    simp [Env.upcoming] at hu hl
    refine ⟨q, s, .poll, .refl _ _, by simp [hq, waitWhileBusy], ?_⟩
    simp [runLine, linePoll, hu, hr, pollLimitReached, hc, hl, adapterRead, readEvent, Env.after]
  | cons v rest ih =>
    intro q s hq hc hu hb hr hl
    have hu1 : Env.sample s.env = v := by simp [Env.upcoming] at hu; exact hu.1
    have hu2 : Env.upcoming (rest.length + 1) (Env.afterSample s.env) = rest ++ [last] := by
      simp [Env.upcoming] at hu ⊢; exact hu.2
    have hlim : pollLimitReached s.cfg (q.polls + 1) = false := by
      simp [pollLimitReached, hc]; simp at hl; omega
    have hv : ready v = false := hb v (by simp)
    obtain ⟨q₀, s₀, l, h1, h2, h3⟩ := ih { q with polls := q.polls + 1 }
      { s with
        env := Env.afterSample s.env, trace := s.trace ++ [.readCtrl v] ++ delayEvents s.cfg.tPollInterval } hq hc hu2
      (fun x hx => hb x (by simp [hx])) hr (by simp at hl ⊢; omega)
    refine ⟨q₀, s₀, l, .line (l := .poll) (line_at 1 hq rfl)
      (by simp only [runLine, linePoll, hu1, hv, hlim]; rfl) (.line (l := .pollInterval) (line_at 2 (by simp only [hq]) rfl) rfl ?_),
      h2, ?_⟩
    · simp only [sleep_eq, adapterRead, readEvent, hu1]
      exact h1.cast (by simp) rfl rfl rfl
    · rw [h3]; simp [Env.after]

/-- waitWhileBusy with the safety valve set, on busy samples alone: `Timeout` on sample number `POLL_LIMIT` (R99, R100). -/
theorem waitWhileBusy_raises (limit : ℕ+) (busy : List Byte) (last : Byte) (q : Seq) (s : State)
    (hc : s.cfg.pollLimit = some limit) (hu : Env.upcoming limit.val s.env = busy ++ [last])
    (hb : ∀ v ∈ busy, ready v = false) (hr : ready last = false) :
    Raises waitWhileBusy q s (.timeout limit.val) { q with step := q.step + 1, polls := limit.val }
      { s with
        env := Env.after limit.val s.env, trace := s.trace ++ waitEvents s.cfg busy last } := by
  have hlen : ∀ n (e : Env), (Env.upcoming n e).length = n := by
    intro n; induction n with
    | zero => intro e; rfl
    | succ n ih => intro e; simp [Env.upcoming, ih]
  have hl : limit.val = busy.length + 1 := by have := congrArg List.length hu; simpa [hlen] using this
  intro before behind hbefore
  rw [hl] at hu
  obtain ⟨q₀, s₀, l, h1, h2, h3⟩ := pollLoop_raises before behind limit busy last { q with step := q.step + 1, polls := 0 }
    { s with trace := s.trace ++ delayEvents s.cfg.tBusySettle } (by simp [hbefore]) hc hu hb hr (by simp [hl])
  refine ⟨q₀, s₀, l, .line (l := .waitStart) (line_at 0 hbefore.symm rfl) rfl ?_, h2, ?_⟩
  · simp only [sleep_eq, Seq.next]; exact h1
  · rw [h3]; simp [waitEvents, hl]

/-! ## The write-protect bracket -/

/-- Each half of the bracket (R114). -/
theorem writeProtect_segment (off : Bool) (q : Seq) (s : State) :
    Segment [.writeProtect off] q s { q with step := q.step + 1, wpOpen := off }
      { s with
        ctrl := withLevel s.ctrl .nWP off, physCtrl := some (withLevel s.ctrl .nWP off),
        trace := s.trace ++ [.writeCtrl (withLevel s.ctrl .nWP off)] } :=
  Segment.single rfl rfl

end Sys2Proof.Machine
end

