-- ==== Sys2Proof/Laws/ChipSegments.lean ====
section
/-! SUPPORT. The segments of the chip operations and of the range elements from an idle control byte (R98, R117). -/

namespace Sys2Proof.Machine

/-! ## The idle control byte -/

/-- The levels every bus operation needs and restores (R31, R98); nWP and AUX are free. -/
structure BusIdle (c : Byte) : Prop where
  cle : level c .CLE = false
  ale : level c .ALE = false
  nce : level c .nCE = false
  nwe : level c .nWE = true
  nre : level c .nRE = true

theorem Idle.busIdle {s : State} (h : Idle s) : BusIdle s.ctrl := ⟨h.1, h.2.1, h.2.2.1, h.2.2.2.1, h.2.2.2.2.1⟩

theorem Idle.dir_eq {s : State} (h : Idle s) : s.dir = .drive := h.2.2.2.2.2.2.1

theorem Idle.physCtrl_eq {s : State} (h : Idle s) : s.physCtrl = some s.ctrl := h.2.2.2.2.2.2.2.1

theorem Idle.physData_eq {s : State} (h : Idle s) : s.physData = some s.data := h.2.2.2.2.2.2.2.2

/-- nWP is free in the idle control byte. -/
theorem BusIdle.withWP {c : Byte} (h : BusIdle c) (b : Bool) : BusIdle (withLevel c .nWP b) := by
  constructor <;> simp [h.cle, h.ale, h.nce, h.nwe, h.nre]

theorem BusIdle.pulsed_eq {c : Byte} (h : BusIdle c) : pulsed c = c := by
  simp only [pulsed, withLevel_withLevel_same]; exact withLevel_self c .nWE h.nwe

theorem BusIdle.commandCtrl_eq {c : Byte} (h : BusIdle c) : commandCtrl c = c := by
  apply ext_levels; intro sig; simp only [commandCtrl, level_withLevel]
  cases sig <;> simp [h.cle, h.nwe]

theorem BusIdle.latchedCtrl_eq {c : Byte} (h : BusIdle c) (bytes : List Byte) : latchedCtrl c bytes = c := by
  unfold latchedCtrl; split <;> simp [h.pulsed_eq]

theorem BusIdle.addressCtrl_eq {c : Byte} (h : BusIdle c) (bytes : List Byte) : addressCtrl c bytes = c := by
  apply ext_levels; intro sig
  simp only [addressCtrl, latchedCtrl]
  split <;> simp only [pulsed, level_withLevel] <;> cases sig <;> simp [h.ale, h.nwe]

theorem BusIdle.clocked_eq {c : Byte} (h : BusIdle c) : clocked c = c := by
  simp only [clocked, withLevel_withLevel_same]; exact withLevel_self c .nRE h.nre

/-! ## Bus operations from the idle control byte: the mirror ends as it began (R98) -/

theorem idle_command (b : Byte) (q : Seq) (s : State) (h : BusIdle s.ctrl) (hd : s.dir = .drive) :
    Segment (latchCommand b) q s { q with step := q.step + 6, k := 0 }
      { s with
        data := b, physCtrl := some s.ctrl, physData := some b, trace := s.trace ++ commandEvents s.ctrl b } := by
  have h1 := latchCommand_segment b q s h.nce h.nre hd
  simpa only [h.commandCtrl_eq] using h1

theorem idle_address (cfg : Config) (bytes : List Byte) (hn : bytes ≠ []) (q : Seq) (s : State) (h : BusIdle s.ctrl)
    (hd : s.dir = .drive) :
    Segment (latchAddress cfg bytes) q s { q with step := q.step + 6 * bytes.length + 3, k := bytes.length }
      { s with
        data := bytes.getLast hn, physCtrl := some s.ctrl, physData := some (bytes.getLast hn),
        trace := s.trace ++ addressEvents cfg s.ctrl bytes } := by
  have h1 := latchAddress_segment cfg bytes q s h.nce h.cle h.nre hd
  simpa [h.addressCtrl_eq, hn, List.getLast?_eq_some_getLast hn] using h1

theorem idle_dataIn (cfg : Config) (bytes : List Byte) (q : Seq) (s : State) (h : BusIdle s.ctrl) (hd : s.dir = .drive)
    (hpc : s.physCtrl = some s.ctrl) (hpd : s.physData = some s.data) :
    Segment (latchDataIn cfg bytes) q s { q with step := q.step + 6 * bytes.length + 1, k := bytes.length }
      { s with
        data := bytes.getLastD s.data, physData := some (bytes.getLastD s.data),
        trace := s.trace ++ dataInEvents cfg s.ctrl bytes } := by
  have h1 := latchDataIn_segment cfg bytes q s hd
  refine h1.cast rfl ?_
  by_cases hb : bytes = []
  · simp [hb, latchedCtrl, hpd]
  · simp [hb, latchedCtrl, h.pulsed_eq, hpc, List.getLast?_eq_some_getLast hb]

theorem idle_dataOut (cfg : Config) (r : Bool) (n : Nat) (q : Seq) (s : State) (h : BusIdle s.ctrl) (hd : s.dir = .drive)
    (hpc : s.physCtrl = some s.ctrl) (hb : r = true → q.buf = []) :
    Segment (latchRegisterOut cfg r n) q s
      { q with
        step := q.step + 5 * n + 3, k := n, outbuf := Env.upcoming n s.env, buf := if r then Env.upcoming n s.env else q.buf }
      { s with env := Env.after n s.env, trace := s.trace ++ dataOutEvents cfg s.ctrl (Env.upcoming n s.env) } := by
  have h1 := latchRegisterOut_segment cfg r n q s h.nce h.nwe h.ale hb
  refine h1.cast rfl ?_
  by_cases hn : n = 0 <;> simp [hn, h.clocked_eq, hd, hpc]

/-! ## Draws -/

theorem upcoming_length (n : Nat) : ∀ e : Env, (Env.upcoming n e).length = n := by
  induction n with
  | zero => intro e; rfl
  | succ n ih => intro e; simp [Env.upcoming, ih]

/-- The answers to `m + n` reads are those to `m`, then those to the next `n`. -/
theorem upcoming_add (m n : Nat) : ∀ e : Env, Env.upcoming (m + n) e = Env.upcoming m e ++ Env.upcoming n (Env.after m e) := by
  induction m with
  | zero => intro e; simp [Env.upcoming, Env.after]
  | succ m ih => intro e; rw [Nat.succ_add]; simp [Env.upcoming, Env.after, ih]

theorem after_add (m n : Nat) : ∀ e : Env, Env.after (m + n) e = Env.after n (Env.after m e) := by
  induction m with
  | zero => intro e; simp [Env.after]
  | succ m ih => intro e; rw [Nat.succ_add]; simp [Env.after, ih]

/-- Answers listed in two parts are the answers of the two parts in turn. -/
theorem upcoming_split {a b : List Byte} {e : Env} (h : Env.upcoming (a.length + b.length) e = a ++ b) :
    Env.upcoming a.length e = a ∧ Env.upcoming b.length (Env.after a.length e) = b := by
  rw [upcoming_add] at h
  exact List.append_inj h (by simp [upcoming_length])

theorem toAddressCycles_ne_nil (p c : Nat) : toAddressCycles p c ≠ [] := by simp [toAddressCycles]

theorem rowBytes_ne_nil (p : Nat) : rowBytes p ≠ [] := by simp [rowBytes, toAddressCycles]

/-! ## Chip operations -/

/-- ReadPage up to its `MemWrite` (R110). -/
theorem readPage_segment (r : Bool) (page : Nat) (busy : List Byte) (last : Byte) (bytes : List Byte) (q : Seq) (s : State)
    (h : BusIdle s.ctrl) (hd : s.dir = .drive) (hw : WaitEnds s.cfg busy last)
    (hu : Env.upcoming ((busy ++ [last]).length + bytes.length) s.env = (busy ++ [last]) ++ bytes)
    (hn : bytes.length = s.cfg.pageSize) (hb : r = true → q.buf = []) :
    Segment (readPageSequence s.cfg r page) q s
      { q with
        step := q.step + (readPageSequence s.cfg r page).length, k := bytes.length, polls := busy.length + 1, outbuf := bytes,
        buf := if r then bytes else q.buf }
      { s with
        data := s.cfg.cmdRead1Confirm, physCtrl := some s.ctrl, physData := some s.cfg.cmdRead1Confirm,
        env := Env.after ((busy ++ [last]).length + bytes.length) s.env,
        trace := s.trace ++ readPageEvents s.cfg s.ctrl page busy last bytes } := by
  obtain ⟨hu1, hu2⟩ := upcoming_split hu
  have e1 := idle_command s.cfg.cmdRead1First q s h hd
  have e2 := e1.append (idle_address s.cfg (toAddressCycles page 0) (toAddressCycles_ne_nil _ _) _ _ h hd)
  have e3 := e2.append (idle_command s.cfg.cmdRead1Confirm _ _ h hd)
  have e4 := e3.append (waitWhileBusy_segment busy last _ _ (by simpa using hu1) hw)
  have e5 := e4.append (idle_dataOut s.cfg r s.cfg.pageSize _ _ h hd rfl (by simpa using hb))
  have hu3 : Env.upcoming s.cfg.pageSize (Env.after (busy.length + 1) s.env) = bytes := by
    rw [← hn]; simpa using hu2
  have hlen : q.step + (readPageSequence s.cfg r page).length = _ := e5.1.symm
  refine e5.cast ?_ ?_
  · rw [hlen]; simp [hu3, hn]
  · simp [hu3, hn, readPageEvents, readPageWaitEvents, ← after_add]

/-- EraseBlock up to the end of its wait (R111). -/
theorem eraseWait_segment (block : Nat) (busy : List Byte) (last : Byte) (q : Seq) (s : State)
    (h : BusIdle s.ctrl) (hd : s.dir = .drive) (hw : WaitEnds s.cfg busy last)
    (hu : Env.upcoming (busy.length + 1) s.env = busy ++ [last]) :
    Segment ([.writeProtect true] ++ latchCommand s.cfg.cmdEraseFirst
        ++ latchAddress s.cfg (rowBytes (block * s.cfg.pagesPerBlock)) ++ latchCommand s.cfg.cmdEraseConfirm ++ waitWhileBusy) q s
      { q with step := q.step + 37, k := 0, polls := busy.length + 1, wpOpen := true }
      { s with
        ctrl := withLevel s.ctrl .nWP true, data := s.cfg.cmdEraseConfirm, physCtrl := some (withLevel s.ctrl .nWP true),
        physData := some s.cfg.cmdEraseConfirm, env := Env.after (busy.length + 1) s.env,
        trace := s.trace ++ eraseWaitEvents s.cfg s.ctrl block busy last } := by
  have h' := h.withWP true
  have e1 := writeProtect_segment true q s
  have e2 := e1.append (idle_command s.cfg.cmdEraseFirst _ _ h' hd)
  have e3 := e2.append (idle_address s.cfg (rowBytes (block * s.cfg.pagesPerBlock)) (rowBytes_ne_nil _) _ _ h' hd)
  have e4 := e3.append (idle_command s.cfg.cmdEraseConfirm _ _ h' hd)
  have e5 := e4.append (waitWhileBusy_segment busy last _ _ (by simpa using hu) hw)
  refine e5.cast ?_ ?_
  · simp [rowBytes, toAddressCycles]
  · simp [eraseWaitEvents]

/-- ProgramPage up to the end of its wait (R112). -/
theorem programWait_segment (page : Nat) (bytes busy : List Byte) (last : Byte) (q : Seq) (s : State)
    (h : BusIdle s.ctrl) (hd : s.dir = .drive) (hw : WaitEnds s.cfg busy last)
    (hu : Env.upcoming (busy.length + 1) s.env = busy ++ [last]) :
    Segment ([.writeProtect true] ++ latchCommand s.cfg.cmdProgramFirst ++ latchAddress s.cfg (toAddressCycles page 0)
        ++ latchDataIn s.cfg bytes ++ latchCommand s.cfg.cmdProgramConfirm ++ waitWhileBusy) q s
      { q with step := q.step + 50 + 6 * bytes.length, k := 0, polls := busy.length + 1, wpOpen := true }
      { s with
        ctrl := withLevel s.ctrl .nWP true, data := s.cfg.cmdProgramConfirm, physCtrl := some (withLevel s.ctrl .nWP true),
        physData := some s.cfg.cmdProgramConfirm, env := Env.after (busy.length + 1) s.env,
        trace := s.trace ++ programWaitEvents s.cfg s.ctrl page bytes busy last } := by
  have h' := h.withWP true
  have e1 := writeProtect_segment true q s
  have e2 := e1.append (idle_command s.cfg.cmdProgramFirst _ _ h' hd)
  have e3 := e2.append (idle_address s.cfg (toAddressCycles page 0) (toAddressCycles_ne_nil _ _) _ _ h' hd)
  have e4 := e3.append (idle_dataIn s.cfg bytes _ _ h' hd rfl rfl)
  have e5 := e4.append (idle_command s.cfg.cmdProgramConfirm _ _ h' hd)
  have e6 := e5.append (waitWhileBusy_segment busy last _ _ (by simpa using hu) hw)
  refine e6.cast ?_ ?_
  · simp [toAddressCycles]; omega
  · simp [programWaitEvents]

/-- The status read and write protect back on, from an open bracket (R111, R112). -/
theorem statusTail_segment (r : Bool) (status : Byte) (q : Seq) (s : State) (h : BusIdle s.ctrl) (hd : s.dir = .drive)
    (hu : Env.sample s.env = status) (hb : r = true → q.buf = []) :
    Segment (statusTail s.cfg r) q s
      { q with
        step := q.step + (statusTail s.cfg r).length, k := 1, outbuf := [status], status := some status, wpOpen := false,
        buf := if r then [status] else q.buf }
      { s with
        ctrl := withLevel s.ctrl .nWP false, data := s.cfg.cmdReadStatus, physCtrl := some (withLevel s.ctrl .nWP false),
        physData := some s.cfg.cmdReadStatus, env := Env.afterSample s.env,
        trace := s.trace ++ statusEvents s.cfg s.ctrl status } := by
  have e1 := idle_command s.cfg.cmdReadStatus q s h hd
  have e2 := e1.append (idle_dataOut s.cfg r 1 _ _ h hd rfl (by simpa using hb))
  have e3 := e2.append (Segment.single (l := .takeStatus) rfl rfl)
  have e4 := e3.append (writeProtect_segment false _ _)
  cases r with
  | false =>
    refine Segment.cast (part := statusTail s.cfg false) (by simpa [statusTail] using e4) ?_ ?_
    · simp [Env.upcoming, hu, statusTail, latchCommand, latchRegisterOut, readBytes, readByteLines]
    · simp [Env.upcoming, hu, Env.after, statusEvents]
  | true =>
    have e5 := e4.append (Segment.single (l := .storeStatus) rfl rfl)
    refine Segment.cast (part := statusTail s.cfg true) (by simpa [statusTail] using e5) ?_ ?_
    · simp [Seq.next, Env.upcoming, hu, statusTail, latchCommand, latchRegisterOut, readBytes, readByteLines, memWrite]
    · simp [Env.upcoming, hu, Env.after, statusEvents]

/-- The answers of an erase or program: its wait's samples, then the status. -/
theorem status_answers {v : StatusVisit} {s : State} (hu : Env.upcoming v.answers.length s.env = v.answers) :
    Env.upcoming (v.busy.length + 1) s.env = v.busy ++ [v.last] ∧ Env.sample (Env.after (v.busy.length + 1) s.env) = v.status := by
  have := upcoming_split (a := v.busy ++ [v.last]) (b := [v.status]) (e := s.env) (by simpa [StatusVisit.answers] using hu)
  simpa [Env.upcoming] using this

/-- EraseBlock up to its status test (R111). -/
theorem eraseBody_segment (r : Bool) (block : Nat) (v : StatusVisit) (q : Seq) (s : State)
    (h : BusIdle s.ctrl) (hd : s.dir = .drive) (hw : WaitEnds s.cfg v.busy v.last)
    (hu : Env.upcoming v.answers.length s.env = v.answers) (hb : r = true → q.buf = []) :
    ∃ st, Segment ([.writeProtect true] ++ latchCommand s.cfg.cmdEraseFirst
        ++ latchAddress s.cfg (rowBytes (block * s.cfg.pagesPerBlock)) ++ latchCommand s.cfg.cmdEraseConfirm ++ waitWhileBusy ++ statusTail s.cfg r) q s
      { q with
        step := st, k := 1, polls := v.busy.length + 1, outbuf := [v.status], status := some v.status, wpOpen := false,
        buf := if r then [v.status] else q.buf }
      { s with
        ctrl := withLevel s.ctrl .nWP false, data := s.cfg.cmdReadStatus, physCtrl := some (withLevel s.ctrl .nWP false),
        physData := some s.cfg.cmdReadStatus, env := Env.after v.answers.length s.env,
        trace := s.trace ++ eraseEvents s.cfg s.ctrl block v.busy v.last v.status } := by
  obtain ⟨h1, h2⟩ := status_answers hu
  have e1 := eraseWait_segment block v.busy v.last q s h hd hw h1
  have e2 := e1.append (statusTail_segment r v.status _ _ (h.withWP true) hd h2 hb)
  refine ⟨_, e2.cast rfl ?_⟩
  have : v.answers.length = v.busy.length + 1 + 1 := by simp [StatusVisit.answers]
  simp [eraseEvents, this, after_add _ 1, Env.after]

/-- ProgramPage up to its status test (R112). -/
theorem programBody_segment (r : Bool) (page : Nat) (bytes : List Byte) (v : StatusVisit) (q : Seq) (s : State)
    (h : BusIdle s.ctrl) (hd : s.dir = .drive) (hw : WaitEnds s.cfg v.busy v.last)
    (hu : Env.upcoming v.answers.length s.env = v.answers) (hb : r = true → q.buf = []) :
    ∃ st, Segment ([.writeProtect true] ++ latchCommand s.cfg.cmdProgramFirst ++ latchAddress s.cfg (toAddressCycles page 0)
        ++ latchDataIn s.cfg bytes ++ latchCommand s.cfg.cmdProgramConfirm ++ waitWhileBusy ++ statusTail s.cfg r) q s
      { q with
        step := st, k := 1, polls := v.busy.length + 1, outbuf := [v.status], status := some v.status, wpOpen := false,
        buf := if r then [v.status] else q.buf }
      { s with
        ctrl := withLevel s.ctrl .nWP false, data := s.cfg.cmdReadStatus, physCtrl := some (withLevel s.ctrl .nWP false),
        physData := some s.cfg.cmdReadStatus, env := Env.after v.answers.length s.env,
        trace := s.trace ++ programEvents s.cfg s.ctrl page bytes v.busy v.last v.status } := by
  obtain ⟨h1, h2⟩ := status_answers hu
  have e1 := programWait_segment page bytes v.busy v.last q s h hd hw h1
  have e2 := e1.append (statusTail_segment r v.status _ _ (h.withWP true) hd h2 hb)
  refine ⟨_, e2.cast rfl ?_⟩
  have : v.answers.length = v.busy.length + 1 + 1 := by simp [StatusVisit.answers]
  simp [programEvents, this, after_add _ 1, Env.after]

/-! ## The status tests (R115) -/

theorem testErase_segment (block : Nat) {q : Seq} {s : State} {status : Byte} (hq : q.status = some status)
    (hb : status.getLsbD 0 = false) : Segment [.testErase block] q s q.next s :=
  Segment.single (by simp only [runLine, lineTestStatus, hq, statusFailed, hb]; rfl) rfl

theorem testErase_raises (block : Nat) {q : Seq} {s : State} {status : Byte} (hq : q.status = some status)
    (hb : status.getLsbD 0 = true) : Raises [.testErase block] q s (.eraseFailed block status) q s :=
  Raises.single (by simp only [runLine, lineTestStatus, hq, statusFailed, hb]; rfl)

theorem testProgram_segment (page : Nat) {q : Seq} {s : State} {status : Byte} (hq : q.status = some status)
    (hb : status.getLsbD 0 = false) : Segment [.testProgram page] q s q.next s :=
  Segment.single (by simp only [runLine, lineTestStatus, hq, statusFailed, hb]; rfl) rfl

theorem testProgram_raises (page : Nat) {q : Seq} {s : State} {status : Byte} (hq : q.status = some status)
    (hb : status.getLsbD 0 = true) : Raises [.testProgram page] q s (.programFailed page status) q s :=
  Raises.single (by simp only [runLine, lineTestStatus, hq, statusFailed, hb]; rfl)

end Sys2Proof.Machine
end

