-- ==== Sys2Proof/Laws/Decode.lean ====
section
/-! SUPPORT. The fields of a descriptor, and what the decoder accepts (R68 to R77). -/

namespace Sys2Proof

@[simp] theorem Descriptor.op_ofFields (op imm : Byte) (a b : Field24) :
    Descriptor.op (Descriptor.ofFields op imm a b) = op := by
  simp only [Descriptor.op, Descriptor.ofFields]
  apply BitVec.eq_of_getLsbD_eq
  intro k hk
  rw [BitVec.getLsbD_extractLsb', BitVec.getLsbD_append]
  simp [hk]

@[simp] theorem Descriptor.imm_ofFields (op imm : Byte) (a b : Field24) :
    Descriptor.imm (Descriptor.ofFields op imm a b) = imm := by
  simp only [Descriptor.imm, Descriptor.ofFields]
  apply BitVec.eq_of_getLsbD_eq
  intro k hk
  rw [BitVec.getLsbD_extractLsb', BitVec.getLsbD_append, BitVec.getLsbD_append]
  simp [hk]

@[simp] theorem Descriptor.fieldA_ofFields (op imm : Byte) (a b : Field24) :
    Descriptor.fieldA (Descriptor.ofFields op imm a b) = a := by
  simp only [Descriptor.fieldA, Descriptor.ofFields]
  apply BitVec.eq_of_getLsbD_eq
  intro k hk
  rw [BitVec.getLsbD_extractLsb', BitVec.getLsbD_append, BitVec.getLsbD_append, BitVec.getLsbD_append]
  have h1 : ¬ (16 + k < 8) := by omega
  have h2 : ¬ (16 + k - 8 < 8) := by omega
  have h3 : (16 + k - 8 - 8) = k := by omega
  simp [h1, h2, h3, hk]

@[simp] theorem Descriptor.fieldB_ofFields (op imm : Byte) (a b : Field24) :
    Descriptor.fieldB (Descriptor.ofFields op imm a b) = b := by
  simp only [Descriptor.fieldB, Descriptor.ofFields]
  apply BitVec.eq_of_getLsbD_eq
  intro k hk
  rw [BitVec.getLsbD_extractLsb', BitVec.getLsbD_append, BitVec.getLsbD_append, BitVec.getLsbD_append]
  have h1 : ¬ (40 + k < 8) := by omega
  have h2 : ¬ (40 + k - 8 < 8) := by omega
  have h3 : (40 + k - 8 - 8 - 24) = k := by omega
  have h4 : ¬ (40 + k - 8 - 8 < 24) := by omega
  simp [h1, h2, h3, h4, hk]

/-- A descriptor is its four fields (R69). -/
theorem Descriptor.ofFields_fields (w : Descriptor) :
    Descriptor.ofFields (Descriptor.op w) (Descriptor.imm w) (Descriptor.fieldA w) (Descriptor.fieldB w) = w := by
  simp only [Descriptor.fieldA, Descriptor.fieldB, Descriptor.op, Descriptor.imm, Descriptor.ofFields]
  apply BitVec.eq_of_getLsbD_eq
  intro k hk
  simp only [BitVec.getLsbD_append, BitVec.getLsbD_extractLsb']
  split
  · simp; omega
  · split
    · have : 8 + (k - 8) = k := by omega
      simp [this]; omega
    · split
      · have : 16 + (k - 8 - 8) = k := by omega
        simp [this]; omega
      · have : 40 + (k - 8 - 8 - 24) = k := by omega
        simp [this]; omega

/-- An appended bit vector, as a number. -/
theorem toNat_append_sum {m n : Nat} (x : BitVec m) (y : BitVec n) : (x ++ y).toNat = x.toNat * 2 ^ n + y.toNat := by
  rw [BitVec.toNat_append, ← Nat.shiftLeft_add_eq_or_of_lt y.isLt, Nat.shiftLeft_eq]

/-- The little-endian bytes of a descriptor read back as it (R68), whatever follows them. -/
theorem Descriptor.ofBytes_toBytes (w : Descriptor) (rest : List Byte) :
    Descriptor.ofBytes (Descriptor.toBytes w ++ rest) = some w := by
  simp only [Descriptor.toBytes, List.cons_append, Descriptor.ofBytes, Option.some.injEq]
  apply BitVec.eq_of_toNat_eq
  have h := w.isLt
  simp only [toNat_append_sum, BitVec.extractLsb'_toNat, Nat.shiftRight_eq_div_pow]
  omega

/-- The opcode map is injective (R70). -/
theorem Mnemonic.ofOpcode_opcode (m : Mnemonic) : Mnemonic.ofOpcode m.opcode = some m := by
  cases m <;> decide

/-- A row found by its opcode has it. -/
theorem Mnemonic.ofOpcode_some {op : Byte} {m : Mnemonic} (h : Mnemonic.ofOpcode op = some m) : m.opcode = op := by
  have := List.find?_some h
  simpa using this

/-- Building from an instruction's own fields gives it back. -/
theorem Mnemonic.build_fields (i : Instr) : i.mnemonic.build i.immField i.aField i.bField = i := by
  cases i with
  | setpin bus pin value =>
    cases bus <;> cases value <;> revert pin <;> decide
  | flush bus => cases bus <;> decide
  | sample bus => cases bus <;> decide
  | setdir d => cases d <;> decide
  | _ => rfl

/-- An instruction encodes zero in every reserved field (R77). -/
theorem Instr.reservedZero (i : Instr) : i.mnemonic.format.reservedZero i.immField i.aField i.bField = true := by
  cases i with
  | setpin bus pin value =>
    cases bus <;> cases value <;> revert pin <;> decide
  | flush bus => cases bus <;> decide
  | sample bus => cases bus <;> decide
  | setdir d => cases d <;> decide
  | _ => rfl

/-- An accepted row's free fields are those its instruction encodes. -/
theorem Mnemonic.build_fields_back (m : Mnemonic) (imm : Byte) (a b : Field24) (h : m.format.reservedZero imm a b = true) :
    (m.build imm a b).mnemonic = m ∧ (m.build imm a b).immField = imm ∧ (m.build imm a b).aField = a ∧
      (m.build imm a b).bField = b := by
  cases m <;> simp only [Mnemonic.format, Format.reservedZero, Bool.and_eq_true, beq_iff_eq] at h <;>
    simp only [Mnemonic.build, Instr.mnemonic, Instr.immField, Instr.aField, Instr.bField, true_and, and_true, h]
  all_goals (obtain ⟨⟨h, -⟩, -⟩ := h; revert imm; decide)

/-- What an accepted descriptor is. -/
theorem decode_ok {w : Descriptor} {i : Instr} (h : decode w = .ok i) :
    ∃ m : Mnemonic, m.opcode = Descriptor.op w ∧
      m.format.reservedZero (Descriptor.imm w) (Descriptor.fieldA w) (Descriptor.fieldB w) = true ∧
      i = m.build (Descriptor.imm w) (Descriptor.fieldA w) (Descriptor.fieldB w) ∧ i.wellFormed = true := by
  simp only [decode] at h
  split at h
  · cases h
  · rename_i m hm
    split at h
    · split at h
      · cases h; exact ⟨m, Mnemonic.ofOpcode_some hm, ‹_›, rfl, ‹_›⟩
      · cases h
    · cases h

/-- When a descriptor is accepted: some row has its opcode, its reserved fields are zero, and the pin is not RDY. -/
theorem decode_of_row {w : Descriptor} (m : Mnemonic) (ho : m.opcode = Descriptor.op w)
    (hz : m.format.reservedZero (Descriptor.imm w) (Descriptor.fieldA w) (Descriptor.fieldB w) = true)
    (hw : (m.build (Descriptor.imm w) (Descriptor.fieldA w) (Descriptor.fieldB w)).wellFormed = true) :
    decode w = .ok (m.build (Descriptor.imm w) (Descriptor.fieldA w) (Descriptor.fieldB w)) := by
  simp only [decode, ← ho, Mnemonic.ofOpcode_opcode, hz, hw, if_true]

/-- The descriptor a rejection names is the rejected one. -/
theorem decode_error {w : Descriptor} {e : DecodeError} (h : decode w = .error e) : e.descriptor = some w := by
  simp only [decode] at h
  split at h
  · cases h; rfl
  · split at h
    · split at h
      · cases h
      · cases h; rfl
    · cases h; rfl

/-- A mask acts on the four fields. -/
theorem Descriptor.ofFields_and (o i o' i' : Byte) (a b a' b' : Field24) :
    Descriptor.ofFields o i a b &&& Descriptor.ofFields o' i' a' b' =
      Descriptor.ofFields (o &&& o') (i &&& i') (a &&& a') (b &&& b') := by
  unfold Descriptor.ofFields
  have ap : ∀ {m n : Nat} (x x' : BitVec m) (y y' : BitVec n), (x ++ y) &&& (x' ++ y') = (x &&& x') ++ (y &&& y') := by
    intro m n x x' y y'
    apply BitVec.eq_of_getLsbD_eq; intro k hk
    simp only [BitVec.getLsbD_and, BitVec.getLsbD_append]
    split <;> rfl
  exact (ap _ _ _ _).trans (by rw [ap, ap])

/-- A descriptor is given by its four fields (R69). -/
theorem Descriptor.ofFields_inj {o i o' i' : Byte} {a b a' b' : Field24} :
    Descriptor.ofFields o i a b = Descriptor.ofFields o' i' a' b' ↔ o = o' ∧ i = i' ∧ a = a' ∧ b = b' := by
  constructor
  · intro h
    refine ⟨?_, ?_, ?_, ?_⟩
    · simpa using congrArg Descriptor.op h
    · simpa using congrArg Descriptor.imm h
    · simpa using congrArg Descriptor.fieldA h
    · simpa using congrArg Descriptor.fieldB h
  · rintro ⟨rfl, rfl, rfl, rfl⟩; rfl

/-- The mask of a format frees the fields that R77 lets be non-zero. -/
theorem Mnemonic.mask_fields (m : Mnemonic) : ∃ i a b,
    m.format.mask = Descriptor.ofFields 0xFF i a b ∧
    m.pattern = Descriptor.ofFields m.opcode 0 0 0 ∧
    ∀ i' a' b', (i' &&& i = 0 ∧ a' &&& a = 0 ∧ b' &&& b = 0) ↔ m.format.reservedZero i' a' b' = true := by
  have one : ∀ x : Field24, x &&& 0xFFFFFF#24 = x := fun x => BitVec.and_allOnes
  have one8 : ∀ x : Byte, x &&& 0xFF#8 = x := fun x => BitVec.and_allOnes
  have h5 : ∀ x : Byte, x &&& 0xE0#8 = 0 ↔ x.extractLsb' 5 3 = 0 := by decide
  have h7 : ∀ x : Byte, x &&& 0xFE#8 = 0 ↔ x.extractLsb' 1 7 = 0 := by decide
  have key : ∀ f : Format, ∃ i a b, f.mask = Descriptor.ofFields 0xFF i a b ∧
    ∀ i' a' b', (i' &&& i = 0 ∧ a' &&& a = 0 ∧ b' &&& b = 0) ↔ f.reservedZero i' a' b' = true := by
    intro f
    cases f
    · refine ⟨0xFF, 0xFFFFFF, 0xFFFFFF, by decide, fun i a b => ?_⟩
      simp [Format.reservedZero, one, one8, and_assoc]
    · refine ⟨0x00, 0xFFFFFF, 0xFFFFFF, by decide, fun i a b => ?_⟩
      simp [Format.reservedZero, one]
    · refine ⟨0xE0, 0xFFFFFF, 0xFFFFFF, by decide, fun i a b => ?_⟩
      have := h5 i; simp at this
      simp [Format.reservedZero, one, and_assoc, this]
    · refine ⟨0xFE, 0xFFFFFF, 0xFFFFFF, by decide, fun i a b => ?_⟩
      have := h7 i; simp at this
      simp [Format.reservedZero, one, and_assoc, this]
    · refine ⟨0xFF, 0x000000, 0xFFFFFF, by decide, fun i a b => ?_⟩
      simp [Format.reservedZero, one, one8]
    · refine ⟨0xFF, 0xFFFFFF, 0x000000, by decide, fun i a b => ?_⟩
      simp [Format.reservedZero, one, one8]
    · refine ⟨0xFF, 0x000000, 0x000000, by decide, fun i a b => ?_⟩
      simp [Format.reservedZero, one8]
  obtain ⟨i, a, b, h1, h2⟩ := key m.format
  refine ⟨i, a, b, h1, ?_, h2⟩
  cases m <;> decide

/-- The mask and match test of a row is: its opcode, and every reserved field zero (R75, R77). -/
theorem Mnemonic.mask_match (m : Mnemonic) (w : Descriptor) :
    w &&& m.format.mask = m.pattern ↔
    Descriptor.op w = m.opcode ∧ m.format.reservedZero (Descriptor.imm w) (Descriptor.fieldA w) (Descriptor.fieldB w) = true := by
  obtain ⟨i, a, b, h1, h2, h3⟩ := Mnemonic.mask_fields m
  rw [h1, h2, ← h3]
  conv_lhs => rw [← Descriptor.ofFields_fields w, Descriptor.ofFields_and, Descriptor.ofFields_inj]
  rw [show Descriptor.op w &&& (0xFF : Byte) = Descriptor.op w from BitVec.and_allOnes]

end Sys2Proof
end

