-- ==== Sys2Proof/Laws/Effects.lean ====
section
/-! SUPPORT. What one line, one raised error, one `exec` and one `step` can do to the bus state: every invariant of a step follows
from `runLine_effect` and `exec_effect`. -/

namespace Sys2Proof.Machine

/-- The control-mirror changes of a line. -/
def Line.changes : Line → List (Signal × Bool)
  | .setPin .ctrl pin value => [(.ofPin pin, value)]
  | .driveCtrl changes => changes
  | .writeProtect off => [(.nWP, off)]
  | _ => []

/-- The one thing a line can do to the mirrors, the lines, the direction, the environment, the trace and the sink: at most one
adapter call (R6), a data write only under `Drive`, a data sample only under `Read` (R28). -/
inductive Effect (changes : List (Signal × Bool)) (s : State) : State → Prop
  | quiet (env : Env) (sink : List (Nat × List Byte)) : Effect changes s { s with env := env, sink := sink }
  | ctrlMirror : Effect changes s (setSignals changes s)
  | dataMirror (d : Byte) : Effect changes s { s with data := d }
  | ctrlWrite : Effect changes s (flushCtrl (setSignals changes s))
  | dataWrite (d : Byte) (hd : s.dir = .drive) : Effect changes s (flushData (setData d s))
  | direction (d : DirSel) : Effect changes s (setDir d s)
  | ctrlRead : Effect changes s (adapterRead .ctrl s)
  | dataRead (hd : s.dir = .read) : Effect changes s (adapterRead .data s)
  | delay (t : Nat) : Effect changes s { s with trace := s.trace ++ [.delay t] }

theorem Effect.refl (changes : List (Signal × Bool)) (s : State) : Effect changes s s := .quiet s.env s.sink

theorem sleep_effect (changes : List (Signal × Bool)) (t : Nat) (s : State) : Effect changes s (sleep t s) := by
  unfold sleep; split
  · exact .refl _ _
  · exact .delay t

/-- What a line leaves is one effect on the state before it. -/
def LineOutcome.Effects (changes : List (Signal × Bool)) (s : State) : LineOutcome → Prop
  | .done _ s' => Effect changes s s'
  | .raised _ _ s' => Effect changes s s'

theorem lineFlushData_effects (changes : List (Signal × Bool)) (q : Seq) (s : State) : (lineFlushData q s).Effects changes s := by
  unfold lineFlushData; split
  · rename_i h; exact .dataWrite s.data h
  · exact .refl _ _

theorem lineDriveData_effects (changes : List (Signal × Bool)) (b : Byte) (q : Seq) (s : State) :
    (lineFlushData q (setData b s)).Effects changes s := by
  unfold lineFlushData; split
  · rename_i h; exact .dataWrite b h
  · exact .dataMirror b

theorem lineTestStatus_effects (changes : List (Signal × Bool)) (failure : Byte → Report) (q : Seq) (s : State) :
    (lineTestStatus failure q s).Effects changes s := by
  unfold lineTestStatus; split
  · exact .refl _ _
  · split <;> exact .refl _ _

/-- Every line has one effect, whether it is done or raises an error. -/
theorem runLine_effects (l : Line) (q : Seq) (s : State) : (runLine l q s).Effects l.changes s := by
  cases l with
  | setPin bus pin v =>
    cases bus
    · exact .dataMirror _
    · exact .ctrlMirror
  | setData b => exact .dataMirror b
  | flush bus =>
    cases bus
    · exact lineFlushData_effects _ q s
    · exact .ctrlWrite
  | sample bus =>
    simp only [runLine, lineSample]; split
    · exact .refl _ _
    · rename_i h
      cases bus
      · exact .dataRead (by simpa using h)
      · exact .ctrlRead
  | setDir d => exact .direction d
  | sleep t => exact sleep_effect _ t s
  | driveCtrl changes => exact .ctrlWrite
  | driveData b => exact lineDriveData_effects _ b q s
  | checkEntry op => simp only [runLine, lineCheckEntry]; split <;> exact .refl _ _
  | latchByte b => exact lineDriveData_effects _ b _ s
  | byteEnd t => exact sleep_effect _ t s
  | readByte r =>
    simp only [runLine, lineReadByte]; split
    · rename_i h; exact .dataRead h
    · exact .refl _ _
  | writeProtect off => exact .ctrlWrite
  | waitStart => exact sleep_effect _ _ s
  | poll =>
    simp only [runLine, linePoll]; split
    · exact .ctrlRead
    · split <;> exact .ctrlRead
  | pollInterval => exact sleep_effect _ _ s
  | storeBytes o b => exact .refl _ _
  | storeOut o => exact .refl _ _
  | compareId => simp only [runLine, lineCompareId]; split <;> exact .refl _ _
  | takeStatus => exact .refl _ _
  | storeStatus => exact .refl _ _
  | testErase b => exact lineTestStatus_effects _ _ q s
  | testProgram b => exact lineTestStatus_effects _ _ q s
  | element i => exact .refl _ _
  | sourceRecord i => simp only [runLine, lineSourceRecord]; split <;> exact .quiet _ s.sink
  | sinkRecord =>
    simp only [runLine, lineSinkRecord]; split
    · exact .quiet _ _
    · exact .quiet _ s.sink

theorem runLine_done_effect {l : Line} {q q' : Seq} {s s' : State} (h : runLine l q s = .done q' s') : Effect l.changes s s' := by
  have := runLine_effects l q s; rw [h] at this; exact this

theorem runLine_raised_effect {l : Line} {e : Report} {q q' : Seq} {s s' : State} (h : runLine l q s = .raised e q' s') :
    Effect l.changes s s' := by
  have := runLine_effects l q s; rw [h] at this; exact this

/-- After its effect, a step either leaves the request waiting or ends it with a response. -/
inductive Settles (q : Seq) (s : State) : State → Prop
  | waits (q' : Seq) (hop : q'.op = q.op) : Settles q s { s with seq := some q' }
  | responds (q' : Seq) (hop : q'.op = q.op) (r : Report) : Settles q s (respond q' r s)

/-- The control-mirror changes a step of an operation can make: those of its lines, and the restore of an error raised in the
write-protect bracket. -/
def stepChanges (lines : List Line) (q : Seq) : List (Signal × Bool) :=
  match q.failing with
  | some _ => if q.wpOpen then [(.nWP, false)] else []
  | none =>
    match lines[q.step]? with
    | some l => l.changes
    | none => []

/-- What one step of a running operation does: one effect, after which the request waits or ends. -/
theorem advance_effect (lines : List Line) (q : Seq) (s : State) :
    ∃ s', Effect (stepChanges lines q) s s' ∧ Settles q s' (advance lines q s) := by
  have h := advance_advances lines q s
  generalize advance lines q s = t at h
  cases h with
  | restores hf hw =>
    refine ⟨flushCtrl (setSignal .nWP false s), ?_, .waits { q with wpOpen := false } rfl⟩
    simp only [stepChanges, hf, hw]; exact .ctrlWrite
  | fails => exact ⟨s, .refl _ _, .responds q rfl _⟩
  | ends => exact ⟨s, .refl _ _, .responds q rfl _⟩
  | goesOn hf hl hr =>
    exact ⟨_, by simp only [stepChanges, hf, hl]; exact runLine_done_effect hr, .waits _ (runLine_done_frame hr).op⟩
  | raises hf hl hr =>
    exact ⟨_, by simp only [stepChanges, hf, hl]; exact runLine_raised_effect hr, .waits _ (runLine_raised_frame hr).op⟩

/-- What `exec` does when it answers a next state: one effect of the request it starts or goes on with, after which the request
waits or ends. -/
theorem exec_effect {i : Instr} {s t : State} (h : exec i s = .next t) :
    ∃ q s', q.op = i ∧ (s.seq = none ∧ q = Seq.start i ∨ s.seq = some q) ∧ Effect (stepChanges (linesOf i s) q) s s' ∧
      Settles q s' t := by
  rcases exec_cases i s with ⟨_, he⟩ | ⟨_, ⟨q, _, _, he⟩ | ⟨e, hs, _, he⟩ | ⟨hs, _, he⟩ | ⟨q, hs, hop, he⟩⟩ <;> rw [he] at h <;>
    cases h
  · exact ⟨Seq.start i, s, rfl, .inl ⟨hs, rfl⟩, .refl _ _, .responds _ rfl e⟩
  · obtain ⟨s', h1, h2⟩ := advance_effect (linesOf i s) (Seq.start i) s
    exact ⟨Seq.start i, s', rfl, .inl ⟨hs, rfl⟩, h1, h2⟩
  · obtain ⟨s', h1, h2⟩ := advance_effect (linesOf i s) q s
    exact ⟨q, s', hop, .inr hs, h1, h2⟩

/-! ## Which signals a sequence changes -/

/-- The signals that a Bus Operation changes: CLE, ALE, nWE and nRE (R93 to R96). -/
def Strobe (sig : Signal) : Prop := sig = .CLE ∨ sig = .ALE ∨ sig = .nWE ∨ sig = .nRE

/-- Every control-mirror change of the lines is a change of a strobe signal. -/
def StrobesOnly (lines : List Line) : Prop := ∀ l ∈ lines, ∀ c ∈ l.changes, Strobe c.1

theorem StrobesOnly.append {a b : List Line} (ha : StrobesOnly a) (hb : StrobesOnly b) : StrobesOnly (a ++ b) := by
  intro l hl
  rcases List.mem_append.1 hl with h | h
  · exact ha l h
  · exact hb l h

theorem strobesOnly_latchCommand (b : Byte) : StrobesOnly (latchCommand b) := by
  simp [StrobesOnly, latchCommand, Line.changes, Strobe]

theorem strobesOnly_latchBytes (cfg : Config) (bytes : List Byte) : StrobesOnly (latchBytes cfg bytes) := by
  induction bytes with
  | nil => simp [StrobesOnly, latchBytes]
  | cons b rest ih =>
    refine StrobesOnly.append (a := latchByteLines cfg b) ?_ ih
    simp [StrobesOnly, latchByteLines, Line.changes, Strobe]

theorem strobesOnly_latchAddress (cfg : Config) (bytes : List Byte) : StrobesOnly (latchAddress cfg bytes) := by
  refine StrobesOnly.append (StrobesOnly.append ?_ (strobesOnly_latchBytes cfg bytes)) ?_ <;>
    simp [StrobesOnly, Line.changes, Strobe]

theorem strobesOnly_latchDataIn (cfg : Config) (bytes : List Byte) : StrobesOnly (latchDataIn cfg bytes) := by
  refine StrobesOnly.append (a := [.checkEntry .LDIN]) ?_ (strobesOnly_latchBytes cfg bytes)
  simp [StrobesOnly, Line.changes]

theorem strobesOnly_readBytes (cfg : Config) (r : Bool) (n : Nat) : StrobesOnly (readBytes cfg r n) := by
  induction n with
  | zero => simp [StrobesOnly, readBytes]
  | succ n ih =>
    refine StrobesOnly.append (a := readByteLines cfg r) ?_ ih
    simp [StrobesOnly, readByteLines, Line.changes, Strobe]

theorem strobesOnly_latchRegisterOut (cfg : Config) (r : Bool) (n : Nat) : StrobesOnly (latchRegisterOut cfg r n) := by
  refine StrobesOnly.append (StrobesOnly.append ?_ (strobesOnly_readBytes cfg r n)) ?_ <;> simp [StrobesOnly, Line.changes]

theorem strobesOnly_wait : StrobesOnly waitWhileBusy := by simp [StrobesOnly, waitWhileBusy, Line.changes]

/-- Every control-mirror change of the lines is a change of a strobe signal or of nWP. -/
def StrobesOrWP (lines : List Line) : Prop := ∀ l ∈ lines, ∀ c ∈ l.changes, Strobe c.1 ∨ c.1 = .nWP

theorem StrobesOrWP.append {a b : List Line} (ha : StrobesOrWP a) (hb : StrobesOrWP b) : StrobesOrWP (a ++ b) := by
  intro l hl
  rcases List.mem_append.1 hl with h | h
  · exact ha l h
  · exact hb l h

theorem StrobesOnly.orWP {a : List Line} (h : StrobesOnly a) : StrobesOrWP a := fun l hl c hc => .inl (h l hl c hc)

theorem strobesOrWP_statusTail (cfg : Config) (r : Bool) : StrobesOrWP (statusTail cfg r) := by
  refine StrobesOrWP.append (StrobesOrWP.append (StrobesOrWP.append (strobesOnly_latchCommand _).orWP
    (strobesOnly_latchRegisterOut _ _ _).orWP) ?_) ?_
  · simp [StrobesOrWP, Line.changes]
  · cases r <;> simp [StrobesOrWP, Line.changes]

theorem strobesOrWP_erase (cfg : Config) (r : Bool) (block : Nat) : StrobesOrWP (eraseLines cfg r block) := by
  refine StrobesOrWP.append (StrobesOrWP.append (StrobesOrWP.append (StrobesOrWP.append (StrobesOrWP.append
    (StrobesOrWP.append ?_ (strobesOnly_latchCommand _).orWP) (strobesOnly_latchAddress _ _).orWP)
    (strobesOnly_latchCommand _).orWP) strobesOnly_wait.orWP) (strobesOrWP_statusTail cfg r)) ?_ <;>
    simp [StrobesOrWP, Line.changes]

theorem strobesOrWP_program (cfg : Config) (r : Bool) (page : Nat) (bytes : List Byte) :
    StrobesOrWP (programLines cfg r page bytes) := by
  refine StrobesOrWP.append (StrobesOrWP.append (StrobesOrWP.append (StrobesOrWP.append (StrobesOrWP.append (StrobesOrWP.append
    (StrobesOrWP.append ?_ (strobesOnly_latchCommand _).orWP) (strobesOnly_latchAddress _ _).orWP)
    (strobesOnly_latchDataIn _ _).orWP) (strobesOnly_latchCommand _).orWP) strobesOnly_wait.orWP)
    (strobesOrWP_statusTail cfg r)) ?_ <;> simp [StrobesOrWP, Line.changes]

theorem strobesOnly_readPage (cfg : Config) (r : Bool) (page : Nat) : StrobesOnly (readPageSequence cfg r page) :=
  StrobesOnly.append (StrobesOnly.append (StrobesOnly.append (StrobesOnly.append (strobesOnly_latchCommand _)
    (strobesOnly_latchAddress _ _)) (strobesOnly_latchCommand _)) strobesOnly_wait) (strobesOnly_latchRegisterOut _ _ _)

theorem strobesOnly_range {element : Nat → List Line} (h : ∀ i, StrobesOnly (element i)) (n : Nat) :
    ∀ i, StrobesOnly (rangeLines element i n) := by
  induction n with
  | zero => intro i; simp [StrobesOnly, rangeLines]
  | succ n ih => intro i; exact (h i).append (ih _)

theorem strobesOrWP_range {element : Nat → List Line} (h : ∀ i, StrobesOrWP (element i)) (n : Nat) :
    ∀ i, StrobesOrWP (rangeLines element i n) := by
  induction n with
  | zero => intro i; simp [StrobesOrWP, rangeLines]
  | succ n ih => intro i; exact (h i).append (ih _)

/-- The control-mirror changes of every instruction's sequence: SETPIN of a control pin changes that signal, INIT its six, the
erase and program operations and ranges the strobes and nWP, every other instruction the strobes alone (R23). -/
theorem linesOf_changes (i : Instr) (s : State) :
    (∃ pin value, i = .setpin .ctrl pin value) ∨ i = .init ∨ (opensBracket i = true ∧ StrobesOrWP (linesOf i s)) ∨
      StrobesOnly (linesOf i s) := by
  cases i with
  | setpin bus pin value =>
    cases bus
    · exact .inr (.inr (.inr (by simp [StrobesOnly, linesOf, setpinLines, Line.changes])))
    · exact .inl ⟨pin, value, rfl⟩
  | setdata b => exact .inr (.inr (.inr (by simp [StrobesOnly, linesOf, setdataLines, Line.changes])))
  | flush bus => exact .inr (.inr (.inr (by simp [StrobesOnly, linesOf, flushLines, Line.changes])))
  | sample bus => exact .inr (.inr (.inr (by simp [StrobesOnly, linesOf, sampleLines, Line.changes])))
  | setdir d => exact .inr (.inr (.inr (by simp [StrobesOnly, linesOf, setdirLines, Line.changes])))
  | delay t => exact .inr (.inr (.inr (by simp [StrobesOnly, linesOf, delayLines, Line.changes])))
  | init => exact .inr (.inl rfl)
  | lcmd b => exact .inr (.inr (.inr (strobesOnly_latchCommand b)))
  | laddr n => exact .inr (.inr (.inr (strobesOnly_latchAddress _ _)))
  | lout n => exact .inr (.inr (.inr (strobesOnly_latchRegisterOut _ _ _)))
  | ldin n => exact .inr (.inr (.inr (strobesOnly_latchDataIn _ _)))
  | waitrdy => exact .inr (.inr (.inr strobesOnly_wait))
  | addrcyc p c => exact .inr (.inr (.inr (by simp [StrobesOnly, linesOf, addrcycLines, Line.changes])))
  | readid =>
    refine .inr (.inr (.inr (StrobesOnly.append (StrobesOnly.append (StrobesOnly.append (strobesOnly_latchCommand _)
      (strobesOnly_latchAddress _ _)) (strobesOnly_latchRegisterOut _ _ _)) ?_)))
    simp [StrobesOnly, Line.changes]
  | readpage p =>
    refine .inr (.inr (.inr (StrobesOnly.append (strobesOnly_readPage _ _ _) ?_)))
    simp [StrobesOnly, Line.changes]
  | erase b => exact .inr (.inr (.inl ⟨rfl, strobesOrWP_erase _ _ _⟩))
  | program p n => exact .inr (.inr (.inl ⟨rfl, strobesOrWP_program _ _ _ _⟩))
  | readstatus =>
    refine .inr (.inr (.inr (StrobesOnly.append (StrobesOnly.append (strobesOnly_latchCommand _)
      (strobesOnly_latchRegisterOut _ _ _)) ?_)))
    simp [StrobesOnly, Line.changes]
  | dump a n =>
    refine .inr (.inr (.inr (strobesOnly_range (fun i => ?_) _ _)))
    refine StrobesOnly.append (a := .element i :: readPageSequence s.cfg false (a.toNat + i)) ?_ ?_
    · refine StrobesOnly.append (a := [.element i]) ?_ (strobesOnly_readPage _ _ _)
      simp [StrobesOnly, Line.changes]
    · simp [StrobesOnly, Line.changes]
  | programrange a n =>
    refine .inr (.inr (.inl ⟨rfl, strobesOrWP_range (fun i => ?_) _ _⟩))
    have h : StrobesOrWP (if skipRecord (sourceRecord s i) then []
        else programLines s.cfg false (a.toNat + i) (sourceRecord s i)) := by
      split
      · simp [StrobesOrWP]
      · exact strobesOrWP_program _ _ _ _
    exact StrobesOrWP.append (a := [.sourceRecord i]) (by simp [StrobesOrWP, Line.changes]) h
  | eraserange a n =>
    refine .inr (.inr (.inl ⟨rfl, strobesOrWP_range (fun i => ?_) _ _⟩))
    exact StrobesOrWP.append (a := [.element i]) (by simp [StrobesOrWP, Line.changes]) (strobesOrWP_erase _ _ _)

/-- What `step` does when it answers a next state: one `exec`, or the refusal of a descriptor (R75). -/
theorem step_cases {s t : State} (h : step s = .next t) :
    s.sessionOpen = true ∧
      ((∃ q, s.seq = some q ∧ exec q.op s = .next t) ∨
        (s.seq = none ∧ ∃ i, decodeBytes (fetchBytes s) = .ok i ∧ exec i s = .next t) ∨
        (s.seq = none ∧ ∃ e w, decodeBytes (fetchBytes s) = .error e ∧ e.descriptor = some w ∧ t = refuseDescriptor w s)) := by
  unfold step at h
  split at h
  · rename_i ho
    refine ⟨ho, ?_⟩
    split at h
    · rename_i q hq; exact .inl ⟨q, hq, h⟩
    · rename_i hq
      split at h
      · split at h
        · rename_i i hi; exact .inr (.inl ⟨hq, i, hi, h⟩)
        · rename_i e he
          split at h
          · cases h
          · rename_i w hw; cases h; exact .inr (.inr ⟨hq, e, w, he, hw, rfl⟩)
      · cases h
  · cases h

end Sys2Proof.Machine
end

