-- ==== Sys2Proof/Laws/Memory.lean ====
section
/-! SUPPORT. Byte memory: reading back, and the canonical form, which every operation keeps and the state after reset has. -/

namespace Sys2Proof.Machine

/-! ## The canonical form -/

theorem Memory.wf_nil : Memory.wf [] := ⟨.nil, by simp⟩

theorem Memory.wf_tail {c : Host.Cell} {m : Memory} (h : Memory.wf (c :: m)) : Memory.wf m :=
  ⟨(List.pairwise_cons.1 h.1).2, fun d hd => h.2 d (List.mem_cons_of_mem _ hd)⟩

/-- Where the cells of a written memory come from. -/
theorem Memory.mem_write {m : Memory} {a : Nat} {v : Byte} {c : Host.Cell} (h : c ∈ Memory.write m a v) :
    c ∈ m ∨ (c = (a, v) ∧ v ≠ Memory.unlisted) := by
  induction m with
  | nil =>
    simp only [Memory.write] at h
    split at h
    · cases h
    · exact .inr ⟨by simpa using h, ‹_›⟩
  | cons d m ih =>
    obtain ⟨b, w⟩ := d
    simp only [Memory.write] at h
    split at h
    · split at h
      · exact .inl h
      · rcases List.mem_cons.1 h with h | h
        · exact .inr ⟨h, ‹_›⟩
        · exact .inl h
    · split at h
      · split at h
        · exact .inl (List.mem_cons_of_mem _ h)
        · rcases List.mem_cons.1 h with h | h
          · exact .inr ⟨h, ‹_›⟩
          · exact .inl (List.mem_cons_of_mem _ h)
      · rcases List.mem_cons.1 h with h | h
        · exact .inl (h ▸ List.mem_cons_self)
        · exact (ih h).imp_left (List.mem_cons_of_mem _)

/-- Writing one byte keeps the canonical form. -/
theorem Memory.write_wf {m : Memory} (h : m.wf) (a : Nat) (v : Byte) : (Memory.write m a v).wf := by
  refine ⟨?_, fun c hc => ?_⟩
  · induction m with
    | nil => simp only [Memory.write]; split <;> simp
    | cons d m ih =>
      obtain ⟨b, w⟩ := d
      obtain ⟨h1, h2⟩ := List.pairwise_cons.1 h.1
      simp only [Memory.write]
      split
      · rename_i hab
        split
        · exact h.1
        · refine List.pairwise_cons.2 ⟨fun c hc => ?_, h.1⟩
          rcases List.mem_cons.1 hc with rfl | hc
          · exact hab
          · exact Nat.lt_trans hab (h1 c hc)
      · split
        · rename_i hab
          split
          · exact h2
          · exact List.pairwise_cons.2 ⟨fun c hc => hab ▸ h1 c hc, h2⟩
        · refine List.pairwise_cons.2 ⟨fun c hc => ?_, ih (Memory.wf_tail h)⟩
          rcases Memory.mem_write hc with hc | ⟨rfl, -⟩
          · exact h1 c hc
          · change b < a; omega
  · rcases Memory.mem_write hc with hc | ⟨rfl, hv⟩
    · exact h.2 c hc
    · exact hv

/-- Writing a byte sequence keeps the canonical form. -/
theorem Memory.writeBytes_wf (vs : List Byte) : ∀ {m : Memory}, m.wf → ∀ a, (Memory.writeBytes m a vs).wf := by
  induction vs with
  | nil => intro m h a; exact h
  | cons v vs ih => intro m h a; exact ih (Memory.write_wf h a v) (a + 1)

/-- Clearing a range keeps the canonical form. -/
theorem Memory.clear_wf {m : Memory} (h : m.wf) (a n : Nat) : (Memory.clear m a n).wf :=
  ⟨h.1.filter _, fun c hc => h.2 c (List.mem_of_mem_filter hc)⟩

/-! ## Reading back -/

/-- The memory lists nothing at an address below all its entries. -/
theorem Memory.read_below {m : Memory} {a : Nat} (h : ∀ c ∈ m, a < c.1) : Memory.read m a = Memory.unlisted := by
  induction m with
  | nil => rfl
  | cons d m ih =>
    have := h d (by simp)
    simp only [Memory.read]
    rw [if_neg (by omega)]
    exact ih fun c hc => h c (List.mem_cons_of_mem _ hc)

/-- A byte written is read back, and every other address reads as before. -/
theorem Memory.read_write {m : Memory} (h : m.wf) (a b : Nat) (v : Byte) :
    Memory.read (Memory.write m a v) b = if b = a then v else Memory.read m b := by
  induction m with
  | nil =>
    simp only [Memory.write]
    split
    · rename_i hv; simp [Memory.read, hv]
    · by_cases hb : b = a
      · simp [Memory.read, hb]
      · simp [Memory.read, hb, Ne.symm hb]
  | cons d m ih =>
    obtain ⟨c, w⟩ := d
    have h1 := (List.pairwise_cons.1 h.1).1
    have ih := ih (Memory.wf_tail h)
    simp only [Memory.write]
    by_cases hb : b = a
    · subst hb
      rw [if_pos rfl] at ih ⊢
      split
      · rename_i hlt
        split
        · rename_i hv
          rw [hv]
          exact Memory.read_below fun d hd => by
            rcases List.mem_cons.1 hd with rfl | hd
            · exact hlt
            · exact Nat.lt_trans hlt (h1 d hd)
        · simp [Memory.read]
      · split
        · rename_i he
          split
          · rename_i hv; rw [hv]; exact Memory.read_below fun d hd => he ▸ h1 d hd
          · simp [Memory.read]
        · rename_i hne; simp only [Memory.read]; rw [if_neg (Ne.symm hne)]; exact ih
    · rw [if_neg hb] at ih ⊢
      split
      · split
        · rfl
        · simp [Memory.read, Ne.symm hb]
      · split
        · rename_i he
          subst he
          split
          · simp [Memory.read, Ne.symm hb]
          · simp [Memory.read, Ne.symm hb]
        · simp only [Memory.read]; split
          · rfl
          · exact ih

/-- A byte sequence written is read back, and every other address reads as before. -/
theorem Memory.read_writeBytes (vs : List Byte) : ∀ {m : Memory}, m.wf → ∀ a b,
    Memory.read (Memory.writeBytes m a vs) b =
      if a ≤ b then (vs[b - a]?).getD (Memory.read m b) else Memory.read m b := by
  induction vs with
  | nil => intro m _ a b; simp [Memory.writeBytes]
  | cons v vs ih =>
    intro m h a b
    simp only [Memory.writeBytes]
    rw [ih (Memory.write_wf h a v), Memory.read_write h]
    rcases Nat.lt_trichotomy b a with hlt | rfl | hgt
    · rw [if_neg (by omega), if_neg (by omega), if_neg (by omega)]
    · rw [if_neg (by omega), if_pos rfl, if_pos (Nat.le_refl _)]; simp
    · rw [if_pos (by omega), if_neg (by omega), if_pos (by omega)]
      obtain ⟨k, rfl⟩ : ∃ k, b = a + 1 + k := ⟨b - (a + 1), by omega⟩
      rw [show a + 1 + k - (a + 1) = k by omega, show a + 1 + k - a = k + 1 by omega, List.getElem?_cons_succ]

/-- A cleared range reads as 0x00, and every other address reads as before. -/
theorem Memory.read_clear (m : Memory) (a n b : Nat) :
    Memory.read (Memory.clear m a n) b = if a ≤ b ∧ b < a + n then Memory.unlisted else Memory.read m b := by
  induction m with
  | nil => simp [Memory.clear, Memory.read]
  | cons d m ih =>
    obtain ⟨c, w⟩ := d
    simp only [Memory.clear, List.filter_cons] at ih ⊢
    split
    · rename_i hc
      simp only [Bool.or_eq_true, decide_eq_true_eq] at hc
      simp only [Memory.read]
      by_cases h : c = b
      · rw [if_pos h, if_pos h, if_neg (by omega)]
      · rw [if_neg h, if_neg h, ih]
    · rename_i hc
      simp only [Bool.or_eq_true, decide_eq_true_eq, not_or] at hc
      rw [ih]
      simp only [Memory.read]
      by_cases h : c = b
      · rw [if_pos h, if_pos (by omega), if_pos (by omega)]
      · rw [if_neg h]

/-! ## The request stream -/

/-- Where the cells written by a byte sequence stand. -/
theorem Memory.mem_writeBytes (vs : List Byte) : ∀ {m : Memory} {a : Nat} {c : Host.Cell}, c ∈ Memory.writeBytes m a vs →
    c ∈ m ∨ c.1 < a + vs.length := by
  induction vs with
  | nil => intro m a c h; exact .inl h
  | cons v vs ih =>
    intro m a c h
    rcases ih h with h | h
    · rcases Memory.mem_write h with h | ⟨rfl, -⟩
      · exact .inl h
      · exact .inr (by simp)
    · exact .inr (by simp; omega)

/-- Placing a request keeps the stream's canonical form. -/
theorem Stream.place_wf {st : Stream} (h : Stream.wf st) (a : Nat) (w : Descriptor) (n : Nat) : Stream.wf (Stream.place st a w n) := by
  refine ⟨Memory.writeBytes_wf _ (Memory.clear_wf h.1 _ _) _, fun c hc => ?_⟩
  rcases Memory.mem_writeBytes _ hc with hc | hc
  · exact Nat.lt_of_lt_of_le (h.2 c (List.mem_of_mem_filter hc)) (Nat.le_max_left _ _)
  · have : (Descriptor.toBytes w).length = 8 := rfl
    refine Nat.lt_of_lt_of_le hc (Nat.le_trans ?_ (Nat.le_max_right _ _)); omega

/-- A stream given by its bytes is in canonical form. -/
theorem Stream.ofBytes_wf (bytes : List Byte) : Stream.wf (Stream.ofBytes bytes) := by
  refine ⟨Memory.writeBytes_wf _ Memory.wf_nil _, fun c hc => ?_⟩
  rcases Memory.mem_writeBytes _ hc with hc | hc
  · cases hc
  · simpa [Stream.ofBytes] using hc

/-- The stream after reset is in canonical form. -/
theorem State.reset_stream_wf : Stream.wf State.reset.stream := ⟨Memory.wf_nil, by simp [State.reset, State.newSession, Stream.empty]⟩

/-- How many bytes a read of the stream finds. -/
theorem Stream.length_bytesAt (st : Stream) (n : Nat) : ∀ a, (Stream.bytesAt st a n).length = min n (st.length - a) := by
  induction n with
  | zero => intro a; simp [Stream.bytesAt]
  | succ n ih =>
    intro a
    simp only [Stream.bytesAt]
    split
    · simp only [List.length_cons, ih]; omega
    · simp only [List.length_nil]; omega

/-- The bytes of a read that lies inside the stream. -/
theorem Stream.bytesAt_eq (st : Stream) (n : Nat) : ∀ a, a + n ≤ st.length →
    Stream.bytesAt st a n = (List.range n).map fun k => Memory.read st.mem (a + k) := by
  induction n with
  | zero => intro a _; rfl
  | succ n ih =>
    intro a h
    simp only [Stream.bytesAt]
    rw [if_pos (by omega), ih (a + 1) (by omega), List.range_succ_eq_map, List.map_cons, List.map_map]
    simp only [Nat.add_zero, List.cons.injEq, true_and]
    apply List.map_congr_left
    intro k _
    simp only [Function.comp_apply]
    congr 1; omega

/-- The request that `placeRequest` places is the one the next step fetches. -/
theorem fetchBytes_placeRequest (w : Descriptor) {s : State} (h : Stream.wf s.stream) :
    fetchBytes (placeRequest w s) = Descriptor.toBytes w := by
  have hl : (placeRequest w s).pos + 8 ≤ (placeRequest w s).stream.length := by
    simp only [placeRequest, Stream.place]; omega
  rw [fetchBytes, Stream.bytesAt_eq _ _ _ hl]
  apply List.ext_getElem?
  intro k
  have h8 : (Descriptor.toBytes w).length = 8 := rfl
  rw [List.getElem?_map]
  by_cases hk : k < 8
  · rw [List.getElem?_range hk, Option.map_some]
    simp only [placeRequest, Stream.place]
    rw [Memory.read_writeBytes _ (Memory.clear_wf h.1 _ _), if_pos (by omega), Nat.add_sub_cancel_left,
      List.getElem?_eq_getElem (by omega), Option.getD_some]
  · rw [List.getElem?_eq_none (by rw [List.length_range]; omega), List.getElem?_eq_none (by omega)]; rfl

end Sys2Proof.Machine
end

