-- ==== Sys2Proof/Laws/PerInstr.lean ====
section
/-! SUPPORT. One lemma for each instruction: its encoding meets the mask and match test of its own row (R75). -/

namespace Sys2Proof.Laws.EncodesItsRow

/-- The encoding of an instruction meets the `mask` and `match` of its row of the opcode table. -/
def Statement (i : Instr) : Prop := encode i &&& i.mnemonic.format.mask = i.mnemonic.pattern

theorem holds (i : Instr) : Statement i := by
  refine (Mnemonic.mask_match _ _).2 ⟨?_, ?_⟩
  · simp only [encode, Descriptor.op_ofFields, Instr.opcode]
  · simp only [encode, Descriptor.imm_ofFields, Descriptor.fieldA_ofFields, Descriptor.fieldB_ofFields, Instr.reservedZero]

theorem setpin (bus : Bus) (pin : BitVec 3) (value : Bool) : Statement (.setpin bus pin value) := holds _

theorem setdata (byte : Byte) : Statement (.setdata byte) := holds _

theorem flush (bus : Bus) : Statement (.flush bus) := holds _

theorem sample (bus : Bus) : Statement (.sample bus) := holds _

theorem setdir (d : DirSel) : Statement (.setdir d) := holds _

theorem delay (t : Field24) : Statement (.delay t) := holds _

theorem init : Statement .init := holds _

theorem lcmd (command : Byte) : Statement (.lcmd command) := holds _

theorem laddr (n : Field24) : Statement (.laddr n) := holds _

theorem lout (count : Field24) : Statement (.lout count) := holds _

theorem ldin (n : Field24) : Statement (.ldin n) := holds _

theorem waitrdy : Statement .waitrdy := holds _

theorem addrcyc (page column : Field24) : Statement (.addrcyc page column) := holds _

theorem readid : Statement .readid := holds _

theorem readpage (page : Field24) : Statement (.readpage page) := holds _

theorem erase (block : Field24) : Statement (.erase block) := holds _

theorem program (page length : Field24) : Statement (.program page length) := holds _

theorem readstatus : Statement .readstatus := holds _

theorem dump (start count : Field24) : Statement (.dump start count) := holds _

theorem programrange (start count : Field24) : Statement (.programrange start count) := holds _

theorem eraserange (start count : Field24) : Statement (.eraserange start count) := holds _

end Sys2Proof.Laws.EncodesItsRow
end

