-- ==== Sys2Proof/Laws/RangeSegments.lean ====
section
/-! SUPPORT. The elements of the range operations as segments, and the algebra of the environment's answers (R118 to R122). -/

namespace Sys2Proof.Machine

/-- Sequencer states that agree on everything a response and the bracket need. -/
structure SameEnd (q q' : Seq) : Prop where
  op : q'.op = q.op
  buf : q'.buf = q.buf
  report : q'.report = q.report
  idMatch : q'.idMatch = q.idMatch
  wpOpen : q'.wpOpen = q.wpOpen

theorem SameEnd.trans {q q₁ q₂ : Seq} (h : SameEnd q q₁) (h' : SameEnd q₁ q₂) : SameEnd q q₂ :=
  ⟨h'.op.trans h.op, h'.buf.trans h.buf, h'.report.trans h.report, h'.idMatch.trans h.idMatch, h'.wpOpen.trans h.wpOpen⟩

/-- Sequencer states with the same end give the same response. -/
theorem respond_same {q q' : Seq} (h : SameEnd q q') (r : Report) (s : State) : respond q' r s = respond q r s := by
  simp [respond, h.op, h.buf, h.idMatch]

/-- A range leaves nWP alone changed in the control byte. -/
theorem withLevel_rangeCtrl (c : Byte) (n : Nat) (b : Bool) : withLevel (rangeCtrl c n) .nWP b = withLevel c .nWP b := by
  unfold rangeCtrl; split <;> simp

/-- An erase in a range makes the events it makes alone. -/
theorem eraseEvents_rangeCtrl (cfg : Config) (c : Byte) (n block : Nat) (busy : List Byte) (last status : Byte) :
    eraseEvents cfg (rangeCtrl c n) block busy last status = eraseEvents cfg c block busy last status := by
  simp [eraseEvents, eraseWaitEvents, withLevel_rangeCtrl]

/-- The events of a range of erases do not depend on nWP before it. -/
theorem eraseRangeEvents_wp (cfg : Config) (c : Byte) (visits : List StatusVisit) : ∀ block,
    eraseRangeEvents cfg (withLevel c .nWP false) block visits = eraseRangeEvents cfg c block visits := by
  induction visits with
  | nil => intro _; rfl
  | cons v rest ih => intro block; simp [eraseRangeEvents, ih, eraseEvents, eraseWaitEvents]

/-- One element of EraseRange (R122). -/
theorem eraseOne (start i : Nat) (v : StatusVisit) (q : Seq) (s : State) (hq : q.wpOpen = false)
    (h : BusIdle s.ctrl) (hd : s.dir = .drive) (hs : v.Succeeds s.cfg)
    (hu : Env.upcoming v.answers.length s.env = v.answers) :
    ∃ q', SameEnd q q' ∧ Segment (eraseElement s.cfg start i) q s q'
      { s with
        ctrl := withLevel s.ctrl .nWP false, data := s.cfg.cmdReadStatus, physCtrl := some (withLevel s.ctrl .nWP false),
        physData := some s.cfg.cmdReadStatus, env := Env.after v.answers.length s.env,
        trace := s.trace ++ eraseEvents s.cfg s.ctrl (start + i) v.busy v.last v.status } := by
  obtain ⟨st, e1⟩ := eraseBody_segment false (start + i) v { q.next with rangeI := i } s h hd hs.1 hu (by simp)
  have e0 := (Segment.single (l := .element i) (q := q) (s := s) rfl rfl).append (e1.append (testErase_segment (start + i) rfl hs.2))
  refine ⟨_, ?_, by simpa [eraseElement, eraseLines] using e0⟩
  constructor <;> simp [hq]

/-- Elements of EraseRange in order, each with its visit (R122). -/
theorem eraseMany (start : Nat) (visits : List StatusVisit) : ∀ (i : Nat) (q : Seq) (s : State), q.wpOpen = false →
    BusIdle s.ctrl → s.dir = .drive → (∀ v ∈ visits, v.Succeeds s.cfg) →
    Env.upcoming (visits.flatMap StatusVisit.answers).length s.env = visits.flatMap StatusVisit.answers →
    ∃ q', SameEnd q q' ∧ Segment (rangeLines (eraseElement s.cfg start) i visits.length) q s q'
      { s with
        ctrl := rangeCtrl s.ctrl visits.length
        data := if visits.length = 0 then s.data else s.cfg.cmdReadStatus
        physCtrl := if visits.length = 0 then s.physCtrl else some (rangeCtrl s.ctrl visits.length)
        physData := if visits.length = 0 then s.physData else some s.cfg.cmdReadStatus
        env := Env.after (visits.flatMap StatusVisit.answers).length s.env
        trace := s.trace ++ eraseRangeEvents s.cfg s.ctrl (start + i) visits } := by
  induction visits with
  | nil => intro i q s _ _ _ _ _; exact ⟨q, ⟨rfl, rfl, rfl, rfl, rfl⟩, by
      simpa [rangeLines, rangeCtrl, eraseRangeEvents, Env.after] using Segment.nil q s⟩
  | cons v rest ih =>
    intro i q s hq h hd hs hu
    obtain ⟨hu1, hu2⟩ := upcoming_split (a := v.answers) (b := rest.flatMap StatusVisit.answers) (e := s.env) (by simpa using hu)
    obtain ⟨q1, h1, e1⟩ := eraseOne start i v q s hq h hd (hs v (by simp)) hu1
    obtain ⟨q2, h2, e2⟩ := ih (i + 1) q1 { s with
        ctrl := withLevel s.ctrl .nWP false, data := s.cfg.cmdReadStatus, physCtrl := some (withLevel s.ctrl .nWP false),
        physData := some s.cfg.cmdReadStatus, env := Env.after v.answers.length s.env,
        trace := s.trace ++ eraseEvents s.cfg s.ctrl (start + i) v.busy v.last v.status }
      (h1.wpOpen.trans hq) (h.withWP false) hd (fun w hw => hs w (by simp [hw])) hu2
    refine ⟨q2, h1.trans h2, ?_⟩
    refine Segment.cast (by simpa [rangeLines] using e1.append e2) rfl ?_
    cases rest with
    | nil => simp [rangeCtrl, eraseRangeEvents, Env.after]
    | cons w rest' =>
      have hw : eraseRangeEvents s.cfg (withLevel s.ctrl .nWP false) (start + (i + 1)) (w :: rest') =
          eraseRangeEvents s.cfg s.ctrl (start + (i + 1)) (w :: rest') := eraseRangeEvents_wp _ _ _ _
      simp only [hw]
      simp [rangeCtrl, eraseRangeEvents, after_add, ← Nat.add_assoc]

/-- A range is its first part and the rest. -/
theorem rangeLines_split (f : Nat → List Line) (m n : Nat) : ∀ i,
    rangeLines f i (m + n) = rangeLines f i m ++ rangeLines f (i + m) n := by
  induction m with
  | zero => intro i; simp [rangeLines]
  | succ m ih => intro i; rw [Nat.succ_add]; simp [rangeLines, ih, Nat.add_assoc, Nat.add_comm 1]

/-- The events of a range of erases in two parts. -/
theorem eraseRangeEvents_append (cfg : Config) (c : Byte) (a b : List StatusVisit) : ∀ block,
    eraseRangeEvents cfg c block (a ++ b) = eraseRangeEvents cfg c block a ++ eraseRangeEvents cfg c (block + a.length) b := by
  induction a with
  | nil => intro _; simp [eraseRangeEvents]
  | cons v rest ih => intro block; simp [eraseRangeEvents, ih, Nat.add_assoc, Nat.add_comm 1]

/-- A program in a range makes the events it makes alone. -/
theorem programEvents_wp (cfg : Config) (c : Byte) (n page : Nat) (bytes busy : List Byte) (last status : Byte) :
    programEvents cfg (rangeCtrl c n) page bytes busy last status = programEvents cfg c page bytes busy last status := by
  simp [programEvents, programWaitEvents, withLevel_rangeCtrl]

/-- The events of a range of programs do not depend on nWP before it. -/
theorem programRangeEvents_wp (cfg : Config) (c : Byte) (l : List ((Nat × List Byte) × StatusVisit)) :
    programRangeEvents cfg (withLevel c .nWP false) l = programRangeEvents cfg c l := by
  induction l with
  | nil => rfl
  | cons v rest ih => obtain ⟨⟨p, r⟩, v⟩ := v; simp [programRangeEvents, ih, programEvents, programWaitEvents]

/-- The events of a range of programs in two parts. -/
theorem programRangeEvents_append (cfg : Config) (c : Byte) (a b : List ((Nat × List Byte) × StatusVisit)) :
    programRangeEvents cfg c (a ++ b) = programRangeEvents cfg c a ++ programRangeEvents cfg c b := by
  induction a with
  | nil => rfl
  | cons v rest ih => obtain ⟨⟨p, r⟩, v⟩ := v; simp [programRangeEvents, ih]

/-- Record transfers and adapter reads draw from separate lists. -/
theorem afterStorage_after (n : Nat) : ∀ e : Env, Env.afterStorage (Env.after n e) = Env.after n (Env.afterStorage e) := by
  induction n with
  | zero => intro e; rfl
  | succ n ih =>
    intro e; simp only [Env.after, ih]
    congr 1
    cases e with | mk a b c d => cases a <;> cases c <;> rfl

/-- Record transfers and adapter reads draw from separate lists. -/
theorem afterTransfers_after (m : Nat) : ∀ (n : Nat) (e : Env),
    Env.afterTransfers m (Env.after n e) = Env.after n (Env.afterTransfers m e) := by
  induction m with
  | zero => intro n e; rfl
  | succ m ih => intro n e; simp only [Env.afterTransfers, afterStorage_after, ih]

/-- A record transfer leaves the next adapter read's answer. -/
theorem sample_afterStorage (e : Env) : Env.sample (Env.afterStorage e) = Env.sample e := by
  cases e with | mk a b c d => cases a <;> cases c <;> rfl

/-- A record transfer leaves the coming adapter reads' answers. -/
theorem upcoming_afterStorage (n : Nat) : ∀ e : Env, Env.upcoming n (Env.afterStorage e) = Env.upcoming n e := by
  induction n with
  | zero => intro e; rfl
  | succ n ih =>
    intro e
    have : Env.afterSample (Env.afterStorage e) = Env.afterStorage (Env.afterSample e) := by
      have := afterStorage_after 1 e; simpa [Env.after] using this.symm
    simp [Env.upcoming, sample_afterStorage, this, ih]

/-- Adapter reads leave the next record transfer's answer. -/
theorem answer_after (n : Nat) : ∀ e : Env, Env.storageAnswer (Env.after n e) = Env.storageAnswer e := by
  induction n with
  | zero => intro e; rfl
  | succ n ih => intro e; simp only [Env.after, ih]; cases e with | mk a b c d => cases a <;> cases c <;> rfl

/-- Adapter reads leave the coming record transfers' answers. -/
theorem serves_after (m : Nat) : ∀ (n : Nat) (e : Env), Env.serves m (Env.after n e) = Env.serves m e := by
  induction m with
  | zero => intro n e; rfl
  | succ m ih => intro n e; simp only [Env.serves, answer_after, afterStorage_after, ih]

/-- Record transfers add up. -/
theorem afterTransfers_add (m n : Nat) : ∀ e : Env, Env.afterTransfers (m + n) e = Env.afterTransfers n (Env.afterTransfers m e) := by
  induction m with
  | zero => intro e; simp [Env.afterTransfers]
  | succ m ih => intro e; rw [Nat.succ_add]; simp [Env.afterTransfers, ih]

/-- Record transfers served in two parts. -/
theorem serves_add (m n : Nat) : ∀ e : Env, Env.serves (m + n) e ↔ Env.serves m e ∧ Env.serves n (Env.afterTransfers m e) := by
  induction m with
  | zero => intro e; simp [Env.serves, Env.afterTransfers]
  | succ m ih => intro e; rw [Nat.succ_add]; simp [Env.serves, Env.afterTransfers, ih, and_assoc]

/-- The state a run of programs leaves. -/
def progged (s : State) (n transfers : Nat) (answers : Nat) (ev : List Event) : State :=
  { s with
    ctrl := rangeCtrl s.ctrl n
    data := if n = 0 then s.data else s.cfg.cmdReadStatus
    physCtrl := if n = 0 then s.physCtrl else some (rangeCtrl s.ctrl n)
    physData := if n = 0 then s.physData else some s.cfg.cmdReadStatus
    env := Env.after answers (Env.afterTransfers transfers s.env)
    trace := s.trace ++ ev }

/-- One programmed element of ProgramRange (R120). -/
theorem programOne (s₀ : State) (start i : Nat) (v : StatusVisit) (q : Seq) (s : State) (hq : q.wpOpen = false) (hc : s.cfg = s₀.cfg)
    (h : BusIdle s.ctrl) (hd : s.dir = .drive) (hs : v.Succeeds s.cfg) (hk : skipRecord (sourceRecord s₀ i) = false)
    (ht : Env.storageAnswer s.env = true)
    (hu : Env.upcoming v.answers.length s.env = v.answers) :
    ∃ q', SameEnd q q' ∧ Segment (programElement s₀ start i) q s q'
      (progged s 1 1 v.answers.length (programEvents s.cfg s.ctrl (start + i) (sourceRecord s₀ i) v.busy v.last v.status)) := by
  have e0 : Segment [.sourceRecord i] q s { q.next with rangeI := i } { s with env := Env.afterStorage s.env } :=
    Segment.single (by simp [runLine, lineSourceRecord, ht]) rfl
  obtain ⟨st, e1⟩ := programBody_segment false (start + i) (sourceRecord s₀ i) v { q.next with rangeI := i }
    { s with env := Env.afterStorage s.env } h hd hs.1 (by simpa [upcoming_afterStorage] using hu) (by simp)
  have e2 := (e0.append (e1.append (testProgram_segment (start + i) rfl hs.2))).of_eq (b := programElement s₀ start i)
    (by simp [programElement, programLines, hk, hc])
  refine ⟨_, ?_, e2.cast rfl ?_⟩
  · constructor <;> simp [hq]
  · simp [progged, rangeCtrl, Env.afterTransfers]

/-- One skipped element of ProgramRange: no adapter call (R121). -/
theorem skipOne (s₀ : State) (start i : Nat) (q : Seq) (s : State) (hk : skipRecord (sourceRecord s₀ i) = true)
    (ht : Env.storageAnswer s.env = true) :
    ∃ q', SameEnd q q' ∧ Segment (programElement s₀ start i) q s q' { s with env := Env.afterStorage s.env } := by
  have e0 : Segment [.sourceRecord i] q s { q.next with rangeI := i } { s with env := Env.afterStorage s.env } :=
    Segment.single (by simp [runLine, lineSourceRecord, ht]) rfl
  refine ⟨_, ?_, e0.of_eq (by simp [programElement, hk])⟩
  constructor <;> simp

/-- Elements of ProgramRange in order, each programmed one with its visit (R120, R121). -/
theorem programMany (s₀ : State) (start : Nat) (n : Nat) : ∀ (i : Nat) (visits : List StatusVisit) (q : Seq) (s : State),
    q.wpOpen = false → s.cfg = s₀.cfg → BusIdle s.ctrl → s.dir = .drive → Env.serves n s.env →
    visits.length = (pagesToProgram (start + i) ((List.range' i n).map (sourceRecord s₀))).length →
    (∀ v ∈ visits, v.Succeeds s.cfg) →
    Env.upcoming (visits.flatMap StatusVisit.answers).length s.env = visits.flatMap StatusVisit.answers →
    ∃ q', SameEnd q q' ∧ Segment (rangeLines (programElement s₀ start) i n) q s q'
      (progged s visits.length n (visits.flatMap StatusVisit.answers).length
        (programRangeEvents s.cfg s.ctrl ((pagesToProgram (start + i) ((List.range' i n).map (sourceRecord s₀))).zip visits))) := by
  induction n with
  | zero =>
    intro i visits q s _ _ _ _ _ hl _ _
    have : visits = [] := by simpa [pagesToProgram] using hl
    subst this
    exact ⟨q, ⟨rfl, rfl, rfl, rfl, rfl⟩, by
      simpa [rangeLines, progged, rangeCtrl, programRangeEvents, pagesToProgram, Env.after, Env.afterTransfers] using Segment.nil q s⟩
  | succ n ih =>
    intro i visits q s hq hc h hd ht hl hs hu
    simp only [Env.serves] at ht
    simp only [List.range'_succ, List.map_cons, pagesToProgram] at hl ⊢
    by_cases hk : skipRecord (sourceRecord s₀ i) = true
    · simp only [hk, if_true] at hl ⊢
      obtain ⟨q1, h1, e1⟩ := skipOne s₀ start i q s hk ht.1
      obtain ⟨q2, h2, e2⟩ := ih (i + 1) visits q1 { s with env := Env.afterStorage s.env } (h1.wpOpen.trans hq) hc h hd
        ht.2 hl hs (by simpa [upcoming_afterStorage] using hu)
      refine ⟨q2, h1.trans h2, ?_⟩
      refine (e1.append e2).cast rfl ?_
      simp [progged, Env.afterTransfers, Nat.add_assoc]
    · have hk : skipRecord (sourceRecord s₀ i) = false := by simpa using hk
      simp only [hk, Bool.false_eq_true, if_false, List.length_cons] at hl ⊢
      cases visits with
      | nil => simp at hl
      | cons v rest =>
        obtain ⟨hu1, hu2⟩ := upcoming_split (a := v.answers) (b := rest.flatMap StatusVisit.answers) (e := s.env) (by simpa using hu)
        obtain ⟨q1, h1, e1⟩ := programOne s₀ start i v q s hq hc h hd (hs v (by simp)) hk ht.1 hu1
        obtain ⟨q2, h2, e2⟩ := ih (i + 1) rest q1 (progged s 1 1 v.answers.length
          (programEvents s.cfg s.ctrl (start + i) (sourceRecord s₀ i) v.busy v.last v.status)) (h1.wpOpen.trans hq) hc
          (by simpa [progged, rangeCtrl] using h.withWP false) hd
          (by simpa [progged, serves_after, Env.afterTransfers] using ht.2) (by simpa [Nat.add_assoc] using hl) (fun w hw => hs w (by simp [hw]))
          (by simpa [progged, Env.afterTransfers, ← afterStorage_after, upcoming_afterStorage] using hu2)
        refine ⟨q2, h1.trans h2, ?_⟩
        refine (e1.append e2).cast rfl ?_
        cases rest with
        | nil => simp [progged, rangeCtrl, programRangeEvents, Env.after, Env.afterTransfers, afterTransfers_after]
        | cons w rest' => 
          simp [progged, rangeCtrl, programRangeEvents, programRangeEvents_wp, after_add, Env.afterTransfers, afterTransfers_after, Nat.add_assoc]

/-- The pages to program of two lists of records in turn. -/
theorem pagesToProgram_append (a b : List (List Byte)) : ∀ page,
    pagesToProgram page (a ++ b) = pagesToProgram page a ++ pagesToProgram (page + a.length) b := by
  induction a with
  | nil => intro _; simp [pagesToProgram]
  | cons r rest ih => intro page; simp only [List.cons_append, pagesToProgram, ih]; split <;> simp [Nat.add_assoc, Nat.add_comm 1]

/-- Record transfers commute with one more. -/
theorem afterTransfers_comm (m : Nat) (e : Env) :
    Env.afterTransfers m (Env.afterStorage e) = Env.afterStorage (Env.afterTransfers m e) := by
  have h1 := afterTransfers_add 1 m e
  have h2 := afterTransfers_add m 1 e
  rw [Nat.add_comm] at h1
  simpa [Env.afterTransfers] using h1.symm.trans h2

/-- The state a run of reads leaves. -/
def dumped (s : State) (n transfers : Nat) (answers : Nat) (ev : List Event) (recs : List (Nat × List Byte)) : State :=
  { s with
    data := if n = 0 then s.data else s.cfg.cmdRead1Confirm
    physCtrl := if n = 0 then s.physCtrl else some s.ctrl
    physData := if n = 0 then s.physData else some s.cfg.cmdRead1Confirm
    env := Env.after answers (Env.afterTransfers transfers s.env)
    trace := s.trace ++ ev
    sink := s.sink ++ recs }

/-- Sequencer states that agree on everything a response and the bracket need but the buffer. -/
structure SameBut (q q' : Seq) : Prop where
  op : q'.op = q.op
  report : q'.report = q.report
  idMatch : q'.idMatch = q.idMatch
  wpOpen : q'.wpOpen = q.wpOpen

/-- One element of DumpRange up to its sink (R119). -/
theorem readOne (start i : Nat) (v : Visit) (q : Seq) (s : State)
    (h : BusIdle s.ctrl) (hd : s.dir = .drive) (hw : WaitEnds s.cfg v.busy v.last) (hn : v.bytes.length = s.cfg.pageSize)
    (hu : Env.upcoming v.answers.length s.env = v.answers) :
    ∃ q', q'.outbuf = v.bytes ∧ q'.rangeI = i ∧ q'.buf = q.buf ∧ SameBut q q' ∧
      Segment (.element i :: readPageSequence s.cfg false (start + i)) q s q'
      { s with
        data := s.cfg.cmdRead1Confirm, physCtrl := some s.ctrl, physData := some s.cfg.cmdRead1Confirm,
        env := Env.after v.answers.length s.env,
        trace := s.trace ++ readPageEvents s.cfg s.ctrl (start + i) v.busy v.last v.bytes } := by
  have e0 := Segment.single (l := .element i) (q := q) (s := s) rfl rfl
  have e1 := readPage_segment false (start + i) v.busy v.last v.bytes { q.next with rangeI := i } s h hd hw
    (by simpa [Visit.answers, Nat.add_assoc, Nat.add_comm 1] using hu) hn (by simp)
  refine ⟨_, ?_, ?_, ?_, ?_, (e0.append e1).cast rfl ?_⟩
  · rfl
  · rfl
  · rfl
  · constructor <;> rfl
  · simp [Visit.answers, Nat.add_assoc, Nat.add_comm 1]

/-- A `MemWrite` at the end of the buffer appends. -/
theorem memWrite_end (b v : List Byte) (q : Seq) (n : Nat) (hq : q.buf = b) (hn : b.length = n) : (memWrite n v q).buf = b ++ v := by
  simp [memWrite, hq, ← hn]

/-- Elements of DumpRange in order, each with its visit (R119). -/
theorem dumpMany (start : Nat) (visits : List Visit) : ∀ (i : Nat) (q : Seq) (s : State), q.wpOpen = false →
    q.buf.length = i * s.cfg.pageSize →
    BusIdle s.ctrl → s.dir = .drive → Env.serves visits.length s.env →
    (∀ v ∈ visits, WaitEnds s.cfg v.busy v.last ∧ v.bytes.length = s.cfg.pageSize) →
    Env.upcoming (visits.flatMap Visit.answers).length s.env = visits.flatMap Visit.answers →
    ∃ q', q'.buf = q.buf ++ visits.flatMap Visit.bytes ∧ SameBut q q' ∧
      Segment (rangeLines (dumpElement s.cfg start) i visits.length) q s q'
      (dumped s visits.length visits.length (visits.flatMap Visit.answers).length
        (dumpEvents s.cfg s.ctrl (start + i) visits) (dumpRecords i visits)) := by
  induction visits with
  | nil =>
    intro i q s _ _ _ _ _ _ _
    exact ⟨q, by simp, ⟨rfl, rfl, rfl, rfl⟩, by
      simpa [rangeLines, dumped, dumpEvents, dumpRecords, Env.after, Env.afterTransfers] using Segment.nil q s⟩
  | cons v rest ih =>
    intro i q s hq hb h hd ht hs hu
    simp only [List.length_cons, Env.serves] at ht
    obtain ⟨hu1, hu2⟩ := upcoming_split (a := v.answers) (b := rest.flatMap Visit.answers) (e := s.env) (by simpa using hu)
    obtain ⟨hw, hn⟩ := hs v (by simp)
    obtain ⟨q1, ho, hr, hbuf, h1, e1⟩ := readOne start i v q s h hd hw hn hu1
    have e2 := e1.append (Segment.single (l := .sinkRecord)
      (q' := (memWrite (q1.rangeI * s.cfg.pageSize) q1.outbuf q1).next)
      (s' := dumped s 1 1 v.answers.length (readPageEvents s.cfg s.ctrl (start + i) v.busy v.last v.bytes) [(i, v.bytes)])
      (by simp [runLine, lineSinkRecord, answer_after, ht.1, dumped, ho, hr, Env.afterTransfers, afterStorage_after]) rfl)
    have hb1 : ((memWrite (q1.rangeI * s.cfg.pageSize) q1.outbuf q1).next).buf = q.buf ++ v.bytes := by
      simp only [Seq.next, ho]; exact memWrite_end _ _ _ _ hbuf (by rw [hr, hb])
    obtain ⟨q2, hb2, h2, e3⟩ := ih (i + 1)
      (s := dumped s 1 1 v.answers.length (readPageEvents s.cfg s.ctrl (start + i) v.busy v.last v.bytes) [(i, v.bytes)])
      (q := (memWrite (q1.rangeI * s.cfg.pageSize) q1.outbuf q1).next) (by simpa using h1.wpOpen.trans hq)
      (by rw [hb1]; simp [hb, hn, dumped, Nat.add_mul]) h hd
      (by simpa [dumped, serves_after, Env.afterTransfers] using ht.2) (fun w hw => hs w (by simp [hw]))
      (by simpa [dumped, Env.afterTransfers, ← afterStorage_after, upcoming_afterStorage] using hu2)
    refine ⟨q2, by rw [hb2, hb1]; simp, ?_, ?_⟩
    · exact ⟨h2.op.trans (by simpa using h1.op), h2.report.trans (by simpa using h1.report), h2.idMatch.trans (by simpa using h1.idMatch),
        h2.wpOpen.trans (by simpa using h1.wpOpen)⟩
    · refine ((e2.append e3).of_eq (by simp [rangeLines, dumpElement, dumped])).cast rfl ?_
      cases rest with
      | nil => simp [dumped, dumpEvents, dumpRecords, Env.after, Env.afterTransfers, afterTransfers_after]
      | cons w rest' => simp [dumped, dumpEvents, dumpRecords, after_add, Env.afterTransfers, afterTransfers_after, Nat.add_assoc]

/-- The events of a dump in two parts. -/
theorem dumpEvents_append (cfg : Config) (c : Byte) (a b : List Visit) : ∀ page,
    dumpEvents cfg c page (a ++ b) = dumpEvents cfg c page a ++ dumpEvents cfg c (page + a.length) b := by
  induction a with
  | nil => intro _; simp [dumpEvents]
  | cons v rest ih => intro page; simp [dumpEvents, ih, Nat.add_assoc, Nat.add_comm 1]

end Sys2Proof.Machine
end

