-- ==== Sys2Proof/Laws/Responds.lean ====
section
/-! SUPPORT. Where a request's run first has no request running: a run that ends is what `RespondsAt` finds, and a run of
unbounded length never responds (R34, R101). -/

namespace Sys2Proof.Machine

theorem respond_between {q : Seq} {r : Report} {s : State} (h : s.sessionOpen = true) : Between (respond q r s) := ⟨h, rfl⟩

/-- The steps of a running request up to its response: each leaves the request running but the last. -/
def ReachesBetween (i : Instr) (s t : State) : Prop :=
  ∃ n, execTimes (n + 1) i s = .next t ∧ Between t ∧ ∀ m < n, ∃ u, execTimes (m + 1) i s = .next u ∧ ¬ Between u

theorem ReachesBetween.respondsAt {i : Instr} {s t : State} (h : ReachesBetween i s t) : RespondsAt i s t := by
  obtain ⟨n, h1, h2, h3⟩ := h
  refine ⟨n, h1, h2, fun m hm u hu => ?_⟩
  obtain ⟨v, hv, hb⟩ := h3 m hm
  rw [hu] at hv; cases hv; exact hb

/-- One more step before. -/
theorem ReachesBetween.step {i : Instr} {s u t : State} (h : exec i s = .next u) (hu : ¬ Between u) (h' : ReachesBetween i u t) :
    ReachesBetween i s t := by
  obtain ⟨n, h1, h2, h3⟩ := h'
  refine ⟨n + 1, by rw [execTimes_succ h, h1], h2, fun m hm => ?_⟩
  cases m with
  | zero => exact ⟨u, by simp [execTimes, h], hu⟩
  | succ m => rw [execTimes_succ h]; exact h3 m (by omega)

theorem ReachesBetween.last {i : Instr} {s t : State} (h : exec i s = .next t) (ht : Between t) : ReachesBetween i s t :=
  ⟨0, by simp [execTimes, h], ht, fun m hm => absurd hm (by omega)⟩

/-- A running request whose sequence ends at `t` first has no request running at `t`. -/
theorem reachesBetween_of_ends (i : Instr) (s₀ : State) {q : Seq} {s t : State} (h : Ends (linesOf i s₀) q s t) :
    q.op = i → q.failing = none → SameRun s₀ s → ReachesBetween i { s with seq := some q } t := by
  induction h with
  | past hl =>
    intro hop hf hs
    exact .last (by rw [exec_running hop hs, advance_past hf hl]) (respond_between hs.sessionOpen)
  | line hl hr _ ih =>
    intro hop hf hs
    have fr := runLine_done_frame hr
    exact .step (by rw [exec_running hop hs, advance_done hf hl hr]) (by simp [Between])
      (ih (fr.op.trans hop) (fr.failing.trans hf) (hs.line fr))
  | raised hl hr hw =>
    intro hop hf hs
    have fr := runLine_raised_frame hr
    exact .step (by rw [exec_running hop hs, advance_raised hf hl hr]) (by simp [Between])
      (.last (exec_fails (fr.op.trans hop) (hs.line fr) hw) (respond_between (hs.line fr).sessionOpen))
  | restored hl hr hw =>
    intro hop hf hs
    have fr := runLine_raised_frame hr
    have hs' := hs.line fr
    exact .step (by rw [exec_running hop hs, advance_raised hf hl hr]) (by simp [Between])
      (.step (exec_restores (fr.op.trans hop) hs' hw) (by simp [Between])
        (.last (exec_fails_restored (fr.op.trans hop) hs') (respond_between hs'.sessionOpen)))

/-- A request that may start and whose sequence ends at `t` responds at `t`. -/
theorem respondsAt_of_ends {i : Instr} {s t : State} (hs : Between s) (ha : requestError i s = none)
    (h : Ends (linesOf i s) (Seq.start i) s t) : RespondsAt i s t := by
  obtain ⟨n, h1, h2, h3⟩ := reachesBetween_of_ends i s h rfl rfl (.start hs.1)
  refine ReachesBetween.respondsAt ⟨n, by rw [execTimes_start hs ha]; exact h1, h2, fun m hm => ?_⟩
  rw [execTimes_start hs ha]; exact h3 m hm

/-- A request responds at one state. -/
theorem RespondsAt.unique {i : Instr} {s t t' : State} (h : RespondsAt i s t) (h' : RespondsAt i s t') : t = t' := by
  obtain ⟨n, h1, h2, h3⟩ := h
  obtain ⟨n', h1', h2', h3'⟩ := h'
  rcases Nat.lt_trichotomy n n' with hlt | rfl | hlt
  · exact absurd h2 (h3' n hlt t h1)
  · rw [h1] at h1'; cases h1'; rfl
  · exact absurd h2' (h3 n' hlt t' h1')

/-- A raised error responds at one state: after the restore, where the bracket is open (R129). -/
theorem reachesBetween_of_raise {i : Instr} {e : Report} {q : Seq} {s₀ s : State} (hop : q.op = i) (h : SameRun s₀ s) :
    ReachesBetween i (raiseError e q s)
      (respond q e (if q.wpOpen then flushCtrl (setSignal .nWP false s) else s)) := by
  cases hw : q.wpOpen with
  | false => exact .last (exec_fails hop h hw) (respond_between h.sessionOpen)
  | true =>
    exact .step (exec_restores hop h hw) (by simp [Between])
      (.last (exec_fails_restored hop h) (respond_between h.sessionOpen))

/-- What first has no request running is one state. -/
theorem ReachesBetween.unique {i : Instr} {s t : State} (h : ReachesBetween i s t) {n : Nat} {t' : State}
    (h1 : execTimes (n + 1) i s = .next t') (h2 : Between t') (h3 : ∀ m < n, ∀ u, execTimes (m + 1) i s = .next u → ¬ Between u) :
    t' = t := by
  obtain ⟨k, k1, k2, k3⟩ := h
  rcases Nat.lt_trichotomy n k with hlt | rfl | hlt
  · obtain ⟨u, hu, hb⟩ := k3 n hlt
    rw [h1] at hu; cases hu; exact absurd h2 hb
  · rw [h1] at k1; cases k1; rfl
  · exact absurd k2 (h3 k hlt t k1)

/-- Conversely, a running request that first has no request running at `t` has a sequence that ends at `t`. -/
theorem ends_of_reaching (i : Instr) (s₀ t : State) (ht : Between t) : ∀ (n : Nat) (q : Seq) (s : State),
    execTimes (n + 1) i { s with seq := some q } = .next t →
    (∀ m < n, ∀ u, execTimes (m + 1) i { s with seq := some q } = .next u → ¬ Between u) →
    q.op = i → q.failing = none → SameRun s₀ s → Ends (linesOf i s₀) q s t := by
  intro n
  induction n with
  | zero =>
    intro q s h _ hop hf hs
    rw [execTimes_succ (exec_running hop hs)] at h
    simp only [execTimes, Host.Outcome.next.injEq] at h
    have ha := advance_advances (linesOf i s₀) q s
    rw [h] at ha
    cases ha with
    | restores hf' => rw [hf] at hf'; cases hf'
    | fails hf' => rw [hf] at hf'; cases hf'
    | ends _ hl => exact .past hl
    | goesOn => cases ht.2
    | raises => cases ht.2
  | succ n ih =>
    intro q s h hn hop hf hs
    have hx := exec_running hop hs
    have h0 := hn 0 (by omega) _ (by rw [execTimes_succ hx]; rfl)
    have hn' : ∀ m < n, ∀ u, execTimes (m + 1) i (advance (linesOf i s₀) q s) = .next u → ¬ Between u := by
      intro m hm u hu
      exact hn (m + 1) (by omega) u (by rw [execTimes_succ hx]; exact hu)
    rw [execTimes_succ hx] at h
    have ha := advance_advances (linesOf i s₀) q s
    generalize advance (linesOf i s₀) q s = v at *
    cases ha with
    | restores hf' => rw [hf] at hf'; cases hf'
    | fails hf' => rw [hf] at hf'; cases hf'
    | ends _ hl => exact absurd (respond_between hs.sessionOpen) h0
    | goesOn _ hl hr =>
      have fr := runLine_done_frame hr
      exact .line hl hr (ih _ _ h hn' (fr.op.trans hop) (fr.failing.trans hf) (hs.line fr))
    | @raises l e q' s' _ hl hr =>
      have fr := runLine_raised_frame hr
      have hu := (reachesBetween_of_raise (e := e) (fr.op.trans hop) (hs.line fr)).unique h ht hn'
      rw [hu]
      cases hw : q'.wpOpen with
      | false => exact .raised hl hr hw
      | true => exact .restored hl hr hw

/-- A request that may start responds where its sequence ends, and only there. -/
theorem respondsAt_iff_ends {i : Instr} {s t : State} (hs : Between s) (ha : requestError i s = none) :
    RespondsAt i s t ↔ Ends (linesOf i s) (Seq.start i) s t := by
  refine ⟨fun ⟨n, h1, h2, h3⟩ => ?_, respondsAt_of_ends hs ha⟩
  refine ends_of_reaching i s t h2 n _ _ (by rw [← execTimes_start hs ha]; exact h1) (fun m hm u hu => ?_) rfl rfl (.start hs.1)
  exact h3 m hm u (by rw [execTimes_start hs ha]; exact hu)

/-- The state at which a request responds, if it does within `n` steps. -/
def respondsWithin : Nat → Instr → State → Option State
  | 0, _, _ => none
  | n + 1, i, s =>
    match exec i s with
    | .next t => if t.sessionOpen = true ∧ t.seq = none then some t else respondsWithin n i t
    | .fault _ => none
    | .refused _ => none

theorem reachesBetween_of_within {i : Instr} {t : State} : ∀ {n : Nat} {s : State}, respondsWithin n i s = some t →
    ReachesBetween i s t := by
  intro n
  induction n with
  | zero => intro s h; cases h
  | succ n ih =>
    intro s h
    simp only [respondsWithin] at h
    split at h
    · rename_i u hu
      split at h
      · rename_i hb; cases h; exact .last hu hb
      · rename_i hb; exact .step hu hb (ih h)
    · cases h
    · cases h

/-- What is found in a bounded number of steps is where the request responds. -/
theorem respondsAt_of_within {n : Nat} {i : Instr} {s t : State} (h : respondsWithin n i s = some t) : RespondsAt i s t :=
  (reachesBetween_of_within h).respondsAt

/-! ## Long runs -/

/-- Exactly `n` lines performed one after another without an error. -/
inductive RunsFor (lines : List Line) : Nat → Seq → State → Seq → State → Prop
  | zero (q : Seq) (s : State) : RunsFor lines 0 q s q s
  | line {n : Nat} {l : Line} {q q₁ q' : Seq} {s s₁ s' : State} (hl : lines[q.step]? = some l)
      (hr : runLine l q s = .done q₁ s₁) (h : RunsFor lines n q₁ s₁ q' s') : RunsFor lines (n + 1) q s q' s'

theorem Runs.runsFor {lines : List Line} {q q' : Seq} {s s' : State} (h : Runs lines q s q' s') :
    ∃ n, RunsFor lines n q s q' s' := by
  induction h with
  | refl => exact ⟨0, .zero _ _⟩
  | line hl hr _ ih => obtain ⟨n, hn⟩ := ih; exact ⟨n + 1, .line hl hr hn⟩

/-- A line takes at most one sample of a wait. -/
theorem runLine_polls {l : Line} {q q' : Seq} {s s' : State} (h : runLine l q s = .done q' s') : q'.polls ≤ q.polls + 1 := by
  cases l <;> simp only [runLine, lineFlush, lineSample, lineFlushData, lineCheckEntry, lineLatchByte, lineReadByte,
    lineWriteProtect, lineWaitStart, linePoll, linePollInterval, lineCompareId, lineTakeStatus, lineStoreStatus, lineTestStatus,
    lineSourceRecord, lineSinkRecord] at h <;> (repeat' split at h) <;> cases h <;> simp [Seq.next, memWrite]

/-- A run is at least as long as the samples it takes. -/
theorem RunsFor.polls {lines : List Line} {n : Nat} {q q' : Seq} {s s' : State} (h : RunsFor lines n q s q' s') :
    q'.polls ≤ q.polls + n := by
  induction h with
  | zero => omega
  | line _ hr _ ih => have := runLine_polls hr; omega

/-- While a request's lines go on, it is running. -/
theorem running_of_runsFor (i : Instr) (s₀ : State) {n : Nat} {q q' : Seq} {s s' : State}
    (h : RunsFor (linesOf i s₀) n q s q' s') : q.op = i → q.failing = none → SameRun s₀ s →
      ∀ m < n, ∃ u, execTimes (m + 1) i { s with seq := some q } = .next u ∧ ¬ Between u := by
  induction h with
  | zero => intro _ _ _ m hm; omega
  | @line n l' q q₁ q' s s₁ s' hl hr h ih =>
    intro hop hf hs m hm
    have fr := runLine_done_frame hr
    have key := exec_running hop hs
    rw [advance_done hf hl hr] at key
    cases m with
    | zero => exact ⟨_, by simp [execTimes, key]; rfl, by simp [Between]⟩
    | succ m =>
      rw [execTimes_succ key]
      exact ih (fr.op.trans hop) (fr.failing.trans hf) (hs.line fr) m (by omega)

/-- A request whose run can be made to take any number of samples never responds (R101). -/
theorem not_respondsAt {i : Instr} {s t : State} (hs : Between s) (ha : requestError i s = none)
    (h : ∀ n, ∃ q' s', Runs (linesOf i s) (Seq.start i) s q' s' ∧ n ≤ q'.polls) : ¬ RespondsAt i s t := by
  rintro ⟨n, h1, h2, -⟩
  obtain ⟨q', s', hr, hn⟩ := h (n + 1)
  obtain ⟨k, hk⟩ := hr.runsFor
  have hp := hk.polls
  have hk' : n < k := by simp [Seq.start] at hp; omega
  obtain ⟨u, hu, hb⟩ := running_of_runsFor i s hk rfl rfl (.start hs.1) n hk'
  rw [← execTimes_start hs ha, h1] at hu
  cases hu; exact hb h2

/-! ## How a wait can go -/

theorem upcoming_count (n : Nat) : ∀ e : Env, (Env.upcoming n e).length = n := by
  induction n with
  | zero => intro e; rfl
  | succ n ih => intro e; simp [Env.upcoming, ih]

/-- Among the first `n` answers, the first ready one, or none. -/
theorem first_ready (n : Nat) : ∀ e : Env,
    (∃ busy last, busy.length < n ∧ Env.upcoming (busy.length + 1) e = busy ++ [last] ∧ (∀ v ∈ busy, ready v = false) ∧
      ready last = true) ∨ ∀ v ∈ Env.upcoming n e, ready v = false := by
  induction n with
  | zero => intro e; exact .inr (by simp [Env.upcoming])
  | succ n ih =>
    intro e
    cases hr : ready (Env.sample e) with
    | true => exact .inl ⟨[], Env.sample e, by simp, rfl, by simp, hr⟩
    | false =>
      rcases ih (Env.afterSample e) with ⟨busy, last, h1, h2, h3, h4⟩ | h
      · refine .inl ⟨Env.sample e :: busy, last, by simp; omega, ?_, ?_, h4⟩
        · rw [List.length_cons, Env.upcoming, h2, List.cons_append]
        · intro v hv
          rcases List.mem_cons.1 hv with rfl | hv
          · exact hr
          · exact h3 v hv
      · refine .inr fun v hv => ?_
        rcases List.mem_cons.1 hv with rfl | hv
        · exact hr
        · exact h v hv

/-- A wait ends on a ready sample, times out, or takes busy samples for ever (R99, R100, R101). -/
theorem wait_outcomes (cfg : Config) (e : Env) :
    (∃ busy last, WaitEnds cfg busy last ∧ Env.upcoming (busy.length + 1) e = busy ++ [last]) ∨
    (∃ limit busy last, cfg.pollLimit = some limit ∧ Env.upcoming limit.val e = busy ++ [last] ∧ (∀ v ∈ busy, ready v = false) ∧
      ready last = false) ∨
    (cfg.pollLimit = none ∧ ∀ n, ∀ v ∈ Env.upcoming n e, ready v = false) := by
  cases hc : cfg.pollLimit with
  | some limit =>
    rcases first_ready limit.val e with ⟨busy, last, h1, h2, h3, h4⟩ | h
    · exact .inl ⟨busy, last, ⟨h3, h4, by intro l hl; rw [hc] at hl; cases hl; exact h1⟩, h2⟩
    · refine .inr (.inl ⟨limit, ?_⟩)
      have hpos := limit.pos
      have hne : Env.upcoming limit.val e ≠ [] := by
        intro h0; have := congrArg List.length h0; simp [upcoming_count] at this
      refine ⟨(Env.upcoming limit.val e).dropLast, (Env.upcoming limit.val e).getLast hne, rfl,
        (List.dropLast_append_getLast hne).symm, fun v hv => h v (List.mem_of_mem_dropLast hv), h _ (List.getLast_mem hne)⟩
  | none =>
    by_cases hn : ∃ n, ∃ v ∈ Env.upcoming n e, ready v = true
    · obtain ⟨n, v, hv, hr⟩ := hn
      rcases first_ready n e with ⟨busy, last, _, h2, h3, h4⟩ | h
      · exact .inl ⟨busy, last, ⟨h3, h4, by intro l hl; rw [hc] at hl; cases hl⟩, h2⟩
      · rw [h v hv] at hr; cases hr
    · refine .inr (.inr ⟨rfl, fun n v hv => ?_⟩)
      by_contra h
      exact hn ⟨n, v, hv, by simpa using h⟩

/-- The wait's loop on `n` busy samples with no safety valve: it stands at its sample again (R101). -/
theorem pollLoop_busy (before behind : List Line) (n : Nat) : ∀ (q : Seq) (s : State), q.step = before.length + 1 →
    s.cfg.pollLimit = none → (∀ v ∈ Env.upcoming n s.env, ready v = false) →
    ∃ s', Runs (before ++ waitWhileBusy ++ behind) q s { q with polls := q.polls + n } s' := by
  induction n with
  | zero => intro q s _ _ _; exact ⟨s, .refl _ _⟩
  | succ n ih =>
    intro q s hq hc hb
    have hv : ready (Env.sample s.env) = false := hb _ (by simp [Env.upcoming])
    obtain ⟨s', h⟩ := ih { q with polls := q.polls + 1 }
      { s with
        env := Env.afterSample s.env
        trace := s.trace ++ [.readCtrl (Env.sample s.env)] ++ delayEvents s.cfg.tPollInterval } hq hc
      (fun v hv => hb v (by simp [Env.upcoming, hv]))
    refine ⟨s', .line (l := .poll) (line_at 1 hq rfl) (by simp only [runLine, linePoll, hv, pollLimitReached, hc]; rfl)
      (.line (l := .pollInterval) (line_at 2 (by simp only [hq]) rfl) rfl ?_)⟩
    simp only [sleep_eq, adapterRead, readEvent]
    exact h.cast (by simp) rfl (by simp [Nat.add_assoc, Nat.add_comm 1]) rfl

/-- A request that responds and whose sequence runs through to a wait: the wait ends, or it times out (R99 to R101). -/
theorem wait_of_respondsAt {i : Instr} {s t s₁ : State} {q₁ : Seq} {a b : List Line} (hs : Between s) (ha : requestError i s = none)
    (hl : linesOf i s = a ++ waitWhileBusy ++ b) (hseg : Segment a (Seq.start i) s q₁ s₁) (h : RespondsAt i s t) :
    (∃ busy last, WaitEnds s₁.cfg busy last ∧ Env.upcoming (busy.length + 1) s₁.env = busy ++ [last]) ∨
    (∃ limit busy last, s₁.cfg.pollLimit = some limit ∧ Env.upcoming limit.val s₁.env = busy ++ [last] ∧
      (∀ v ∈ busy, ready v = false) ∧ ready last = false) := by
  rcases wait_outcomes s₁.cfg s₁.env with h1 | h1 | ⟨hc, hb⟩
  · exact .inl h1
  · exact .inr h1
  · refine absurd h (not_respondsAt hs ha fun n => ?_)
    have h1 := hseg.2 [] (waitWhileBusy ++ b) rfl
    simp only [List.nil_append] at h1
    have hstep : a.length = q₁.step := by rw [hseg.1]; simp [Seq.start]
    obtain ⟨s', h2⟩ := pollLoop_busy a b n { q₁ with step := q₁.step + 1, polls := 0 }
      { s₁ with trace := s₁.trace ++ delayEvents s₁.cfg.tBusySettle } (by simp [hstep]) hc (hb n)
    refine ⟨{ q₁ with step := q₁.step + 1, polls := 0 + n }, s', ?_, Nat.le_add_left n 0⟩
    rw [hl, List.append_assoc]
    refine h1.trans (.line (l := .waitStart) (by simp [← hstep, waitWhileBusy]) rfl ?_)
    simp only [sleep_eq, Seq.next]
    simpa using h2

end Sys2Proof.Machine
end

