-- ==== Sys2Proof/Machine/Requests.lean ====
section
/-! DEFINITION. How a host writes requests: the assembler's payload forms and the pseudo-operations (R68, R80, R81). -/

namespace Sys2Proof.Machine

/-- A request: an instruction and its payload (R68). -/
structure Request where
  instr : Instr
  payload : List Byte
deriving DecidableEq, Repr

/-- The request's bytes in the stream: the descriptor, then the payload (R68). -/
def Request.bytes (r : Request) : List Byte := encodeRequest r.instr r.payload

/-- The stream of a list of requests, in order (R35, R68). -/
def streamOf (requests : List Request) : Stream := Stream.ofBytes (requests.flatMap Request.bytes)

/-- A request with no payload. -/
def Request.plain (i : Instr) : Request := { instr := i, payload := [] }

/-- `B` computed from a payload's length; a length that 24 bits do not hold has no descriptor (R69, R80). -/
def payloadField (n : Nat) : Option Field24 := if n < 2 ^ 24 then some (BitVec.ofNat 24 n) else none

/-- `LADDR [b0, b1, ...]` (R80). -/
def Request.laddr (bytes : List Byte) : Option Request :=
  (payloadField bytes.length).map fun n => { instr := .laddr n, payload := bytes }

/-- `LDIN [b0, b1, ...]` (R80). -/
def Request.ldin (bytes : List Byte) : Option Request :=
  (payloadField bytes.length).map fun n => { instr := .ldin n, payload := bytes }

/-- `PROGRAM page, payload` (R80). -/
def Request.program (page : Field24) (payload : List Byte) : Option Request :=
  (payloadField payload.length).map fun n => { instr := .program page n, payload := payload }

/-- `PROGRAMRANGE start, count, payload`: the assembler "refuses a payload whose length is not `count × PAGE_SIZE`" (R80). -/
def Request.programRange (cfg : Config) (start count : Field24) (payload : List Byte) : Option Request :=
  if payload.length = count.toNat * cfg.pageSize then
    some { instr := .programrange start count, payload := payload }
  else none

/-- `WPOFF` (R81): nWP is pin 5. -/
def pseudoWpoff : List Request := [.plain (.setpin .ctrl 5 true), .plain (.flush .ctrl)]

/-- `WPON` (R81). -/
def pseudoWpon : List Request := [.plain (.setpin .ctrl 5 false), .plain (.flush .ctrl)]

/-- `CEOFF` (R81): nCE is pin 2. -/
def pseudoCeoff : List Request := [.plain (.setpin .ctrl 2 true), .plain (.flush .ctrl)]

/-- `CEON` (R81). -/
def pseudoCeon : List Request := [.plain (.setpin .ctrl 2 false), .plain (.flush .ctrl)]

/-- `LADDR5 p, c` (R81): the full 5-cycle address. -/
def pseudoLaddr5 (page column : Nat) : List Request := (Request.laddr (toAddressCycles page column)).toList

/-- `LROW p` (R81): the row-only address. -/
def pseudoLrow (page : Nat) : List Request := (Request.laddr (rowBytes page)).toList

/-- `DRIVE b` (R81). -/
def pseudoDrive (b : Byte) : List Request := [.plain (.setdata b), .plain (.flush .data)]

end Sys2Proof.Machine
end

