-- ==== Sys2Proof/Tests/Slice0.lean ====
section
/-! SUPPORT. Tests of the model's own work: the checks of WellFormed, one descriptor of every row written out from R69 and R70,
the vectors of 95_test_vectors.md, and a witness for the hypotheses of every obligation. -/

namespace Sys2Proof.Tests

open Sys2Proof.Machine

/-! ## Helpers -/

/-- A small geometry: pages of two bytes, two pages a block. -/
def tiny : Config := { pageSize := 2, pagesPerBlock := 2 }

/-- A state between requests with given registers, the payload's bytes after an empty descriptor, and listed samples. -/
def stateAt (ctrl : Byte) (dir : Dir) (payload samples : List Byte) (cfg : Config := tiny) : State :=
  { State.newSession cfg (Stream.ofBytes (List.replicate 8 0 ++ payload)) with
    ctrl := ctrl
    dir := dir
    physCtrl := some ctrl
    physData := some 0x00
    env := { Env.free with samples := samples } }

/-- The idle state after INIT (R31, R147). -/
def idleState (payload samples : List Byte) (cfg : Config := tiny) : State := stateAt 0x18 .drive payload samples cfg

/-- The idle state with listed storage answers. -/
def storageState (payload samples : List Byte) (storage : List Bool) (cfg : Config := tiny) : State :=
  { idleState payload samples cfg with env := { Env.free with samples := samples, storage := storage } }

/-- A state whose next request has the descriptor `w`. -/
def fetchState (w : Nat) : State := State.reset.withFetchWord 64 w

/-- What a request answers and the events it makes, if it responds within `n` steps. -/
def answer (n : Nat) (i : Instr) (s : State) : Option (Option Response × List Event) :=
  (respondsWithin n i s).map fun t => (t.resp, t.trace)

/-- A response without the identifier bit. -/
def reply (r : Report) (bytes : List Byte) : Option Response := some { report := r, bytes := bytes, idMatch := false }

/-- Whether a machine step answers a next state. -/
def goesOn (o : Host.Outcome State Fault Refusal) : Bool :=
  match o with
  | .next _ => true
  | .fault _ => false
  | .refused _ => false

theorem goesOn_next {o : Host.Outcome State Fault Refusal} (h : goesOn o = true) : ∃ t, o = .next t := by
  cases o with
  | next t => exact ⟨t, rfl⟩
  | fault _ => cases h
  | refused _ => cases h

/-! ## WellFormed: an ill-formed term for each check -/

/-- R73: the control bus's RDY pin. -/
theorem test_wellFormed_refuses_rdy_pin : (Instr.setpin .ctrl 6 true).wellFormed = false := by decide

/-- R73: the same pin of the data bus is legal. -/
theorem test_wellFormed_data_pin : (Instr.setpin .data 6 true).wellFormed = true := by decide

/-- R71: PROGRAM with a length that is not the page size (V-SEQ-11). -/
theorem test_lengthOk_refuses : (Instr.program 7 2111).lengthOk 2112 = false := by decide

theorem test_lengthOk_page : (Instr.program 7 2112).lengthOk 2112 = true := by decide

/-! ## Decoding: one descriptor of every row, written out from R69, R70, R72 and R74 -/

/-- `SETPIN ctrl.nWP, 1` (V-GPIO-1): OP 0x01, IMM = 0 0 0 1 1 101. -/
theorem test_decode_setpin : decode 0x0000000000001D01 = .ok (.setpin .ctrl 5 true) := by decide
theorem test_decode_setdata : decode 0x0000000000005A02 = .ok (.setdata 0x5A) := by decide
theorem test_decode_flush : decode 0x0000000000000103 = .ok (.flush .ctrl) := by decide
theorem test_decode_sample : decode 0x0000000000000004 = .ok (.sample .data) := by decide
theorem test_decode_setdir : decode 0x0000000000000105 = .ok (.setdir .read) := by decide
/-- `DELAY 10` (V-GPIO-22): A stands at bits 39 to 16. -/
theorem test_decode_delay : decode 0x00000000000A0006 = .ok (.delay 10) := by decide
theorem test_decode_init : decode 0x0000000000000007 = .ok .init := by decide
theorem test_decode_lcmd : decode 0x0000000000009010 = .ok (.lcmd 0x90) := by decide
/-- `LADDR` of two bytes (V-BUS-9): B stands at bits 63 to 40. -/
theorem test_decode_laddr : decode 0x0000020000000011 = .ok (.laddr 2) := by decide
theorem test_decode_lout : decode 0x0000020000000012 = .ok (.lout 2) := by decide
theorem test_decode_ldin : decode 0x0000010000000013 = .ok (.ldin 1) := by decide
theorem test_decode_waitrdy : decode 0x0000000000000018 = .ok .waitrdy := by decide
/-- `ADDRCYC 0x123456, 0xABCD` (V-ADDR-3). -/
theorem test_decode_addrcyc : decode 0x00ABCD123456001C = .ok (.addrcyc 0x123456 0xABCD) := by decide
theorem test_decode_readid : decode 0x0000000000000020 = .ok .readid := by decide
theorem test_decode_readpage : decode 0x0000000000050021 = .ok (.readpage 5) := by decide
theorem test_decode_erase : decode 0x00000000000A0022 = .ok (.erase 10) := by decide
/-- `PROGRAM 7` with B = 2111 (V-SEQ-11). -/
theorem test_decode_program : decode 0x00083F0000070023 = .ok (.program 7 2111) := by decide
theorem test_decode_readstatus : decode 0x0000000000000024 = .ok .readstatus := by decide
theorem test_decode_dump : decode 0x0000020000010030 = .ok (.dump 1 2) := by decide
theorem test_decode_programrange : decode 0x0000030000020031 = .ok (.programrange 2 3) := by decide
theorem test_decode_eraserange : decode 0x0000020000020032 = .ok (.eraserange 2 2) := by decide

/-- The bytes of a descriptor are little-endian (R68). -/
theorem test_decode_bytes : decodeBytes [0x21, 0x00, 0x05, 0x00, 0x00, 0x00, 0x00, 0x00, 0xEE] = .ok (.readpage 5) := by decide
theorem test_decode_bytes_short : decodeBytes [0x21, 0x00, 0x05, 0x00, 0x00, 0x00, 0x00] = .error .cutShort := by decide

/-- Rejections: V-DEC-1, V-DEC-4, V-DEC-5, V-GPIO-8, V-GPIO-20. -/
theorem test_decode_rejects :
    decode 0x0000000000000000 = .error (.reservedOpcode 0) ∧ decode 0x0000000000000107 = .error (.reservedField 0x107) ∧
    decode 0x0000010000050021 = .error (.reservedField 0x0000010000050021) ∧ decode 0x1601 = .error (.rdyPin 0x1601) ∧
    decode 0x0205 = .error (.reservedField 0x0205) := by decide

/-- The rows of the opcode map are distinct (R70). -/
theorem test_opcodes_distinct : (Mnemonic.all.map Mnemonic.opcode).Nodup := by decide

/-- `decodeTableWord` reads the table's bit numbers. -/
theorem test_decodeTableWord : decodeTableWord 64 0x00ABCD123456001C = some (.addrcyc 0x123456 0xABCD) := by decide

/-! ## The vectors of 95_test_vectors.md, one or two for each instruction -/

/-- V-GPIO-4. -/
theorem test_setpin : (respondsWithin 9 (.setpin .data 7 true) (idleState [] [])).map State.data = some 0x80 := by decide
/-- V-GPIO-7. -/
theorem test_setpin_rdy : answer 9 (.setpin .ctrl 6 true) (idleState [] []) = some (reply (.illegalRequest 0x01) [], []) := by decide
/-- V-GPIO-10. -/
theorem test_setdata : (respondsWithin 9 (.setdata 0x5A) (idleState [] [])).map State.data = some 0x5A := by decide
/-- V-GPIO-11. -/
theorem test_flush_ctrl : answer 9 (.flush .ctrl) State.reset = some (reply .ok [], [.writeCtrl 0x00]) := by decide
/-- V-GPIO-13. -/
theorem test_flush_data : answer 9 (.flush .data) State.reset = some (reply (.directionViolation .data) [], []) := by decide
/-- V-GPIO-15. -/
theorem test_sample_ctrl : answer 9 (.sample .ctrl) (idleState [] [0x40]) = some (reply .ok [0x40], [.readCtrl 0x40]) := by decide
/-- V-GPIO-17. -/
theorem test_sample_data :
    answer 9 (.sample .data) (stateAt 0x18 .read [] [0x3C]) = some (reply .ok [0x3C], [.readData 0x3C]) := by decide
/-- V-GPIO-18. -/
theorem test_setdir : (respondsWithin 9 (.setdir .read) (idleState [] [])).map State.dir = some .read := by decide
/-- V-GPIO-21. -/
theorem test_delay_zero : answer 9 (.delay 0) State.reset = some (reply .ok [], []) := by decide
/-- V-GPIO-22. -/
theorem test_delay : answer 9 (.delay 10) State.reset = some (reply .ok [], [.delay 10]) := by decide
/-- V-GPIO-23. -/
theorem test_init : answer 9 .init State.reset =
    some (reply .ok [], [.writeCtrl 0x18, .setDir .drive, .writeData 0x00]) := by decide
/-- V-GPIO-24: AUX is kept. -/
theorem test_init_aux : (respondsWithin 9 .init (stateAt 0xBB .read [] [])).map State.ctrl = some 0x98 := by decide
/-- V-BUS-1. -/
theorem test_lcmd : answer 9 (.lcmd 0x90) (idleState [] []) = some (reply .ok [],
    [.writeCtrl 0x19, .writeCtrl 0x11, .writeData 0x90, .writeCtrl 0x19, .writeCtrl 0x18]) := by decide
/-- V-BUS-4: the first failing conjunct wins. -/
theorem test_lcmd_precondition : answer 9 (.lcmd 0x90) (stateAt 0x0C .read [] []) =
    some (reply (.protocolPrecondition .LCMD .nCE) [], []) := by decide
/-- V-BUS-9. -/
theorem test_laddr : answer 20 (.laddr 2) (idleState [0x12, 0x34] []) = some (reply .ok [],
    [.writeCtrl 0x1A, .writeCtrl 0x12, .writeData 0x12, .writeCtrl 0x1A, .writeCtrl 0x12, .writeData 0x34, .writeCtrl 0x1A,
      .writeCtrl 0x18]) := by decide
/-- V-BUS-13: the delay slots. -/
theorem test_laddr_delays :
    answer 20 (.laddr 1) (idleState [0x00] [] { tiny with tPreDrive := 1, tPostDrive := 2, tPostLatch := 3 }) = some (reply .ok [],
      [.writeCtrl 0x1A, .writeCtrl 0x12, .delay 1, .writeData 0x00, .delay 2, .writeCtrl 0x1A, .delay 3, .writeCtrl 0x18]) := by
  decide
/-- V-BUS-16. -/
theorem test_lout : answer 20 (.lout 2) (idleState [] [0x11, 0x22]) = some (reply .ok [0x11, 0x22],
    [.setDir .read, .writeCtrl 0x08, .readData 0x11, .writeCtrl 0x18, .writeCtrl 0x08, .readData 0x22, .writeCtrl 0x18,
      .setDir .drive]) := by decide
/-- V-BUS-18. -/
theorem test_lout_precondition : answer 9 (.lout 1) (stateAt 0x1A .drive [] []) =
    some (reply (.protocolPrecondition .LOUT .ALE) [], []) := by decide
/-- V-BUS-24: LDIN has no precondition on nCE (C4). -/
theorem test_ldin : answer 20 (.ldin 1) (stateAt 0x1C .drive [0xA5] []) =
    some (reply .ok [], [.writeCtrl 0x14, .writeData 0xA5, .writeCtrl 0x1C]) := by decide
/-- V-BUS-25. -/
theorem test_ldin_direction : answer 9 (.ldin 1) (stateAt 0x18 .read [0xA5] []) =
    some (reply (.directionViolation .data) [], []) := by decide
/-- V-BUSY-2: only bit 6 counts. -/
theorem test_waitrdy : answer 9 .waitrdy (idleState [] [0xBF, 0x40]) = some (reply .ok [], [.readCtrl 0xBF, .readCtrl 0x40]) := by
  decide
/-- V-BUSY-8: no delay before the raise. -/
theorem test_waitrdy_timeout : answer 9 .waitrdy (idleState [] [0x00] { tiny with pollLimit := some 1, tPollInterval := 5 }) =
    some (reply (.timeout 1) [], [.readCtrl 0x00]) := by decide
/-- V-ADDR-3. -/
theorem test_addrcyc : answer 9 (.addrcyc 0x123456 0xABCD) State.reset =
    some (reply .ok [0xCD, 0xAB, 0x56, 0x34, 0x12], []) := by decide
/-- V-ADDR-8. -/
theorem test_rowBytes : rowBytes 262080 = [0xC0, 0xFF, 0x03] := by decide
/-- V-SEQ-1, as the binary response of R79. -/
theorem test_readid : (answer 60 .readid (idleState [] [0xAD, 0xDC, 0x10, 0x95, 0x54])).map
    (fun a => (a.1.map Response.encode, a.2.length)) =
      some (some [0x00, 0x01, 0x05, 0x00, 0x00, 0xAD, 0xDC, 0x10, 0x95, 0x54], 27) := by decide +kernel
/-- V-SEQ-2. -/
theorem test_readid_mismatch : (answer 60 .readid (idleState [] [0xAD, 0xDC, 0x10, 0x95, 0x00])).map Prod.fst =
    some (reply .identityMismatch [0xAD, 0xDC, 0x10, 0x95, 0x00]) := by decide +kernel
/-- R146: with nCE = 1, READID ends at its first command; `id_match` is then free (entry 22), the rest is not. -/
theorem test_readid_aborts : (answer 60 .readid (stateAt 0x1C .drive [] [])).map
    (fun a => (a.1.map fun r => (r.report, r.bytes), a.2)) =
      some (some (.protocolPrecondition .LCMD .nCE, []), []) := by decide +kernel
/-- V-SEQ-3. -/
theorem test_readpage : (answer 90 (.readpage 5) (idleState [] [0x40, 1, 2, 3, 4] { tiny with pageSize := 4 })).map
    (fun a => (a.1, a.2.length)) = some (reply .ok [1, 2, 3, 4], 42) := by decide +kernel
/-- V-SEQ-5. -/
theorem test_erase_fails : (answer 90 (.erase 10) (idleState [] [0x40, 0x01])).map
    (fun a => (a.1, a.2.length, a.2.getLast?)) = some (reply (.eraseFailed 10 0x01) [0x01], 34, some (.writeCtrl 0x18)) := by
  decide +kernel
/-- V-SEQ-18: the restore at an error inside the bracket. -/
theorem test_erase_precondition : answer 9 (.erase 10) (stateAt 0x1C .drive [] []) =
    some (reply (.protocolPrecondition .LCMD .nCE) [], [.writeCtrl 0x3C, .writeCtrl 0x1C]) := by decide
/-- V-SEQ-13. -/
theorem test_program_fails : (answer 120 (.program 3 4) (idleState [1, 2, 3, 4] [0x40, 0xE1] { tiny with pageSize := 4 })).map
    (fun a => (a.1, a.2.length)) = some (reply (.programFailed 3 0xE1) [0xE1], 52) := by decide +kernel
/-- V-SEQ-12. -/
theorem test_program_length : answer 9 (.program 7 0) State.reset = some (reply (.lengthMismatch 0) [], []) := by decide
/-- V-SEQ-15. -/
theorem test_readstatus : answer 40 .readstatus (idleState [] [0xE1]) = some (reply .ok [0xE1],
    [.writeCtrl 0x19, .writeCtrl 0x11, .writeData 0x70, .writeCtrl 0x19, .writeCtrl 0x18, .setDir .read, .writeCtrl 0x08,
      .readData 0xE1, .writeCtrl 0x18, .setDir .drive]) := by decide +kernel
/-- V-RANGE-2, its second page alone, with pages of two bytes: 29 + 3 · 2 + 1 events (R116). -/
theorem test_dump : (respondsWithin 80 (.dump 2 1) (storageState [] [0x40, 0x22, 0x22] [true])).map
    (fun t => (t.resp, t.sink, t.trace.length)) = some (reply .ok [0x22, 0x22], [(0, [0x22, 0x22])], 36) := by decide +kernel
/-- V-RANGE-1. -/
theorem test_dump_empty : answer 9 (.dump 0 0) (idleState [] []) = some (reply .ok [], []) := by decide
/-- V-RANGE-5: skipped records make no adapter call. -/
theorem test_programrange_skips : answer 9 (.programrange 0 2) (storageState [0xFF, 0xFF, 0x00, 0x00] [] [true, true]) =
    some (reply .ok [], []) := by decide
/-- V-RANGE-7: a payload cut short, with the length required. -/
theorem test_programrange_short : answer 9 (.programrange 0 2) (idleState [0xFF, 0xFF, 0x00] []) =
    some (reply (.lengthMismatch 4) [], []) := by decide
/-- V-RANGE-9, from its failing block on: the first failure ends the range and names its block. -/
theorem test_eraserange_fails : (answer 80 (.eraserange 1 2) (idleState [] [0x40, 0x01])).map
    (fun a => (a.1, a.2.length)) = some (reply (.eraseFailed 1 0x01) [], 34) := by decide +kernel
/-- V-RANGE-10. -/
theorem test_eraserange_empty : answer 9 (.eraserange 0 0) (idleState [] []) = some (reply .ok [], []) := by decide

/-! ## Whole steps, memory and requests -/

/-- The step after reset with an INIT placed makes its first line's one call (R6, R90). -/
theorem test_step_init : (match step (fetchState 0x07) with | .next t => t.trace | _ => []) = [.writeCtrl 0x18] := by decide

/-- V-DEC-3: a reserved opcode is answered and counted. -/
theorem test_step_reserved : (match step (fetchState 0xFF) with | .next t => (t.resp, t.rp) | _ => (none, 0)) =
    (reply (.illegalRequest 0xFF) [], 1) := by decide

/-- R132: during `DELAY 10`'s Sleep the event stands in the trace and no response does; an abort there leaves just that, and discards
the mirrors (R39). -/
theorem test_abort_during_delay :
    (match exec (.delay 10) (idleState [] []) with
      | .next t => some (t.endSession.trace, t.endSession.resp, t.endSession.ctrl, t.endSession.physCtrl)
      | _ => none) = some ([.delay 10], none, 0x00, some 0x18) := by decide

/-- R39: after the session's end no instruction runs. -/
theorem test_exec_after_session_end : exec (.flush .ctrl) (idleState [] []).endSession = .refused .sessionEnded := rfl

/-- R145 with U22: a sample before any control write, and a first control write with nRE = 0, take neither side; after a write with
nRE = 1 the edge is a read clock. -/
theorem test_view_unknown_nre :
    busCycles (viewOf State.reset) [.setDir .read, .readData 0x05] = [.uncertainOut 0x05] ∧
    busCycles (viewOf State.reset) [.writeCtrl 0x0C, .setDir .read, .readData 0x05] =
      [.uncertainLatch, .uncertainClock, .uncertainOut 0x05] ∧
    busCycles (viewOf State.reset) [.writeCtrl 0x18, .writeCtrl 0x08, .setDir .read, .readData 0x05] =
      [.uncertainLatch, .readClock, .dataOut 0x05] := by decide

/-- R53: each nRE 1→0 edge is a read clock, also one that no sample follows and one with nCE = 1, nWE = 0 or ALE = 1. -/
theorem test_read_clock_each_edge :
    busCycles (viewOf (idleState [] [])) [.writeCtrl 0x08, .writeCtrl 0x18, .writeCtrl 0x08] = [.readClock, .readClock] ∧
    busCycles (viewOf (idleState [] [])) [.writeCtrl 0x0C, .readData 5] = [.readClock, .unlistedOut 5] ∧
    busCycles (viewOf (idleState [] [])) [.writeCtrl 0x00, .readData 5] = [.readClock, .unlistedOut 5] ∧
    busCycles (viewOf (idleState [] [])) [.writeCtrl 0x0A, .readData 5] = [.readClock, .unlistedOut 5] := by decide

/-- R52: a sample is no read clock; R63: a data-out cycle ends when nRE returns to 1. -/
theorem test_sample_again :
    busCycles (viewOf (idleState [] [])) [.writeCtrl 0x08, .readData 5, .readData 5, .writeCtrl 0x18, .readData 5] =
      [.readClock, .dataOut 5, .resampled 5, .outside 5] := by decide

/-- Right after reset there is no request. -/
theorem test_step_reset : goesOn (step State.reset) = false := by decide

/-- Writing what an unlisted address reads as removes the entry. -/
theorem test_memory_canonical : Memory.write (Memory.write [] 5 1) 5 0 = [] := by decide

/-- `LADDR5 640, 0` (R81, L1.1). -/
theorem test_laddr5 : (pseudoLaddr5 640 0).map Request.bytes =
    [[0x11, 0, 0, 0, 0, 5, 0, 0, 0x00, 0x00, 0x80, 0x02, 0x00]] := by decide

/-- The assembler refuses a PROGRAMRANGE payload of another length (R80). -/
theorem test_assembler_refuses : Request.programRange tiny 0 2 [1, 2, 3] = none := by decide

/-! ## Witnesses: states and operands that meet the hypotheses of each obligation with hypotheses -/

/-- The levels of the idle control byte (R31). -/
theorem idleByte : level 0x18 .CLE = false ∧ level 0x18 .ALE = false ∧ level 0x18 .nCE = false ∧ level 0x18 .nWE = true ∧
    level 0x18 .nRE = true ∧ level 0x18 .RDY = false := by decide

theorem idle_idleState (payload samples : List Byte) (cfg : Config) : Idle (idleState payload samples cfg) :=
  ⟨idleByte.1, idleByte.2.1, idleByte.2.2.1, idleByte.2.2.2.1, idleByte.2.2.2.2.1, idleByte.2.2.2.2.2, rfl, rfl, rfl⟩

theorem between_stateAt (ctrl : Byte) (dir : Dir) (payload samples : List Byte) (cfg : Config) :
    Between (stateAt ctrl dir payload samples cfg) := ⟨rfl, rfl⟩

theorem idle_storageState (payload samples : List Byte) (storage : List Bool) {cfg : Config} :
    Idle (storageState payload samples storage cfg) :=
  ⟨idleByte.1, idleByte.2.1, idleByte.2.2.1, idleByte.2.2.2.1, idleByte.2.2.2.2.1, idleByte.2.2.2.2.2, rfl, rfl, rfl⟩

/-- A wait that ends, with no safety valve. -/
theorem waitEnds_unlimited {cfg : Config} {busy : List Byte} {last : Byte} (hc : cfg.pollLimit = none)
    (hb : ∀ v ∈ busy, ready v = false) (hl : ready last = true) : WaitEnds cfg busy last :=
  ⟨hb, hl, fun limit h => by rw [hc] at h; cases h⟩

/-- The invariant of every step holds where a request is placed at the start of a session. -/
theorem inv_fetchState (w : Nat) : MachineInv (fetchState w) where
  rdyMirror := show level 0x00 .RDY = false by decide
  rdyWrites := by intro v h; cases h
  physCtrlRecord := rfl
  physDataRecord := rfl
  dirRecord := rfl
  directed := trivial
  responded := ⟨fun _ => rfl, fun _ => rfl⟩
  bracket := by intro q h; cases h
  canonical := Stream.place_wf ⟨Memory.wf_nil, by intro c h; cases h⟩ _ _ _

theorem witness_ResetSatisfiesInvariant : Stream.wf (Stream.ofBytes [0x07, 0, 0, 0, 0, 0, 0, 0]) := Stream.ofBytes_wf _

theorem witness_StepKeepsInvariant : MachineInv (fetchState 0x22) ∧ ∃ t, step (fetchState 0x22) = .next t :=
  ⟨inv_fetchState _, goesOn_next (by decide)⟩

theorem witness_DecodeOfEncode : (Instr.setpin .ctrl 7 true).wellFormed = true ∧ (Instr.program 0xFFFFFF 0xFFFFFF).wellFormed = true := by
  decide

theorem witness_EncodeOfDecode : decode 0x00ABCD123456001C = .ok (.addrcyc 0x123456 0xABCD) := by decide

/-- Both ends of each range of R76. -/
theorem witness_ReservedOpcodesRefused :
    ∀ op ∈ [0x00, 0x08, 0x0F, 0x14, 0x17, 0x19, 0x1B, 0x1D, 0x1F, 0x25, 0x2F, 0x33, 0xFF],
      (fetchState op).sessionOpen = true ∧ (fetchState op).seq = none ∧
      fetchBytes (fetchState op) = Descriptor.toBytes (BitVec.ofNat 64 op) ∧
      ((BitVec.ofNat 64 op).extractLsb' 0 8).toNat = op := by decide

theorem witness_RdyPinRefused :
    ((fetchState 0x1601).sessionOpen = true ∧ Between (fetchState 0x1601) ∧
      fetchBytes (fetchState 0x1601) = Descriptor.toBytes 0x1601 ∧ (0x1601 : Descriptor).extractLsb' 0 8 = 0x01 ∧
      (0x1601 : Descriptor).getLsbD 12 = true ∧ (0x1601 : Descriptor).extractLsb' 8 3 = 6) ∧
    ¬(Bus.data = .ctrl ∧ (6 : BitVec 3) = 6) ∧ ¬(Bus.ctrl = .ctrl ∧ (7 : BitVec 3) = 6) ∧
      ¬(Bus.ctrl = .ctrl ∧ (5 : BitVec 3) = 6) := by
  unfold Between; decide

theorem witness_IllegalDescriptorRefused : ∀ w ∈ [0x00, 0x107, 0x1601],
    (fetchState w).sessionOpen = true ∧ (fetchState w).seq = none ∧
      fetchBytes (fetchState w) = Descriptor.toBytes (BitVec.ofNat 64 w) ∧
      (decode (BitVec.ofNat 64 w)).toOption = none := by decide

theorem witness_PayloadLengthRule : decode 0x0000020000000011 = .ok (.laddr 2) ∧ decode 0x0000010000000013 = .ok (.ldin 1) ∧
    decode 0x00083F0000070023 = .ok (.program 7 2111) ∧ decode 0x0000030000020031 = .ok (.programrange 2 3) ∧
    decode 0x0000000000000007 = .ok .init ∧ Between (idleState [] []) ∧ (1 : Field24).toNat ≠ (idleState [] []).cfg.pageSize ∧
    (3 : Field24).toNat ≠ (idleState [] []).cfg.pageSize := by
  unfold Between; decide

/-- One byte short, for each operation with a payload. -/
theorem witness_ShortPayloadRefused : ∀ i ∈ [Instr.laddr 3, .ldin 3, .program 0 2, .programrange 0 2],
    i.wellFormed = true ∧ i.lengthOk tiny.pageSize = true ∧
      ¬PayloadPresent i (idleState (List.replicate (i.payloadLength tiny.pageSize - 1) 0) []) ∧ Between (idleState [] []) := by
  unfold Between PayloadPresent; decide

theorem witness_StepRunsTheDecodedInstruction :
    ((fetchState 0x07).sessionOpen = true ∧ Between (fetchState 0x07) ∧ decodeBytes (fetchBytes (fetchState 0x07)) = .ok .init) ∧
    ∃ (s : State) (q : Seq), s.sessionOpen = true ∧ s.seq = some q ∧ q.op = Instr.init ∧ q.step = 1 :=
  ⟨by unfold Between; decide, { fetchState 0x07 with seq := some { Seq.start .init with step := 1 } }, _, rfl, rfl, rfl, rfl⟩

/-- The four clauses, the third at one and at seven bytes, the last at eight. -/
theorem witness_StepStopsOnlyWithoutARequest :
    State.reset.endSession.sessionOpen = false ∧
    (State.reset.sessionOpen = true ∧ Between State.reset ∧ State.reset.stream.length ≤ State.reset.pos) ∧
    (∀ n ∈ [1, 7], (State.newSession tiny (Stream.ofBytes (List.replicate n 0))).pos <
        (State.newSession tiny (Stream.ofBytes (List.replicate n 0))).stream.length ∧
      (State.newSession tiny (Stream.ofBytes (List.replicate n 0))).stream.length <
        (State.newSession tiny (Stream.ofBytes (List.replicate n 0))).pos + 8) ∧
    (State.newSession tiny (Stream.ofBytes (List.replicate 8 0))).pos + 8 ≤
      (State.newSession tiny (Stream.ofBytes (List.replicate 8 0))).stream.length ∧
    { State.reset with seq := some (Seq.start .waitrdy) }.seq ≠ none := by
  unfold Between; decide

/-- Every value of the two clauses' pins next to RDY, and the ends. -/
theorem witness_SetpinChangesOneMirrorBit : Between (idleState [] []) ∧ (0 : BitVec 3) ≠ 6 ∧ (5 : BitVec 3) ≠ 6 ∧ (7 : BitVec 3) ≠ 6 := by
  unfold Between; decide

/-- Also of `SetdirSwitchesTheDirection`, `InitCompletes` and `AddrcycReturnsTheCycles`, from every direction. -/
theorem witness_SetdataWritesTheDataMirror : Between State.reset ∧ State.reset.dir = .unset ∧ Between (stateAt 0x18 .read [] []) ∧
    Between (idleState [] []) := ⟨⟨rfl, rfl⟩, rfl, ⟨rfl, rfl⟩, ⟨rfl, rfl⟩⟩

theorem witness_FlushWritesOneMirror : (Between (idleState [] []) ∧ (idleState [] []).dir = .drive) ∧
    (Between (stateAt 0x18 .read [] []) ∧ (stateAt 0x18 .read [] []).dir ≠ .drive) ∧
    (Between State.reset ∧ State.reset.dir ≠ .drive) := by
  unfold Between; decide

theorem witness_SampleReturnsOneAnswer : (Between (stateAt 0x18 .read [] [0x3C]) ∧ (stateAt 0x18 .read [] [0x3C]).dir = .read) ∧
    (Between (idleState [] []) ∧ (idleState [] []).dir ≠ .read) ∧ (Between State.reset ∧ State.reset.dir ≠ .read) := by
  unfold Between; decide

theorem witness_SetdirSwitchesTheDirection : Between (idleState [] []) ∧ Between (stateAt 0x18 .read [] []) := ⟨⟨rfl, rfl⟩, ⟨rfl, rfl⟩⟩

theorem witness_DelayMakesOneDelayEvent : Between State.reset ∧ 0 < (1 : Field24).toNat ∧ 0 < (0xFFFFFF : Field24).toNat := by
  unfold Between; decide

theorem witness_InitCompletes : Between (stateAt 0xBB .read [] []) := ⟨rfl, rfl⟩

theorem witness_InitLeavesIdle : Between (stateAt 0xBB .read [] []) ∧ level (stateAt 0xBB .read [] []).ctrl .RDY = false ∧
    level (stateAt 0xBB .read [] []).ctrl .AUX = true ∧ level State.reset.ctrl .AUX = false := by
  unfold Between; decide

/-- ALE is free (V-BUS-6). -/
theorem witness_LcmdCompletes : Between (stateAt 0x1A .drive [] []) ∧ level (stateAt 0x1A .drive [] []).ctrl .nCE = false ∧
    level (stateAt 0x1A .drive [] []).ctrl .nRE = true ∧ (stateAt 0x1A .drive [] []).dir = .drive := by
  unfold Between; decide

/-- Two bytes, and none. -/
theorem witness_LaddrCompletes : Between (idleState [1, 2] []) ∧ PayloadPresent (.laddr 2) (idleState [1, 2] []) ∧
    PayloadPresent (.laddr 0) (idleState [] []) ∧ level (idleState [1, 2] []).ctrl .nCE = false ∧
    level (idleState [1, 2] []).ctrl .CLE = false ∧ level (idleState [1, 2] []).ctrl .nRE = true ∧
    (idleState [1, 2] []).dir = .drive := by
  unfold Between PayloadPresent; decide

/-- CLE and the direction are free (V-BUS-20, V-BUS-21). -/
theorem witness_LoutCompletes : Between (stateAt 0x19 .read [] []) ∧ level (stateAt 0x19 .read [] []).ctrl .nCE = false ∧
    level (stateAt 0x19 .read [] []).ctrl .nWE = true ∧ level (stateAt 0x19 .read [] []).ctrl .ALE = false := by
  unfold Between; decide

/-- No level is asked (V-BUS-24). -/
theorem witness_LdinCompletes : Between (stateAt 0x1C .drive [0xA5] []) ∧ PayloadPresent (.ldin 1) (stateAt 0x1C .drive [0xA5] []) ∧
    PayloadPresent (.ldin 0) (stateAt 0x1C .drive [] []) ∧ (stateAt 0x1C .drive [0xA5] []).dir = .drive := by
  unfold Between PayloadPresent; decide

/-- Each check of each operation fails alone: V-BUS-2, 3, 5, 10, 11, 12, 17, 18, 19, 25. -/
theorem witness_BusOperationChecksFailFast :
    level 0x1C .nCE = true ∧ (level 0x08 .nCE = false ∧ level 0x08 .nRE = false) ∧
    (level 0x18 .nCE = false ∧ level 0x18 .nRE = true ∧ (stateAt 0x18 .read [] []).dir ≠ .drive) ∧
    (level 0x19 .nCE = false ∧ level 0x19 .CLE = true) ∧
    (level 0x08 .nCE = false ∧ level 0x08 .CLE = false ∧ level 0x08 .nRE = false) ∧
    (level 0x18 .nCE = false ∧ level 0x18 .CLE = false ∧ level 0x18 .nRE = true) ∧
    (level 0x10 .nCE = false ∧ level 0x10 .nWE = false) ∧
    (level 0x1A .nCE = false ∧ level 0x1A .nWE = true ∧ level 0x1A .ALE = true) ∧
    PayloadPresent (.laddr 1) (stateAt 0x18 .read [0] []) ∧ PayloadPresent (.ldin 1) (stateAt 0x18 .read [0] []) ∧
    Between (stateAt 0x18 .read [0] []) := by
  unfold Between PayloadPresent; decide

/-- Also of `ReadidCompletes` and `ReadstatusCompletes`. -/
theorem witness_BusOperationsPreserveIdle : Idle (idleState [1, 2] []) ∧ Between (idleState [1, 2] []) ∧
    PayloadPresent (.laddr 2) (idleState [1, 2] []) ∧ PayloadPresent (.ldin 2) (idleState [1, 2] []) :=
  ⟨idle_idleState _ _ _, ⟨rfl, rfl⟩, by unfold PayloadPresent; decide, by unfold PayloadPresent; decide⟩

theorem witness_BusCyclesFromIdle : Idle (idleState [1, 2] []) ∧ Between (idleState [1, 2] []) ∧
    PayloadPresent (.laddr 2) (idleState [1, 2] []) ∧ PayloadPresent (.ldin 2) (idleState [1, 2] []) :=
  witness_BusOperationsPreserveIdle

/-- No busy sample; two, below a limit of three. -/
theorem witness_WaitrdyCompletes :
    (Between (idleState [] [0x40]) ∧ WaitEnds tiny [] 0x40 ∧ Env.upcoming 1 (idleState [] [0x40]).env = [0x40]) ∧
    (WaitEnds { tiny with pollLimit := some 3 } [0x00, 0xBF] 0x40 ∧
      Env.upcoming 3 (idleState [] [0x00, 0xBF, 0x40]).env = [0x00, 0xBF] ++ [0x40]) :=
  ⟨⟨⟨rfl, rfl⟩, waitEnds_unlimited rfl (by decide) (by decide), by decide⟩,
    ⟨by decide, by decide, fun limit h => by cases h; decide⟩, by decide⟩

/-- The limit 1 and the limit 2; also of `TimeoutRestoresWriteProtect`. -/
theorem witness_WaitrdyTimesOut :
    (idleState [] [0] { tiny with pollLimit := some 1 }).cfg.pollLimit = some 1 ∧
    Env.upcoming 1 (idleState [] [0]).env = [] ++ [0] ∧
    (idleState [] [0, 0xBF] { tiny with pollLimit := some 2 }).cfg.pollLimit = some 2 ∧
    Env.upcoming 2 (idleState [] [0, 0xBF]).env = [0] ++ [0xBF] ∧ (∀ v ∈ [(0 : Byte)], ready v = false) ∧ ready 0xBF = false ∧
    ready 0 = false ∧ Between (idleState [] [0, 0xBF] { tiny with pollLimit := some 2 }) := by
  unfold Between; decide

theorem witness_WaitrdyGoesOnWhileBusy : Between (idleState [] [0, 0xBF]) ∧ (idleState [] [0, 0xBF]).cfg.pollLimit = none ∧
    Env.upcoming 2 (idleState [] [0, 0xBF]).env = [0, 0xBF] ∧ ∀ v ∈ [(0 : Byte), 0xBF], ready v = false := by
  unfold Between; decide

theorem witness_AddrcycReturnsTheCycles : Between State.reset := ⟨rfl, rfl⟩

theorem witness_AddressCyclesInverse : 0xFFFFFF < 2 ^ 24 ∧ 0xFFFF < 2 ^ 16 ∧
    toAddressCycles 0xFFFFFF 0xFFFF = toAddressCycles 0xFFFFFF 0xFFFF := by decide

theorem witness_ReadidCompletes : Idle (idleState [] [0xAD, 0xDC, 0x10, 0x95, 0x54]) ∧
    Between (idleState [] [0xAD, 0xDC, 0x10, 0x95, 0x54]) ∧
    Env.upcoming 5 (idleState [] [0xAD, 0xDC, 0x10, 0x95, 0x54]).env = tiny.expectedId.toList ∧
    Env.upcoming 5 (idleState [] [0xAD, 0xDC, 0x10, 0x95, 0x55]).env ≠ tiny.expectedId.toList :=
  ⟨idle_idleState _ _ _, ⟨rfl, rfl⟩, by decide, by decide⟩

theorem witness_ReadpageCompletes : Idle (idleState [] [0x00, 0x40, 1, 2]) ∧ Between (idleState [] [0x00, 0x40, 1, 2]) ∧
    WaitEnds tiny [0x00] 0x40 ∧ [(1 : Byte), 2].length = tiny.pageSize ∧
    Env.upcoming 4 (idleState [] [0x00, 0x40, 1, 2]).env = Visit.answers ⟨[0x00], 0x40, [1, 2]⟩ :=
  ⟨idle_idleState _ _ _, ⟨rfl, rfl⟩, waitEnds_unlimited rfl (by decide) (by decide), rfl, by decide⟩

/-- A status without and with failure. -/
theorem witness_EraseCompletes : Idle (idleState [] [0x40, 0xE0]) ∧ Between (idleState [] [0x40, 0xE0]) ∧ WaitEnds tiny [] 0x40 ∧
    Env.upcoming 2 (idleState [] [0x40, 0xE0]).env = StatusVisit.answers ⟨[], 0x40, 0xE0⟩ ∧
    Env.upcoming 2 (idleState [] [0x40, 0xE1]).env = StatusVisit.answers ⟨[], 0x40, 0xE1⟩ ∧
    (0xE0 : Byte).getLsbD 0 = false ∧ (0xE1 : Byte).getLsbD 0 = true :=
  ⟨idle_idleState _ _ _, ⟨rfl, rfl⟩, waitEnds_unlimited rfl (by decide) (by decide), by decide, by decide, by decide, by decide⟩

theorem witness_ProgramCompletes : Idle (idleState [1, 2] [0x40, 0xE0]) ∧ Between (idleState [1, 2] [0x40, 0xE0]) ∧
    (2 : Field24).toNat = tiny.pageSize ∧ PayloadPresent (.program 3 2) (idleState [1, 2] [0x40, 0xE0]) ∧ WaitEnds tiny [] 0x40 ∧
    Env.upcoming 2 (idleState [1, 2] [0x40, 0xE0]).env = StatusVisit.answers ⟨[], 0x40, 0xE0⟩ :=
  ⟨idle_idleState _ _ _, ⟨rfl, rfl⟩, rfl, by unfold PayloadPresent; decide, waitEnds_unlimited rfl (by decide) (by decide), by decide⟩

theorem witness_ReadstatusCompletes : Idle (idleState [] [0xE1]) ∧ Between (idleState [] [0xE1]) := ⟨idle_idleState _ _ _, ⟨rfl, rfl⟩⟩

/-- A safety valve of two samples. -/
def limited : Config := { tiny with pollLimit := some 2 }

theorem waitEnds_limited : WaitEnds limited [] 0x40 := ⟨by decide, by decide, fun limit h => by cases h; decide⟩

/-- A chip operation's first wait; and the second element of each range, after one that completed. -/
theorem witness_TimeoutRestoresWriteProtect :
    (limited.pollLimit = some 2 ∧ (∀ v ∈ [(0 : Byte)], ready v = false) ∧ ready 0 = false) ∧
    (Idle (idleState [1, 2] [0, 0] limited) ∧ Between (idleState [1, 2] [0, 0] limited) ∧
      Env.upcoming (0 + 2) (idleState [1, 2] [0, 0] limited).env = [] ++ ([0] ++ [0]) ∧
      (2 : Field24).toNat = limited.pageSize ∧ PayloadPresent (.program 3 2) (idleState [1, 2] [0, 0] limited)) ∧
    (let s := storageState [] [0x40, 1, 2, 0, 0] [true] limited
     Idle s ∧ Between s ∧ [(⟨[], 0x40, [1, 2]⟩ : Visit)].length < (2 : Field24).toNat ∧ WaitEnds limited [] 0x40 ∧
      [(1 : Byte), 2].length = limited.pageSize ∧ Env.serves 1 s.env ∧
      Env.upcoming (3 + 2) s.env = [(⟨[], 0x40, [1, 2]⟩ : Visit)].flatMap Visit.answers ++ ([0] ++ [0])) ∧
    (let s := idleState [] [0x40, 0xE0, 0, 0] limited
     Idle s ∧ Between s ∧ [(⟨[], 0x40, 0xE0⟩ : StatusVisit)].length < (2 : Field24).toNat ∧
      StatusVisit.Succeeds limited ⟨[], 0x40, 0xE0⟩ ∧
      Env.upcoming (2 + 2) s.env = [(⟨[], 0x40, 0xE0⟩ : StatusVisit)].flatMap StatusVisit.answers ++ ([0] ++ [0])) ∧
    (let s := storageState [1, 2, 3, 4] [0x40, 0xE0, 0, 0] [true, true] limited
     Idle s ∧ Between s ∧ 1 < (2 : Field24).toNat ∧ PayloadPresent (.programrange 0 2) s ∧ Env.serves (1 + 1) s.env ∧
      skipRecord (sourceRecord s 1) = false ∧
      [(⟨[], 0x40, 0xE0⟩ : StatusVisit)].length = (pagesToProgram 0 (sourceRecords s 1)).length ∧
      Env.upcoming (2 + 2) s.env = [(⟨[], 0x40, 0xE0⟩ : StatusVisit)].flatMap StatusVisit.answers ++ ([0] ++ [0])) :=
  ⟨by decide, ⟨idle_idleState _ _ _, ⟨rfl, rfl⟩, by decide, rfl, by unfold PayloadPresent; decide⟩,
    ⟨idle_storageState _ _ _, ⟨rfl, rfl⟩, by decide, waitEnds_limited, rfl, ⟨rfl, trivial⟩, by decide⟩,
    ⟨idle_idleState _ _ _, ⟨rfl, rfl⟩, by decide, ⟨waitEnds_limited, by decide⟩, by decide⟩,
    ⟨idle_storageState _ _ _, ⟨rfl, rfl⟩, by decide, by unfold PayloadPresent; decide, ⟨rfl, rfl, trivial⟩, by decide, by decide,
      by decide⟩⟩

/-- Each of the three failing checks (V-SEQ-17, V-SEQ-16, and `dir = Read`), a count of 1, PROGRAM's premises, and PROGRAMRANGE's
with its first record skipped. -/
theorem witness_ChipOperationsFailFastOutsideTheirChecks :
    (level (stateAt 0x1C .drive [] []).ctrl .nCE = true ∧ Between (stateAt 0x1C .drive [] [])) ∧
    (level State.reset.ctrl .nCE = false ∧ level State.reset.ctrl .nRE = false ∧ Between State.reset) ∧
    (level (stateAt 0x18 .read [1, 2] []).ctrl .nCE = false ∧ level (stateAt 0x18 .read [1, 2] []).ctrl .nRE = true ∧
      (stateAt 0x18 .read [1, 2] []).dir ≠ .drive ∧ Between (stateAt 0x18 .read [1, 2] [])) ∧
    (0 < (1 : Field24).toNat ∧ (2 : Field24).toNat = tiny.pageSize ∧
      PayloadPresent (.program 3 2) (stateAt 0x18 .read [1, 2] [])) ∧
    (let s : State := { stateAt 0x1C .drive [0xFF, 0xFF, 1, 2] [] with env := { Env.free with storage := [true, true] } }
     level s.ctrl .nCE = true ∧ Between s ∧ 1 < (2 : Field24).toNat ∧ PayloadPresent (.programrange 0 2) s ∧
      Env.serves (1 + 1) s.env ∧ (∀ k < 1, skipRecord (sourceRecord s k) = true) ∧ skipRecord (sourceRecord s 1) = false) := by
  refine ⟨by unfold Between; decide, by unfold Between; decide, by unfold Between; decide, by unfold PayloadPresent; decide,
    by decide, ⟨rfl, rfl⟩, by decide, by unfold PayloadPresent; decide, ⟨rfl, rfl, trivial⟩, by decide, by decide⟩

/-- Whether a request responds within some steps. -/
theorem responds {n : Nat} {i : Instr} {s : State} (h : (respondsWithin n i s).isSome = true) : ∃ t, RespondsAt i s t := by
  obtain ⟨t, ht⟩ := Option.isSome_iff_exists.1 h
  exact ⟨t, respondsAt_of_within ht⟩

/-- Each operation responds from an idle state; also of `BracketIsClosedAtEveryResponse`. -/
theorem witness_ChipOperationsFromIdleEndIdle :
    (Idle (idleState [] [1, 2, 3, 4, 5]) ∧ ∃ t, RespondsAt .readid (idleState [] [1, 2, 3, 4, 5]) t) ∧
    (Idle (idleState [] [0x40, 1, 2]) ∧ ∃ t, RespondsAt (.readpage 5) (idleState [] [0x40, 1, 2]) t) ∧
    (Idle (idleState [] [0x40, 0xE1]) ∧ ∃ t, RespondsAt (.erase 1) (idleState [] [0x40, 0xE1]) t) ∧
    (Idle (idleState [1, 2] [0x40, 0xE1]) ∧ (2 : Field24).toNat = tiny.pageSize ∧
      PayloadPresent (.program 3 2) (idleState [1, 2] [0x40, 0xE1]) ∧
      ∃ t, RespondsAt (.program 3 2) (idleState [1, 2] [0x40, 0xE1]) t) ∧
    (Idle (idleState [] [0xE1]) ∧ ∃ t, RespondsAt .readstatus (idleState [] [0xE1]) t) :=
  ⟨⟨idle_idleState _ _ _, responds (n := 60) (by decide +kernel)⟩, ⟨idle_idleState _ _ _, responds (n := 80) (by decide +kernel)⟩,
    ⟨idle_idleState _ _ _, responds (n := 80) (by decide +kernel)⟩,
    ⟨idle_idleState _ _ _, rfl, by unfold PayloadPresent; decide, responds (n := 100) (by decide +kernel)⟩,
    ⟨idle_idleState _ _ _, responds (n := 40) (by decide +kernel)⟩⟩

theorem witness_ChipOperationEventCounts : Idle (idleState [1, 2] [0x40, 0xE0]) ∧ Between (idleState [1, 2] [0x40, 0xE0]) ∧
    NoDelays tiny ∧ WaitEnds tiny [] 0x40 ∧ (2 : Field24).toNat = tiny.pageSize ∧ [(1 : Byte), 2].length = tiny.pageSize ∧
    PayloadPresent (.program 3 2) (idleState [1, 2] [0x40, 0xE0]) ∧
    Env.upcoming 2 (idleState [1, 2] [0x40, 0xE0]).env = StatusVisit.answers ⟨[], 0x40, 0xE0⟩ ∧
    Env.upcoming 3 (idleState [] [0x40, 1, 2]).env = Visit.answers ⟨[], 0x40, [1, 2]⟩ :=
  ⟨idle_idleState _ _ _, ⟨rfl, rfl⟩, by unfold NoDelays; decide, waitEnds_unlimited rfl (by decide) (by decide), rfl, rfl,
    by unfold PayloadPresent; decide, by decide, by decide⟩

/-- Two pages; none. -/
theorem witness_DumpCompletes :
    Idle (storageState [] [0x40, 1, 2, 0x40, 3, 4] [true, true]) ∧ Between (storageState [] [0x40, 1, 2, 0x40, 3, 4] [true, true]) ∧
    [(⟨[], 0x40, [1, 2]⟩ : Visit), ⟨[], 0x40, [3, 4]⟩].length = (2 : Field24).toNat ∧ WaitEnds tiny [] 0x40 ∧
    [(1 : Byte), 2].length = tiny.pageSize ∧ [(3 : Byte), 4].length = tiny.pageSize ∧
    Env.upcoming 6 (storageState [] [0x40, 1, 2, 0x40, 3, 4] [true, true]).env =
      [(⟨[], 0x40, [1, 2]⟩ : Visit), ⟨[], 0x40, [3, 4]⟩].flatMap Visit.answers ∧
    Env.serves 2 (storageState [] [0x40, 1, 2, 0x40, 3, 4] [true, true]).env ∧ ([] : List Visit).length = (0 : Field24).toNat ∧
    Env.serves 0 (storageState [] [] []).env :=
  ⟨idle_storageState _ _ _, ⟨rfl, rfl⟩, rfl, waitEnds_unlimited rfl (by decide) (by decide), rfl, rfl, by decide, ⟨rfl, rfl, trivial⟩, rfl,
    trivial⟩

/-- A skipped record and a programmed one. -/
theorem witness_ProgramrangeCompletes :
    Idle (storageState [0xFF, 0xFF, 1, 2] [0x40, 0xE0] [true, true]) ∧
    Between (storageState [0xFF, 0xFF, 1, 2] [0x40, 0xE0] [true, true]) ∧
    PayloadPresent (.programrange 2 2) (storageState [0xFF, 0xFF, 1, 2] [0x40, 0xE0] [true, true]) ∧
    Env.serves 2 (storageState [0xFF, 0xFF, 1, 2] [0x40, 0xE0] [true, true]).env ∧
    (pagesToProgram 2 (sourceRecords (storageState [0xFF, 0xFF, 1, 2] [0x40, 0xE0] [true, true]) 2)).length = 1 ∧
    StatusVisit.Succeeds tiny ⟨[], 0x40, 0xE0⟩ ∧
    Env.upcoming 2 (storageState [0xFF, 0xFF, 1, 2] [0x40, 0xE0] [true, true]).env = StatusVisit.answers ⟨[], 0x40, 0xE0⟩ :=
  ⟨idle_storageState _ _ _, ⟨rfl, rfl⟩, by unfold PayloadPresent; decide, ⟨rfl, rfl, trivial⟩, by decide,
    ⟨waitEnds_unlimited rfl (by decide) (by decide), by decide⟩, by decide⟩

theorem witness_EraserangeCompletes :
    Idle (idleState [] [0x40, 0xE0, 0x40, 0xE0]) ∧ Between (idleState [] [0x40, 0xE0, 0x40, 0xE0]) ∧
    [(⟨[], 0x40, 0xE0⟩ : StatusVisit), ⟨[], 0x40, 0xE0⟩].length = (2 : Field24).toNat ∧ StatusVisit.Succeeds tiny ⟨[], 0x40, 0xE0⟩ ∧
    Env.upcoming 4 (idleState [] [0x40, 0xE0, 0x40, 0xE0]).env =
      [(⟨[], 0x40, 0xE0⟩ : StatusVisit), ⟨[], 0x40, 0xE0⟩].flatMap StatusVisit.answers :=
  ⟨idle_idleState _ _ _, ⟨rfl, rfl⟩, rfl, ⟨waitEnds_unlimited rfl (by decide) (by decide), by decide⟩, by decide⟩

/-- One good element, then a failing one, of a range of three; and a failing record after a skipped one. -/
theorem witness_RangeAbortsAtTheFirstFailure :
    Idle (idleState [] [0x40, 0xE0, 0x40, 0x01]) ∧ Between (idleState [] [0x40, 0xE0, 0x40, 0x01]) ∧
    [(⟨[], 0x40, 0xE0⟩ : StatusVisit)].length < (3 : Field24).toNat ∧ StatusVisit.Succeeds tiny ⟨[], 0x40, 0xE0⟩ ∧
    WaitEnds tiny [] 0x40 ∧ (0x01 : Byte).getLsbD 0 = true ∧
    Env.upcoming 4 (idleState [] [0x40, 0xE0, 0x40, 0x01]).env =
      ([(⟨[], 0x40, 0xE0⟩ : StatusVisit)] ++ [(⟨[], 0x40, 0x01⟩ : StatusVisit)]).flatMap StatusVisit.answers ∧
    (Idle (storageState [0xFF, 0xFF, 1, 2] [0x40, 0x01] [true, true]) ∧ 1 < (2 : Field24).toNat ∧
      PayloadPresent (.programrange 0 2) (storageState [0xFF, 0xFF, 1, 2] [0x40, 0x01] [true, true]) ∧
      Env.serves (1 + 1) (storageState [0xFF, 0xFF, 1, 2] [0x40, 0x01] [true, true]).env ∧
      skipRecord (sourceRecord (storageState [0xFF, 0xFF, 1, 2] [0x40, 0x01] [true, true]) 1) = false ∧
      ([] : List StatusVisit).length =
        (pagesToProgram 0 (sourceRecords (storageState [0xFF, 0xFF, 1, 2] [0x40, 0x01] [true, true]) 1)).length ∧
      Env.upcoming 2 (storageState [0xFF, 0xFF, 1, 2] [0x40, 0x01] [true, true]).env = StatusVisit.answers ⟨[], 0x40, 0x01⟩) :=
  ⟨idle_idleState _ _ _, ⟨rfl, rfl⟩, by decide, ⟨waitEnds_unlimited rfl (by decide) (by decide), by decide⟩,
    waitEnds_unlimited rfl (by decide) (by decide), by decide, by decide,
    idle_storageState _ _ _, by decide, by unfold PayloadPresent; decide, ⟨rfl, rfl, trivial⟩, by decide, by decide, by decide⟩

/-- DUMP's first transfer of two fails; PROGRAMRANGE's first; and its second, after a page that was programmed. -/
theorem witness_StorageFailureEndsARange :
    (Idle (storageState [1, 2] [0x40, 1, 2] [false]) ∧ Between (storageState [1, 2] [0x40, 1, 2] [false]) ∧
      0 < (2 : Field24).toNat ∧ [(⟨[], 0x40, [1, 2]⟩ : Visit)].length = 0 + 1 ∧ WaitEnds tiny [] 0x40 ∧
      [(1 : Byte), 2].length = tiny.pageSize ∧
      Env.upcoming 3 (storageState [1, 2] [0x40, 1, 2] [false]).env = [(⟨[], 0x40, [1, 2]⟩ : Visit)].flatMap Visit.answers ∧
      Env.serves 0 (storageState [1, 2] [0x40, 1, 2] [false]).env ∧
      Env.storageAnswer (Env.afterTransfers 0 (storageState [1, 2] [0x40, 1, 2] [false]).env) = false ∧
      0 < (1 : Field24).toNat ∧ PayloadPresent (.programrange 0 1) (storageState [1, 2] [0x40, 1, 2] [false]) ∧
      ([] : List StatusVisit).length =
        (pagesToProgram 0 (sourceRecords (storageState [1, 2] [0x40, 1, 2] [false]) 0)).length) ∧
    (let s := storageState [1, 2, 3, 4] [0x40, 0xE0] [true, false]
     Idle s ∧ Between s ∧ 1 < (2 : Field24).toNat ∧ PayloadPresent (.programrange 0 2) s ∧ Env.serves 1 s.env ∧
      Env.storageAnswer (Env.afterTransfers 1 s.env) = false ∧
      [(⟨[], 0x40, 0xE0⟩ : StatusVisit)].length = (pagesToProgram 0 (sourceRecords s 1)).length ∧
      StatusVisit.Succeeds tiny ⟨[], 0x40, 0xE0⟩ ∧
      Env.upcoming 2 s.env = [(⟨[], 0x40, 0xE0⟩ : StatusVisit)].flatMap StatusVisit.answers) :=
  ⟨⟨idle_storageState _ _ _, ⟨rfl, rfl⟩, by decide, rfl, waitEnds_unlimited rfl (by decide) (by decide), rfl, by decide, trivial,
      by decide, by decide, by unfold PayloadPresent; decide, by decide⟩,
    ⟨idle_storageState _ _ _, ⟨rfl, rfl⟩, by decide, by unfold PayloadPresent; decide, ⟨rfl, trivial⟩, by decide, by decide,
      ⟨waitEnds_unlimited rfl (by decide) (by decide), by decide⟩, by decide⟩⟩

theorem witness_StepMakesAtMostOneAdapterCall : ∃ t, step (fetchState 0x07) = .next t := goesOn_next (by decide)

theorem witness_ConfigurationAndStreamAreNeverWritten : ∃ t, step (fetchState 0x22) = .next t := goesOn_next (by decide)

theorem witness_RequestPointerCountsResponses : ∃ t, step (fetchState 0xFF) = .next t := goesOn_next (by decide)

/-- What a step of `exec` makes of one signal. -/
def levelAfter (i : Instr) (s : State) (sig : Signal) : Option Bool :=
  match exec i s with
  | .next t => some (level t.ctrl sig)
  | .fault _ => none
  | .refused _ => none

/-- The idle state with the request of `i` running, before line `n` of its sequence. -/
def runningAt (i : Instr) (n : Nat) : State := { idleState [1, 2] [] with seq := some { Seq.start i with step := n } }

/-- Each signal changes under each writer named. -/
theorem witness_ControlSignalWriters :
    (levelAfter (.setpin .ctrl 7 true) State.reset .AUX = some true ∧ level State.reset.ctrl .AUX = false) ∧
    (levelAfter (.setpin .ctrl 2 true) State.reset .nCE = some true ∧ level State.reset.ctrl .nCE = false) ∧
    (levelAfter .init (stateAt 0x1C .drive [] []) .nCE = some false ∧ level (stateAt 0x1C .drive [] []).ctrl .nCE = true) ∧
    (MachineInv (fetchState 0x22) ∧ level (fetchState 0x22).ctrl .nWP = false) ∧
    (∀ i ∈ [Instr.setpin .ctrl 5 true, .erase 0], levelAfter i (fetchState 0x22) .nWP = some true) ∧
    (∀ i ∈ [Instr.lcmd 1, .readid, .readstatus], levelAfter i (runningAt i 1) .CLE = some true) ∧
    levelAfter (.laddr 2) (runningAt (.laddr 2) 1) .ALE = some true ∧
    (levelAfter (.lcmd 1) (runningAt (.lcmd 1) 2) .nWE = some false ∧ levelAfter (.laddr 2) (runningAt (.laddr 2) 2) .nWE = some false ∧
      levelAfter (.ldin 2) (runningAt (.ldin 2) 1) .nWE = some false) ∧
    levelAfter (.lout 1) (runningAt (.lout 1) 2) .nRE = some false :=
  ⟨by decide, by decide, by decide, ⟨inv_fetchState _, by decide⟩, by decide, by decide, by decide, by decide, by decide⟩

theorem witness_OnlyDataOperationsWriteTheDataMirror :
    ∀ i ∈ [Instr.flush .ctrl, .sample .ctrl, .setdir .read, .delay 1, .lout 1, .waitrdy, .addrcyc 1 1, .setpin .ctrl 0 true,
      .setdata 1, .lcmd 1, .laddr 1, .ldin 1], goesOn (exec i (idleState [1] [0x40])) = true := by decide

theorem witness_PhysicalLinesAreNeverRead : ∃ t, exec (.flush .ctrl) (idleState [] []) = .next t := goesOn_next (by decide)

/-- Also a state with a response, and one before the first response that has the invariant. -/
theorem witness_BinaryResponseLayout : [(0xAD : Byte), 0xDC, 0x10, 0x95, 0x54].length < 2 ^ 24 ∧
    (respond (Seq.start .init) .ok State.reset).resp = reply .ok [] ∧ MachineInv (fetchState 0x07) ∧ (fetchState 0x07).rp = 0 :=
  ⟨by decide, rfl, inv_fetchState _, rfl⟩

theorem witness_PayloadIsReadFromTheStream : (idleState [1, 2, 3] []).pos + 8 + 1 + 2 ≤ (idleState [1, 2, 3] []).stream.length := by
  decide

/-- A request that responds within some steps at a state with a given property. -/
theorem responds_at {n : Nat} {i : Instr} {s : State} {p : State → Bool} (h : (respondsWithin n i s).any p = true) :
    ∃ t, p t = true ∧ RespondsAt i s t := by
  cases hr : respondsWithin n i s with
  | none => rw [hr] at h; cases h
  | some t => rw [hr] at h; exact ⟨t, h, respondsAt_of_within hr⟩

/-- Also from a state that is not idle (V-SEQ-18); PROGRAMRANGE with one page programmed. -/
theorem witness_BracketIsClosedAtEveryResponse :
    (Between (stateAt 0x1C .drive [] []) ∧ (∃ t, RespondsAt (.erase 10) (stateAt 0x1C .drive [] []) t) ∧
      0 < (1 : Field24).toNat ∧ ∃ t, RespondsAt (.eraserange 10 1) (stateAt 0x1C .drive [] []) t) ∧
    (Between (idleState [1, 2] [0x40, 0xE1]) ∧ (2 : Field24).toNat = tiny.pageSize ∧
      PayloadPresent (.program 3 2) (idleState [1, 2] [0x40, 0xE1]) ∧
      ∃ t, RespondsAt (.program 3 2) (idleState [1, 2] [0x40, 0xE1]) t) ∧
    (Between (storageState [1, 2] [0x40, 0xE1] [true]) ∧
      ∃ t, decide (t.trace ≠ (storageState [1, 2] [0x40, 0xE1] [true]).trace) = true ∧
        RespondsAt (.programrange 3 1) (storageState [1, 2] [0x40, 0xE1] [true]) t) :=
  ⟨⟨⟨rfl, rfl⟩, responds (n := 9) (by decide), by decide, responds (n := 9) (by decide)⟩,
    ⟨⟨rfl, rfl⟩, witness_ChipOperationsFromIdleEndIdle.2.2.2.1.2.1, witness_ChipOperationsFromIdleEndIdle.2.2.2.1.2.2.1,
      witness_ChipOperationsFromIdleEndIdle.2.2.2.1.2.2.2⟩,
    ⟨⟨rfl, rfl⟩, responds_at (n := 100) (by decide +kernel)⟩⟩

theorem witness_AbortedRequestKeepsItsBytes : State.reset.sessionOpen = true ∧ (Seq.start .waitrdy).wpOpen = false ∧
    ({ Seq.start (.erase 0) with wpOpen := true } : Seq).wpOpen = true := ⟨rfl, rfl, rfl⟩

end Sys2Proof.Tests
end

section
/-! SUPPORT. Proofs of the statements about the state's fields: `rp` counts the responses (R35). -/

namespace Sys2Proof.Machine

/-- No effect of a step on the bus state touches `rp`: only a response does (R35). -/
theorem Effect.rp_eq {changes : List (Signal × Bool)} {s t : State} (h : Effect changes s t) : t.rp = s.rp := by
  cases h <;> simp

/-- No effect of a step on the bus state touches the last response (R34). -/
theorem Effect.resp_eq {changes : List (Signal × Bool)} {s t : State} (h : Effect changes s t) : t.resp = s.resp := by
  cases h <;> simp

/-- From `s` to `t` either the request waits, with `rp` and the response as they were, or it has ended: there is a response and
`rp` counts it (R35). -/
def CountsResponse (s t : State) : Prop :=
  (t.rp = s.rp ∧ t.resp = s.resp ∧ t.seq ≠ none) ∨ (t.rp = s.rp + 1 ∧ t.seq = none ∧ t.resp ≠ none)

/-- A request that waits keeps `rp`, and one that responds, with whatever code, is counted. -/
theorem Settles.countsResponse {q : Seq} {s t : State} (h : Settles q s t) : CountsResponse s t := by
  cases h with
  | waits q' _ => exact .inl ⟨rfl, rfl, by simp⟩
  | responds q' _ r => exact .inr ⟨respond_rp q' r s, respond_seq q' r s, by simp⟩

/-- The refusal of a descriptor between requests is a response, and is counted (R75). -/
theorem refuseDescriptor_countsResponse {s : State} (hs : s.seq = none) (w : Descriptor) :
    CountsResponse s (refuseDescriptor w s) :=
  .inr ⟨refuseDescriptor_rp w s, hs, by simp⟩

/-- An effect before the request waits or ends does not disturb the count. -/
theorem Effect.countsResponse {changes : List (Signal × Bool)} {s s' t : State} (he : Effect changes s s')
    (h : CountsResponse s' t) : CountsResponse s t := by
  unfold CountsResponse at h ⊢
  rwa [he.rp_eq, he.resp_eq] at h

/-- Every instruction counts its response, and nothing else. -/
theorem exec_countsResponse {i : Instr} {s t : State} (h : exec i s = .next t) : CountsResponse s t := by
  obtain ⟨q, s', _, _, heffect, hsettles⟩ := exec_effect h
  exact heffect.countsResponse hsettles.countsResponse

/-- Every step counts its response, and nothing else. -/
theorem step_countsResponse {s t : State} (h : step s = .next t) : CountsResponse s t := by
  obtain ⟨_, ⟨q, _, hexec⟩ | ⟨_, i, _, hexec⟩ | ⟨hs, _, w, _, _, rfl⟩⟩ := step_cases h
  · exact exec_countsResponse hexec
  · exact exec_countsResponse hexec
  · exact refuseDescriptor_countsResponse hs w

/-- Settles O53: a step has one effect, which leaves `rp` and the response, and then waits or responds. -/
theorem requestPointerCountsResponses : Obligations.RequestPointerCountsResponses :=
  ⟨rfl, fun _ _ h => step_countsResponse h⟩

end Sys2Proof.Machine
end

section
/-! SUPPORT. Proofs of the statements about the encoding that concern refusals and payload lengths (R71, R73, R75, R76). -/

namespace Sys2Proof

/-- The reserved opcodes as R76 lists them. -/
def ReservedOpcode (op : Nat) : Prop :=
  op = 0x00 ∨ (0x08 ≤ op ∧ op ≤ 0x0F) ∨ (0x14 ≤ op ∧ op ≤ 0x17) ∨ (0x19 ≤ op ∧ op ≤ 0x1B) ∨
    (0x1D ≤ op ∧ op ≤ 0x1F) ∨ (0x25 ≤ op ∧ op ≤ 0x2F) ∨ (0x33 ≤ op ∧ op ≤ 0xFF)

/-- No row of the opcode map has a reserved opcode (R70, R76). -/
theorem Mnemonic.opcode_not_reserved (m : Mnemonic) : ¬ReservedOpcode m.opcode.toNat := by
  unfold ReservedOpcode
  cases m <;> decide

/-- A byte with a row's opcode is not reserved. -/
theorem ReservedOpcode.ne_opcode {op : Byte} (h : ReservedOpcode op.toNat) (m : Mnemonic) : op ≠ m.opcode :=
  fun hop => m.opcode_not_reserved (hop ▸ h)

/-- The decoder finds no row for a reserved opcode (R75, R76). -/
theorem decode_reservedOpcode {w : Descriptor} (h : ReservedOpcode (Descriptor.op w).toNat) :
    decode w = .error (.reservedOpcode w) := by
  unfold decode
  cases hrow : Mnemonic.ofOpcode (Descriptor.op w) with
  | none => rfl
  | some m => exact absurd (Mnemonic.ofOpcode_some hrow).symm (h.ne_opcode m)

/-- An accepted descriptor stands in its instruction's row, and its field `B` is the instruction's. -/
theorem decode_ok_row {w : Descriptor} {i : Instr} (h : decode w = .ok i) :
    Mnemonic.ofOpcode (Descriptor.op w) = some i.mnemonic ∧ i.bField = Descriptor.fieldB w := by
  obtain ⟨m, hop, hzero, rfl, -⟩ := decode_ok h
  obtain ⟨hm, -, -, hb⟩ := m.build_fields_back _ _ _ hzero
  exact ⟨by rw [← hop, hm, Mnemonic.ofOpcode_opcode], hb⟩

/-- `PLEN` read from the descriptor is that of the decoded instruction (R71). -/
theorem payloadLength_of_decode {w : Descriptor} {i : Instr} (h : decode w = .ok i) (P : Nat) :
    i.payloadLength P = payloadLength P w := by
  obtain ⟨hrow, hb⟩ := decode_ok_row h
  unfold payloadLength
  rw [hrow, ← hb]
  cases i <;> rfl

/-- Bit 4 of `IMM`, the bus selector of SETPIN (R69, R72). -/
theorem Descriptor.getLsbD_imm_four (w : Descriptor) : (Descriptor.imm w).getLsbD 4 = w.getLsbD 12 := by
  simp [Descriptor.imm]

/-- `IMM[2:0]`, the pin of SETPIN (R69, R72). -/
theorem Descriptor.extractLsb'_imm_pin (w : Descriptor) : (Descriptor.imm w).extractLsb' 0 3 = w.extractLsb' 8 3 := by
  apply BitVec.eq_of_getLsbD_eq
  intro k hk
  have hbyte : k < 8 := by omega
  simp [Descriptor.imm, hk, hbyte]

/-- SETPIN is well formed on every pin but the control bus's RDY (R73). -/
theorem wellFormed_setpin_iff (bus : Bus) (pin : BitVec 3) (value : Bool) :
    (Instr.setpin bus pin value).wellFormed = true ↔ ¬(bus = .ctrl ∧ pin = 6) := by
  simp [Instr.wellFormed, imp_iff_not_or]

/-- SETPIN on the control bus's pin 6 is rejected, whatever the rest of its descriptor (R73). -/
theorem decode_rdyPin {w : Descriptor} (hop : Descriptor.op w = Mnemonic.SETPIN.opcode) (hbus : w.getLsbD 12 = true)
    (hpin : w.extractLsb' 8 3 = 6) : ∃ e, decode w = .error e := by
  cases hd : decode w with
  | error e => exact ⟨e, rfl⟩
  | ok i =>
    obtain ⟨m, hm, -, rfl, hwf⟩ := decode_ok hd
    obtain rfl : m = .SETPIN :=
      Option.some.inj (by rw [← Mnemonic.ofOpcode_opcode, hm, hop, Mnemonic.ofOpcode_opcode])
    rw [Mnemonic.build, Descriptor.getLsbD_imm_four, Descriptor.extractLsb'_imm_pin, hbus, hpin] at hwf
    exact absurd ⟨rfl, rfl⟩ ((wellFormed_setpin_iff _ _ _).1 hwf)

/-- The encoding of a well-formed instruction decodes to it (R69, R75). -/
theorem decode_encode {i : Instr} (h : i.wellFormed = true) : decode (encode i) = .ok i := by
  have hrow := decode_of_row (w := encode i) i.mnemonic
  simp only [encode, Descriptor.op_ofFields, Descriptor.imm_ofFields, Descriptor.fieldA_ofFields, Descriptor.fieldB_ofFields,
    Mnemonic.build_fields] at hrow
  exact hrow rfl i.reservedZero h

end Sys2Proof

namespace Sys2Proof.Machine

/-- Eight bytes fetched are a request present in the stream (R68). -/
theorem requestPresent_of_fetchBytes {s : State} {w : Descriptor} (h : fetchBytes s = Descriptor.toBytes w) :
    requestPresent s = true := by
  have hlen : min 8 (s.stream.length - s.pos) = 8 := by rw [← Stream.length_bytesAt]; exact congrArg List.length h
  simp only [requestPresent, decide_eq_true_eq]
  omega

/-- The bytes of a descriptor decode as it does (R68). -/
theorem decodeBytes_toBytes (w : Descriptor) : decodeBytes (Descriptor.toBytes w) = decode w := by
  rw [decodeBytes, ← List.append_nil (Descriptor.toBytes w), Descriptor.ofBytes_toBytes]

/-- A fetched descriptor that the decoder rejects is refused (R75). -/
theorem step_eq_refuseDescriptor {s : State} {w : Descriptor} {e : DecodeError} (hs : Between s)
    (hf : fetchBytes s = Descriptor.toBytes w) (hd : decode w = .error e) : step s = .next (refuseDescriptor w s) := by
  obtain ⟨hopen, hseq⟩ := hs
  simp [step, hopen, hseq, requestPresent_of_fetchBytes hf, hf, decodeBytes_toBytes, hd, decode_error hd]

/-- What a refused descriptor changes, `id_match` being 0 for every opcode but READID's (R75, R79). -/
theorem refuseDescriptor_eq {w : Descriptor} (h : Descriptor.op w ≠ Mnemonic.READID.opcode) (s : State) :
    refuseDescriptor w s = { s with
      resp := some { report := .illegalRequest (Descriptor.op w), bytes := [], idMatch := false }
      rp := s.rp + 1
      pos := s.pos + 8 + payloadLength s.cfg.pageSize w } := by
  simp [refuseDescriptor, responseIdMatch, h]

/-- A request with an error at its start answers that error in its first step (R75). -/
theorem exec_eq_respond_of_requestError {i : Instr} {s : State} {e : Report} (hs : Between s) (he : requestError i s = some e) :
    exec i s = .next (respond (Seq.start i) e s) := by
  obtain ⟨hopen, hseq⟩ := hs
  simp [exec_eq_perform, perform, hopen, hseq, he]

/-- What a request refused at its start changes, `id_match` being 0 for every operation but READID (R75, R79). -/
theorem respond_start_eq {i : Instr} {s : State} (hs : s.seq = none) (hi : i.opcode ≠ Mnemonic.READID.opcode) (e : Report) :
    respond (Seq.start i) e s = { s with
      resp := some { report := e, bytes := [], idMatch := false }
      rp := s.rp + 1
      pos := s.pos + 8 + i.payloadLength s.cfg.pageSize } := by
  simp [respond, Seq.start, responseIdMatch, hi, hs]

/-- PROGRAM may start only with `PAGE_SIZE` payload bytes (R71). -/
theorem requestError_program_of_ne {page length : Field24} {s : State} (h : length.toNat ≠ s.cfg.pageSize) :
    requestError (.program page length) s = some (.lengthMismatch length.toNat) := by
  simp [requestError, Instr.wellFormed, Instr.lengthOk, Instr.payloadLength, h]

/-- Settles O8: no row has the opcode, so the decoder rejects the descriptor and the step refuses it. -/
theorem reservedOpcodesRefused : Obligations.ReservedOpcodesRefused := by
  intro s w hs hf hop
  have hreserved : ReservedOpcode (Descriptor.op w).toNat := hop
  rw [step_eq_refuseDescriptor hs hf (decode_reservedOpcode hreserved), refuseDescriptor_eq (hreserved.ne_opcode .READID)]
  exact ⟨_, rfl⟩

/-- Settles O9: the RDY pin makes SETPIN's instruction ill formed, and no other pin does. -/
theorem rdyPinRefused : Obligations.RdyPinRefused := by
  refine ⟨?_, ?_⟩
  · intro s w hs hf hop hbus hpin
    have hsetpin : Descriptor.op w = Mnemonic.SETPIN.opcode := hop
    obtain ⟨e, hd⟩ := decode_rdyPin hsetpin hbus hpin
    rw [step_eq_refuseDescriptor hs hf hd, refuseDescriptor_eq (by rw [hsetpin]; decide), hsetpin]
    exact ⟨_, rfl⟩
  · intro bus pin value hlegal
    exact decode_encode (i := .setpin bus pin value) ((wellFormed_setpin_iff bus pin value).2 hlegal)

/-- Settles O11: the decoded instruction carries the row and the field `B` that `PLEN` is read from; PROGRAM checks its length before
its first line. -/
theorem payloadLengthRule : Obligations.PayloadLengthRule := by
  refine ⟨?_, fun P w i h => payloadLength_of_decode h P, ?_⟩
  · intro P w i h
    have hb : i.bField = w.extractLsb' 40 24 := (decode_ok_row h).2
    rw [← payloadLength_of_decode h P, ← hb]
    cases i <;> rfl
  · intro page length s hs hlength
    have hop : (Instr.program page length).opcode ≠ Mnemonic.READID.opcode :=
      (by decide : Mnemonic.PROGRAM.opcode ≠ Mnemonic.READID.opcode)
    rw [exec_eq_respond_of_requestError hs (requestError_program_of_ne hlength), respond_start_eq hs.2 hop]
    exact ⟨_, rfl⟩

end Sys2Proof.Machine
end

section
/-! SUPPORT. Proofs of the statements about the address-cycle encoder: its inverse (R106). -/

namespace Sys2Proof.Machine

/-- A natural below `2^16` is its two bytes, low byte first. -/
theorem eq_bytes_of_lt_two_pow_16 {n : Nat} (h : n < 2 ^ 16) :
    n = (BitVec.ofNat 8 n).toNat + 256 * (BitVec.ofNat 8 (n / 256)).toNat := by
  simp only [BitVec.toNat_ofNat]
  omega

/-- A natural below `2^24` is its three bytes, low byte first. -/
theorem eq_bytes_of_lt_two_pow_24 {n : Nat} (h : n < 2 ^ 24) :
    n = (BitVec.ofNat 8 n).toNat + 256 * (BitVec.ofNat 8 (n / 256)).toNat + 65536 * (BitVec.ofNat 8 (n / 65536)).toNat := by
  simp only [BitVec.toNat_ofNat]
  omega

/-- The inverse of R106: the five cycles carry the column in the first two and the page in the other three. -/
theorem toAddressCycles_inverse {page column : Nat} (hpage : page < 2 ^ 24) (hcolumn : column < 2 ^ 16) :
    ∃ c0 c1 c2 c3 c4 : Byte, toAddressCycles page column = [c0, c1, c2, c3, c4] ∧
      column = c0.toNat + 256 * c1.toNat ∧ page = c2.toNat + 256 * c3.toNat + 65536 * c4.toNat :=
  ⟨_, _, _, _, _, rfl, eq_bytes_of_lt_two_pow_16 hcolumn, eq_bytes_of_lt_two_pow_24 hpage⟩

/-- On R106's domain page and column are functions of the cycles, so equal cycles come from equal pairs. -/
theorem toAddressCycles_injective {page column page' column' : Nat} (hpage : page < 2 ^ 24) (hcolumn : column < 2 ^ 16)
    (hpage' : page' < 2 ^ 24) (hcolumn' : column' < 2 ^ 16)
    (h : toAddressCycles page column = toAddressCycles page' column') : page = page' ∧ column = column' := by
  obtain ⟨c0, c1, c2, c3, c4, hcycles, hcol, hpg⟩ := toAddressCycles_inverse hpage hcolumn
  obtain ⟨d0, d1, d2, d3, d4, hcycles', hcol', hpg'⟩ := toAddressCycles_inverse hpage' hcolumn'
  have hsame : [c0, c1, c2, c3, c4] = [d0, d1, d2, d3, d4] := by rw [← hcycles, ← hcycles', h]
  cases hsame
  exact ⟨hpg.trans hpg'.symm, hcol.trans hcol'.symm⟩

/-- Settles O34: the bytes of a number below the width's bound give it back, and the injectivity is the inverse applied to both
sides. -/
theorem addressCyclesInverse : Obligations.AddressCyclesInverse :=
  ⟨fun _ _ => toAddressCycles_inverse, fun _ _ _ _ => toAddressCycles_injective⟩

end Sys2Proof.Machine
end

section
/-! SUPPORT. Proofs of the statements about whole runs of the chip operations from the idle state: where each one responds, and
in what state (R117). -/

namespace Sys2Proof.Machine

/-! ## Starting a chip operation -/

/-- A well-formed request without a payload may start (R75). -/
theorem requestError_none_of_no_payload {i : Instr} {s : State} (hw : i.wellFormed = true)
    (hl : i.lengthOk s.cfg.pageSize = true) (hp : i.payloadLength s.cfg.pageSize = 0) : requestError i s = none :=
  requestError_none hw hl (.inl hp)

/-- PROGRAM with `PAGE_SIZE` payload bytes, all in the stream, may start (R71, R75). -/
theorem requestError_program {page length : Field24} {s : State} (hn : length.toNat = s.cfg.pageSize)
    (hp : PayloadPresent (.program page length) s) : requestError (.program page length) s = none :=
  requestError_none rfl (by simpa [Instr.lengthOk] using hn) hp

/-! ## The idle state inside a run -/

/-- A state that differs from an idle one in nWP, the data lines and what no line shows is idle again (R31). -/
theorem Idle.of_withLevel_nWP {s s' : State} (h : Idle s) {b : Bool} (hc : s'.ctrl = withLevel s.ctrl .nWP b)
    (hd : s'.dir = .drive) (hpc : s'.physCtrl = some s'.ctrl) (hpd : s'.physData = some s'.data) : Idle s' := by
  obtain ⟨hcle, hale, hnce, hnwe, hnre, hrdy, -⟩ := h
  refine ⟨?_, ?_, ?_, ?_, ?_, ?_, hd, hpc, hpd⟩ <;> simp [*]

/-- A state that differs from an idle one in the data lines and what no line shows is idle again (R31). -/
theorem Idle.of_ctrl_eq {s s' : State} (h : Idle s) (hc : s'.ctrl = s.ctrl) (hd : s'.dir = .drive)
    (hpc : s'.physCtrl = some s'.ctrl) (hpd : s'.physData = some s'.data) : Idle s' :=
  h.of_withLevel_nWP (hc.trans (withLevel_self s.ctrl .nWP rfl).symm) hd hpc hpd

/-! ## Where each chip operation's sequence ends -/

/-- READID's comparison goes on whatever it finds, and sets one of the two reports of a request that ran to its end
(R109, R127). -/
theorem compareId_segment (q : Seq) (s : State) : ∃ q', (q'.report = .ok ∨ q'.report = .identityMismatch) ∧
    Segment [.compareId] q s q' s := by
  cases hm : identityMatches s.cfg q.outbuf with
  | true => exact ⟨_, .inl rfl, Segment.single (by simp only [runLine, lineCompareId, hm]; rfl) rfl⟩
  | false => exact ⟨_, .inr rfl, Segment.single (by simp only [runLine, lineCompareId, hm]; rfl) rfl⟩

/-- READID's sequence from the idle state (R109). -/
theorem readid_ends {s : State} (h : Idle s) : ∃ q r, (r = .ok ∨ r = .identityMismatch) ∧
    Ends (linesOf .readid s) (Seq.start .readid) s (respond q r
      { s with
        data := Config.readIdAddr, physCtrl := some s.ctrl, physData := some Config.readIdAddr
        env := Env.after Config.readIdLen s.env
        trace := s.trace ++ (commandEvents s.ctrl s.cfg.cmdReadId ++ addressEvents s.cfg s.ctrl [Config.readIdAddr] ++
          dataOutEvents s.cfg s.ctrl (Env.upcoming Config.readIdLen s.env)) }) := by
  have e1 := idle_command s.cfg.cmdReadId (Seq.start .readid) s h.busIdle h.dir_eq
  have e2 := e1.append (idle_address s.cfg [Config.readIdAddr] (by simp) _ _ h.busIdle h.dir_eq)
  have e3 := e2.append (idle_dataOut s.cfg true Config.readIdLen _ _ h.busIdle h.dir_eq rfl fun _ => rfl)
  have e4 := e3.append (Segment.single (l := .storeOut 0) rfl rfl)
  obtain ⟨q', hr, e5⟩ := compareId_segment _ _
  have e := ends_of_segment ((e4.append e5).of_eq (b := linesOf .readid s) (by simp [linesOf, readIdLines]))
  exact ⟨q', q'.report, hr, by simpa using e⟩

/-- READPAGE's sequence from the idle state, its wait ending (R110). -/
theorem readpage_ends {s : State} (page : Field24) (v : Visit) (h : Idle s) (hw : WaitEnds s.cfg v.busy v.last)
    (hn : v.bytes.length = s.cfg.pageSize) (hu : Env.upcoming v.answers.length s.env = v.answers) :
    ∃ q, Ends (linesOf (.readpage page) s) (Seq.start (.readpage page)) s (respond q .ok
      { s with
        data := s.cfg.cmdRead1Confirm, physCtrl := some s.ctrl, physData := some s.cfg.cmdRead1Confirm
        env := Env.after v.answers.length s.env
        trace := s.trace ++ readPageEvents s.cfg s.ctrl page.toNat v.busy v.last v.bytes }) := by
  have hlen : v.answers.length = (v.busy ++ [v.last]).length + v.bytes.length := List.length_append
  rw [hlen] at hu ⊢
  have e1 := readPage_segment true page.toNat v.busy v.last v.bytes (Seq.start (.readpage page)) s h.busIdle h.dir_eq hw hu hn
    fun _ => rfl
  exact ⟨_, ends_of_segment (e1.append (Segment.single (l := .storeOut 0) rfl rfl))⟩

/-- ERASE's sequence from the idle state, its wait ending, for both outcomes of the status (R111, R114). -/
theorem erase_ends {s : State} (block : Field24) (v : StatusVisit) (h : Idle s) (hw : WaitEnds s.cfg v.busy v.last)
    (hu : Env.upcoming v.answers.length s.env = v.answers) :
    ∃ q r, (r = .ok ∨ r = .eraseFailed block.toNat v.status) ∧
      Ends (linesOf (.erase block) s) (Seq.start (.erase block)) s (respond q r
        { s with
          ctrl := withLevel s.ctrl .nWP false, data := s.cfg.cmdReadStatus
          physCtrl := some (withLevel s.ctrl .nWP false), physData := some s.cfg.cmdReadStatus
          env := Env.after v.answers.length s.env
          trace := s.trace ++ eraseEvents s.cfg s.ctrl block.toNat v.busy v.last v.status }) := by
  obtain ⟨st, body⟩ := eraseBody_segment true block.toNat v (Seq.start (.erase block)) s h.busIdle h.dir_eq hw hu fun _ => rfl
  cases hb : v.status.getLsbD 0 with
  | false => exact ⟨_, _, .inl rfl, ends_of_segment (body.append (testErase_segment block.toNat rfl hb))⟩
  | true => exact ⟨_, _, .inr rfl, ends_of_raises (body.raises (testErase_raises block.toNat rfl hb)) rfl⟩

/-- PROGRAM's sequence from the idle state, its wait ending, for both outcomes of the status (R112, R114). -/
theorem program_ends {s : State} (page length : Field24) (v : StatusVisit) (h : Idle s) (hw : WaitEnds s.cfg v.busy v.last)
    (hu : Env.upcoming v.answers.length s.env = v.answers) :
    ∃ q r, (r = .ok ∨ r = .programFailed page.toNat v.status) ∧
      Ends (linesOf (.program page length) s) (Seq.start (.program page length)) s (respond q r
        { s with
          ctrl := withLevel s.ctrl .nWP false, data := s.cfg.cmdReadStatus
          physCtrl := some (withLevel s.ctrl .nWP false), physData := some s.cfg.cmdReadStatus
          env := Env.after v.answers.length s.env
          trace := s.trace ++
            programEvents s.cfg s.ctrl page.toNat (memRead s 0 s.cfg.pageSize) v.busy v.last v.status }) := by
  obtain ⟨st, body⟩ := programBody_segment true page.toNat (memRead s 0 s.cfg.pageSize) v (Seq.start (.program page length)) s
    h.busIdle h.dir_eq hw hu fun _ => rfl
  cases hb : v.status.getLsbD 0 with
  | false => exact ⟨_, _, .inl rfl, ends_of_segment (body.append (testProgram_segment page.toNat rfl hb))⟩
  | true => exact ⟨_, _, .inr rfl, ends_of_raises (body.raises (testProgram_raises page.toNat rfl hb)) rfl⟩

/-- READSTATUS's sequence from the idle state: status bit 0 is not evaluated (R113). -/
theorem readstatus_ends {s : State} (h : Idle s) : ∃ q,
    Ends (linesOf .readstatus s) (Seq.start .readstatus) s (respond q .ok
      { s with
        data := s.cfg.cmdReadStatus, physCtrl := some s.ctrl, physData := some s.cfg.cmdReadStatus
        env := Env.after 1 s.env
        trace := s.trace ++ (commandEvents s.ctrl s.cfg.cmdReadStatus ++
          dataOutEvents s.cfg s.ctrl (Env.upcoming 1 s.env)) }) := by
  have e1 := idle_command s.cfg.cmdReadStatus (Seq.start .readstatus) s h.busIdle h.dir_eq
  have e2 := e1.append (idle_dataOut s.cfg true 1 _ _ h.busIdle h.dir_eq rfl fun _ => rfl)
  have e3 := e2.append (Segment.single (l := .takeStatus) rfl rfl)
  have e4 := e3.append (Segment.single (l := .storeStatus) rfl rfl)
  have e := ends_of_segment (e4.of_eq (b := linesOf .readstatus s) (by simp [linesOf, readStatusLines]))
  exact ⟨_, by simpa using e⟩

/-! ## Ending idle (R117) -/

/-- A report that no entry check and no direction check raised. -/
def Report.PassesChecks (r : Report) : Prop :=
  (∀ op sig, r ≠ .protocolPrecondition op sig) ∧ ∀ bus, r ≠ .directionViolation bus

/-- What R117 says of a request of `i` that starts in the idle state `s` and responds at `t`. -/
def EndsIdle (i : Instr) (s t : State) : Prop :=
  (∃ r, t.resp = some r ∧ r.report.PassesChecks) ∧ Idle t ∧
    level t.ctrl .nWP = if opensBracket i then false else level s.ctrl .nWP

/-- The control byte that an operation started from `c` leaves when it has closed its write-protect bracket, if it opens one
(R114). -/
def closedCtrl (i : Instr) (c : Byte) : Byte := if opensBracket i then withLevel c .nWP false else c

theorem closedCtrl_eq_withLevel (i : Instr) (c : Byte) :
    closedCtrl i c = withLevel c .nWP (if opensBracket i then false else level c .nWP) := by
  unfold closedCtrl
  split
  · rfl
  · exact (withLevel_self c .nWP rfl).symm

/-- The bracket's opening does not show once it is closed. -/
theorem closedCtrl_opened {i : Instr} (ho : opensBracket i = true) (c : Byte) :
    closedCtrl i (withLevel c .nWP true) = closedCtrl i c := by
  simp [closedCtrl, ho]

/-- A sequence from the idle state that ends in `s'` under `Drive`, the lines flushed and the bracket closed, with a report other
than a failed check's: the request ends idle. -/
theorem endsIdle_of_ends {i : Instr} {s s' t : State} {q : Seq} {r : Report} (hi : Idle s) (hs : Between s)
    (ha : requestError i s = none) (ht : RespondsAt i s t) (h : Ends (linesOf i s) (Seq.start i) s (respond q r s'))
    (hr : r.PassesChecks) (hc : s'.ctrl = closedCtrl i s.ctrl) (hd : s'.dir = .drive) (hpc : s'.physCtrl = some s'.ctrl)
    (hpd : s'.physData = some s'.data) : EndsIdle i s t := by
  obtain rfl := ht.unique (respondsAt_of_ends hs ha h)
  rw [closedCtrl_eq_withLevel] at hc
  have hidle : Idle s' := hi.of_withLevel_nWP hc hd hpc hpd
  refine ⟨⟨_, respond_resp q r s', hr⟩, hidle, ?_⟩
  simp [hc]

/-! ## Up to the wait -/

/-- Where a chip operation's sequence started at `s` stands at its wait, with nothing read yet: the state is idle, and the
write-protect bracket is open exactly in an operation that opens one (R110 to R112, R114). -/
structure AtWait (i : Instr) (s : State) (q₁ : Seq) (s₁ : State) : Prop where
  idle : Idle s₁
  cfg : s₁.cfg = s.cfg
  env : s₁.env = s.env
  wpOpen : q₁.wpOpen = opensBracket i
  ctrl : closedCtrl i s₁.ctrl = closedCtrl i s.ctrl

/-- A sequence whose wait takes busy samples up to the safety valve responds with `Timeout`, the bracket closed (R100, R129). -/
theorem ends_of_timeout {i : Instr} {s s₁ : State} {q₁ : Seq} {a b : List Line} {limit : ℕ+} {busy : List Byte} {last : Byte}
    (hl : linesOf i s = a ++ waitWhileBusy ++ b) (hseg : Segment a (Seq.start i) s q₁ s₁) (hw : AtWait i s q₁ s₁)
    (hc : s₁.cfg.pollLimit = some limit) (hu : Env.upcoming limit.val s₁.env = busy ++ [last])
    (hb : ∀ v ∈ busy, ready v = false) (hr : ready last = false) :
    ∃ q s', Ends (linesOf i s) (Seq.start i) s (respond q (.timeout limit.val) s') ∧ s'.ctrl = closedCtrl i s.ctrl ∧
      s'.dir = .drive ∧ s'.physCtrl = some s'.ctrl ∧ s'.physData = some s'.data := by
  have hraise := ((hseg.raises (waitWhileBusy_raises limit busy last q₁ s₁ hc hu hb hr)).append b).of_eq hl
  have hctrl := hw.ctrl
  cases ho : opensBracket i with
  | false =>
    refine ⟨_, _, ends_of_raises hraise (hw.wpOpen.trans ho), ?_, hw.idle.dir_eq, hw.idle.physCtrl_eq, hw.idle.physData_eq⟩
    simpa [closedCtrl, ho] using hctrl
  | true =>
    refine ⟨_, _, ends_of_restored hraise (hw.wpOpen.trans ho), ?_, hw.idle.dir_eq, rfl, hw.idle.physData_eq⟩
    simpa [closedCtrl, ho] using hctrl

/-- A chip operation with a wait that responds: it ends idle if it does so wherever the wait ends on a ready sample, since the
wait's only other end is `Timeout`. -/
theorem endsIdle_of_wait {i : Instr} {s s₁ t : State} {q₁ : Seq} {a b : List Line} (hi : Idle s) (hs : Between s)
    (ha : requestError i s = none) (ht : RespondsAt i s t) (hl : linesOf i s = a ++ waitWhileBusy ++ b)
    (hseg : Segment a (Seq.start i) s q₁ s₁) (hw : AtWait i s q₁ s₁)
    (hready : ∀ busy last, WaitEnds s.cfg busy last → Env.upcoming (busy.length + 1) s.env = busy ++ [last] → EndsIdle i s t) :
    EndsIdle i s t := by
  rcases wait_of_respondsAt hs ha hl hseg ht with ⟨busy, last, h, hu⟩ | ⟨limit, busy, last, hc, hu, hb, hr⟩
  · exact hready busy last (hw.cfg ▸ h) (hw.env ▸ hu)
  · obtain ⟨q, s', h, hctrl, hdir, hpc, hpd⟩ := ends_of_timeout hl hseg hw hc hu hb hr
    exact endsIdle_of_ends hi hs ha ht h ⟨nofun, nofun⟩ hctrl hdir hpc hpd

/-- READPAGE up to its wait (R110). -/
theorem readpage_atWait {s : State} (page : Field24) (h : Idle s) : ∃ q₁ s₁,
    Segment (latchCommand s.cfg.cmdRead1First ++ latchAddress s.cfg (toAddressCycles page.toNat 0)
      ++ latchCommand s.cfg.cmdRead1Confirm) (Seq.start (.readpage page)) s q₁ s₁ ∧ AtWait (.readpage page) s q₁ s₁ := by
  have e1 := idle_command s.cfg.cmdRead1First (Seq.start (.readpage page)) s h.busIdle h.dir_eq
  have e2 := e1.append (idle_address s.cfg (toAddressCycles page.toNat 0) (toAddressCycles_ne_nil _ _) _ _ h.busIdle h.dir_eq)
  have e3 := e2.append (idle_command s.cfg.cmdRead1Confirm _ _ h.busIdle h.dir_eq)
  exact ⟨_, _, e3, h.of_ctrl_eq rfl h.dir_eq rfl rfl, rfl, rfl, rfl, rfl⟩

/-- ERASE up to its wait (R111). -/
theorem erase_atWait {s : State} (block : Field24) (h : Idle s) : ∃ q₁ s₁,
    Segment ([.writeProtect true] ++ latchCommand s.cfg.cmdEraseFirst
      ++ latchAddress s.cfg (rowBytes (block.toNat * s.cfg.pagesPerBlock)) ++ latchCommand s.cfg.cmdEraseConfirm)
      (Seq.start (.erase block)) s q₁ s₁ ∧ AtWait (.erase block) s q₁ s₁ := by
  have h' := h.busIdle.withWP true
  have e1 := writeProtect_segment true (Seq.start (.erase block)) s
  have e2 := e1.append (idle_command s.cfg.cmdEraseFirst _ _ h' h.dir_eq)
  have e3 := e2.append (idle_address s.cfg (rowBytes (block.toNat * s.cfg.pagesPerBlock)) (rowBytes_ne_nil _) _ _ h' h.dir_eq)
  have e4 := e3.append (idle_command s.cfg.cmdEraseConfirm _ _ h' h.dir_eq)
  exact ⟨_, _, e4, h.of_withLevel_nWP (b := true) rfl h.dir_eq rfl rfl, rfl, rfl, rfl, closedCtrl_opened rfl s.ctrl⟩

/-- PROGRAM up to its wait (R112). -/
theorem program_atWait {s : State} (page length : Field24) (h : Idle s) : ∃ q₁ s₁,
    Segment ([.writeProtect true] ++ latchCommand s.cfg.cmdProgramFirst ++ latchAddress s.cfg (toAddressCycles page.toNat 0)
      ++ latchDataIn s.cfg (memRead s 0 s.cfg.pageSize) ++ latchCommand s.cfg.cmdProgramConfirm)
      (Seq.start (.program page length)) s q₁ s₁ ∧ AtWait (.program page length) s q₁ s₁ := by
  have h' := h.busIdle.withWP true
  have e1 := writeProtect_segment true (Seq.start (.program page length)) s
  have e2 := e1.append (idle_command s.cfg.cmdProgramFirst _ _ h' h.dir_eq)
  have e3 := e2.append (idle_address s.cfg (toAddressCycles page.toNat 0) (toAddressCycles_ne_nil _ _) _ _ h' h.dir_eq)
  have e4 := e3.append (idle_dataIn s.cfg (memRead s 0 s.cfg.pageSize) _ _ h' h.dir_eq rfl rfl)
  have e5 := e4.append (idle_command s.cfg.cmdProgramConfirm _ _ h' h.dir_eq)
  exact ⟨_, _, e5, h.of_withLevel_nWP (b := true) rfl h.dir_eq rfl rfl, rfl, rfl, rfl, closedCtrl_opened rfl s.ctrl⟩

/-! ## Each chip operation ends idle -/

/-- The answers of an erase or program whose wait ends: the status byte is whatever the chip answers next. -/
theorem status_answers_of_wait {busy : List Byte} {last : Byte} {e : Env}
    (hu : Env.upcoming (busy.length + 1) e = busy ++ [last]) :
    ∃ v : StatusVisit, v.busy = busy ∧ v.last = last ∧ Env.upcoming v.answers.length e = v.answers := by
  refine ⟨⟨busy, last, Env.sample (Env.after (busy.length + 1) e)⟩, rfl, rfl, ?_⟩
  have hanswers : StatusVisit.answers ⟨busy, last, Env.sample (Env.after (busy.length + 1) e)⟩ =
    busy ++ [last] ++ Env.upcoming 1 (Env.after (busy.length + 1) e) := rfl
  rw [hanswers, ← hu, ← upcoming_add, upcoming_length]

/-- The answers of a page read whose wait ends: the page's bytes are whatever the chip answers next. -/
theorem page_answers_of_wait {busy : List Byte} {last : Byte} {e : Env} (n : Nat)
    (hu : Env.upcoming (busy.length + 1) e = busy ++ [last]) :
    ∃ v : Visit, v.busy = busy ∧ v.last = last ∧ v.bytes.length = n ∧ Env.upcoming v.answers.length e = v.answers := by
  refine ⟨⟨busy, last, Env.upcoming n (Env.after (busy.length + 1) e)⟩, rfl, rfl, upcoming_length _ _, ?_⟩
  rw [Visit.answers, ← hu, ← upcoming_add, upcoming_length]

theorem readid_endsIdle {s t : State} (hi : Idle s) (hs : Between s) (ht : RespondsAt .readid s t) : EndsIdle .readid s t := by
  obtain ⟨q, r, hr, h⟩ := readid_ends hi
  refine endsIdle_of_ends hi hs (requestError_none_of_no_payload rfl rfl rfl) ht h ?_ rfl hi.dir_eq rfl rfl
  rcases hr with rfl | rfl <;> exact ⟨nofun, nofun⟩

theorem readpage_endsIdle {s t : State} (page : Field24) (hi : Idle s) (hs : Between s) (ht : RespondsAt (.readpage page) s t) :
    EndsIdle (.readpage page) s t := by
  have ha : requestError (.readpage page) s = none := requestError_none_of_no_payload rfl rfl rfl
  obtain ⟨q₁, s₁, hseg, hwait⟩ := readpage_atWait page hi
  refine endsIdle_of_wait hi hs ha ht (b := latchRegisterOut s.cfg true s.cfg.pageSize ++ [.storeOut 0])
    (by simp [linesOf, readPageLines, readPageSequence]) hseg hwait fun busy last hw hu => ?_
  obtain ⟨v, rfl, rfl, hn, hv⟩ := page_answers_of_wait s.cfg.pageSize hu
  obtain ⟨q, h⟩ := readpage_ends page v hi hw hn hv
  exact endsIdle_of_ends hi hs ha ht h ⟨nofun, nofun⟩ rfl hi.dir_eq rfl rfl

theorem erase_endsIdle {s t : State} (block : Field24) (hi : Idle s) (hs : Between s) (ht : RespondsAt (.erase block) s t) :
    EndsIdle (.erase block) s t := by
  have ha : requestError (.erase block) s = none := requestError_none_of_no_payload rfl rfl rfl
  obtain ⟨q₁, s₁, hseg, hwait⟩ := erase_atWait block hi
  refine endsIdle_of_wait hi hs ha ht (b := statusTail s.cfg true ++ [.testErase block.toNat])
    (by simp [linesOf, eraseLines]) hseg hwait fun busy last hw hu => ?_
  obtain ⟨v, rfl, rfl, hv⟩ := status_answers_of_wait hu
  obtain ⟨q, r, hr, h⟩ := erase_ends block v hi hw hv
  refine endsIdle_of_ends hi hs ha ht h ?_ rfl hi.dir_eq rfl rfl
  rcases hr with rfl | rfl <;> exact ⟨nofun, nofun⟩

theorem program_endsIdle {s t : State} {page length : Field24} (hn : length.toNat = s.cfg.pageSize)
    (hp : PayloadPresent (.program page length) s) (hi : Idle s) (hs : Between s)
    (ht : RespondsAt (.program page length) s t) : EndsIdle (.program page length) s t := by
  have ha : requestError (.program page length) s = none := requestError_program hn hp
  obtain ⟨q₁, s₁, hseg, hwait⟩ := program_atWait page length hi
  refine endsIdle_of_wait hi hs ha ht (b := statusTail s.cfg true ++ [.testProgram page.toNat])
    (by simp [linesOf, programLines]) hseg hwait fun busy last hw hu => ?_
  obtain ⟨v, rfl, rfl, hv⟩ := status_answers_of_wait hu
  obtain ⟨q, r, hr, h⟩ := program_ends page length v hi hw hv
  refine endsIdle_of_ends hi hs ha ht h ?_ rfl hi.dir_eq rfl rfl
  rcases hr with rfl | rfl <;> exact ⟨nofun, nofun⟩

theorem readstatus_endsIdle {s t : State} (hi : Idle s) (hs : Between s) (ht : RespondsAt .readstatus s t) :
    EndsIdle .readstatus s t := by
  obtain ⟨q, h⟩ := readstatus_ends hi
  exact endsIdle_of_ends hi hs (requestError_none_of_no_payload rfl rfl rfl) ht h ⟨nofun, nofun⟩ rfl hi.dir_eq rfl rfl

/-- Settles O43: a request responds at one state, and from the idle state that is the end of its sequence, or of its wait's
`Timeout`, at either of which the bus is idle again and the write-protect bracket closed. -/
theorem chipOperationsFromIdleEndIdle : Obligations.ChipOperationsFromIdleEndIdle := by
  rintro i s t hi hs (rfl | ⟨page, rfl⟩ | ⟨block, rfl⟩ | ⟨page, length, rfl, hn, hp⟩ | rfl) ht
  · exact readid_endsIdle hi hs ht
  · exact readpage_endsIdle page hi hs ht
  · exact erase_endsIdle block hi hs ht
  · exact program_endsIdle hn hp hi hs ht
  · exact readstatus_endsIdle hi hs ht

end Sys2Proof.Machine
end

section
/-! SUPPORT. Proofs of the statements about the events of the chip operations: how many a run from the idle state adds (R116). -/

namespace Sys2Proof.Machine

/-- The counts of a list of events in the columns of R116's table: control writes, data writes, data reads, control reads,
direction calls, and all events. -/
def tally (events : List Event) : ℕ × ℕ × ℕ × ℕ × ℕ × ℕ :=
  (controlWrites events, dataWrites events, dataReads events, controlReads events, directionCalls events, events.length)

@[simp] theorem tally_nil : tally [] = 0 := rfl

/-- Events made one part after another count as the sum of the parts. -/
@[simp] theorem tally_append (a b : List Event) : tally (a ++ b) = tally a + tally b := by
  simp [tally, controlWrites, dataWrites, dataReads, controlReads, directionCalls]

@[simp] theorem tally_writeCtrl (v : Byte) : tally [.writeCtrl v] = (1, 0, 0, 0, 0, 1) := rfl
@[simp] theorem tally_readCtrl (v : Byte) : tally [.readCtrl v] = (0, 0, 0, 1, 0, 1) := rfl
@[simp] theorem tally_setDir (d : DirSel) : tally [.setDir d] = (0, 0, 0, 0, 1, 1) := rfl

/-- A delay of 0 is no event (R89). -/
@[simp] theorem delayEvents_zero : delayEvents 0 = [] := rfl

/-- A loop whose iterations all have the same counts. -/
theorem tally_flatMap {f : Byte → List Event} {c : ℕ × ℕ × ℕ × ℕ × ℕ × ℕ} (h : ∀ b, tally (f b) = c) (bytes : List Byte) :
    tally (bytes.flatMap f) = bytes.length • c := by
  induction bytes with
  | nil => simp
  | cons b rest ih => rw [List.flatMap_cons, tally_append, h, ih, List.length_cons, succ_nsmul']

/-- LatchCommand (R93). -/
theorem tally_commandEvents (c b : Byte) : tally (commandEvents c b) = (4, 1, 0, 0, 0, 5) := rfl

section
variable {cfg : Config} (h : NoDelays cfg)
include h

/-- One byte of LatchAddress or LatchDataIn (R94, R96). -/
theorem tally_latchByteEvents (c b : Byte) : tally (latchByteEvents cfg c b) = (2, 1, 0, 0, 0, 3) := by
  obtain ⟨hpre, hpost, hlatch, -⟩ := h
  simp only [latchByteEvents, hpre, hpost, hlatch, delayEvents_zero]
  rfl

/-- LatchDataIn (R96). -/
theorem tally_dataInEvents (c : Byte) (bytes : List Byte) :
    tally (dataInEvents cfg c bytes) = (2 * bytes.length, bytes.length, 0, 0, 0, 3 * bytes.length) := by
  rw [dataInEvents, tally_flatMap (tally_latchByteEvents h c)]
  simp [mul_comm]

/-- LatchAddress (R94). -/
theorem tally_addressEvents (c : Byte) (bytes : List Byte) :
    tally (addressEvents cfg c bytes) = (2 + 2 * bytes.length, bytes.length, 0, 0, 0, 2 + 3 * bytes.length) := by
  simp only [addressEvents, tally_append, tally_writeCtrl, tally_dataInEvents h, Prod.mk_add_mk, Prod.mk.injEq, true_and]
  omega

/-- One byte of LatchRegisterOut (R95). -/
theorem tally_readByteEvents (c v : Byte) : tally (readByteEvents cfg c v) = (2, 0, 1, 0, 0, 3) := by
  obtain ⟨-, -, -, hlow, hhigh, -⟩ := h
  simp only [readByteEvents, hlow, hhigh, delayEvents_zero]
  rfl

/-- LatchRegisterOut (R95). -/
theorem tally_dataOutEvents (c : Byte) (bytes : List Byte) :
    tally (dataOutEvents cfg c bytes) = (2 * bytes.length, 0, bytes.length, 0, 2, 2 + 3 * bytes.length) := by
  rw [dataOutEvents, tally_append, tally_append, tally_flatMap (tally_readByteEvents h c)]
  simp [mul_comm, add_comm, ← add_assoc]

/-- The wait takes one control read for each sample and nothing else (R99). -/
theorem tally_waitEvents (busy : List Byte) (last : Byte) :
    tally (waitEvents cfg busy last) = (0, 0, 0, busy.length + 1, 0, busy.length + 1) := by
  obtain ⟨-, -, -, -, -, hpoll, hsettle⟩ := h
  have hbusy : ∀ v : Byte, tally ([.readCtrl v] ++ delayEvents cfg.tPollInterval) = (0, 0, 0, 1, 0, 1) := by
    simp [hpoll, delayEvents_zero]
  rw [waitEvents, tally_append, tally_append, tally_flatMap hbusy]
  simp [hsettle]

/-- The status read and the end of the write-protect bracket (R111, R112). -/
theorem tally_statusEvents (c status : Byte) : tally (statusEvents cfg c status) = (7, 1, 1, 0, 2, 11) := by
  simp [statusEvents, tally_commandEvents, tally_dataOutEvents h]

/-- READPAGE's row of R116's table. -/
theorem tally_readPageEvents (c : Byte) (page : Nat) (busy : List Byte) (last : Byte) (bytes : List Byte) :
    tally (readPageEvents cfg c page busy last bytes) = (20 + 2 * bytes.length, 7, bytes.length, busy.length + 1, 2,
      29 + 3 * bytes.length + (busy.length + 1)) := by
  simp only [readPageEvents, readPageWaitEvents, tally_append, tally_commandEvents, tally_addressEvents h, tally_waitEvents h,
    tally_dataOutEvents h, toAddressCycles, List.length_cons, List.length_nil, Prod.mk_add_mk, Prod.mk.injEq, true_and]
  omega

/-- ERASE's row of R116's table. -/
theorem tally_eraseEvents (c : Byte) (block : Nat) (busy : List Byte) (last status : Byte) :
    tally (eraseEvents cfg c block busy last status) = (24, 6, 1, busy.length + 1, 2, 33 + (busy.length + 1)) := by
  simp only [eraseEvents, eraseWaitEvents, tally_append, tally_writeCtrl, tally_commandEvents, tally_addressEvents h,
    tally_waitEvents h, tally_statusEvents h, rowBytes, toAddressCycles, List.drop_succ_cons, List.drop_zero, List.length_cons,
    List.length_nil, Prod.mk_add_mk, Prod.mk.injEq, true_and]
  omega

/-- PROGRAM's row of R116's table. -/
theorem tally_programEvents (c : Byte) (page : Nat) (bytes busy : List Byte) (last status : Byte) :
    tally (programEvents cfg c page bytes busy last status) = (28 + 2 * bytes.length, 8 + bytes.length, 1, busy.length + 1, 2,
      39 + 3 * bytes.length + (busy.length + 1)) := by
  simp only [programEvents, programWaitEvents, tally_append, tally_writeCtrl, tally_commandEvents, tally_addressEvents h,
    tally_dataInEvents h, tally_waitEvents h, tally_statusEvents h, toAddressCycles, List.length_cons, List.length_nil,
    Prod.mk_add_mk, Prod.mk.injEq, true_and]
  omega

end

/-- The payload bytes of a PROGRAM whose payload is present are a whole page. -/
theorem length_memRead_page {page length : Field24} {s : State} (hn : length.toNat = s.cfg.pageSize)
    (hp : PayloadPresent (.program page length) s) : (memRead s 0 s.cfg.pageSize).length = s.cfg.pageSize := by
  simp only [PayloadPresent, Instr.payloadLength, hn] at hp
  rw [memRead, Stream.length_bytesAt]
  omega

/-- A request that may start and whose sequence ends after the events `new` adds exactly those at its response. -/
theorem adds_of_ends {i : Instr} {s s' : State} {q : Seq} {r : Report} {new : List Event} {cw dw dr cr dc total : ℕ}
    (hs : Between s) (ha : requestError i s = none) (h : Ends (linesOf i s) (Seq.start i) s (respond q r s'))
    (ht : s'.trace = s.trace ++ new) (hn : tally new = (cw, dw, dr, cr, dc, total)) :
    ∃ s₁, exec i s = .next s₁ ∧ ∃ t new, RespondsAt i s t ∧ t.trace = s.trace ++ new ∧ controlWrites new = cw ∧
      dataWrites new = dw ∧ dataReads new = dr ∧ controlReads new = cr ∧ directionCalls new = dc ∧ new.length = total := by
  obtain ⟨s₁, hexec, -⟩ := completes_of_ends hs ha h
  simp only [tally, Prod.mk.injEq] at hn
  exact ⟨s₁, hexec, _, new, respondsAt_of_ends hs ha h, ht, hn⟩

/-- Settles O44: each chip operation's sequence from the idle state ends after the events its rule lists, and those have the counts
of its row. -/
theorem chipOperationEventCounts : Obligations.ChipOperationEventCounts := by
  intro s hi hs hd
  refine ⟨?readid, fun page v hw hn hu => ?readpage, fun block v hw hu => ?erase, fun page length v hn hp hw hu => ?program,
    ?readstatus⟩
  case readid =>
    obtain ⟨q, r, -, h⟩ := readid_ends hi
    refine adds_of_ends hs (requestError_none_of_no_payload rfl rfl rfl) h rfl ?_
    simp [tally_commandEvents, tally_addressEvents hd, tally_dataOutEvents hd, upcoming_length, Config.readIdLen]
  case readpage =>
    obtain ⟨q, h⟩ := readpage_ends page v hi hw hn hu
    exact adds_of_ends hs (requestError_none_of_no_payload rfl rfl rfl) h rfl (hn ▸ tally_readPageEvents hd ..)
  case erase =>
    obtain ⟨q, r, -, h⟩ := erase_ends block v hi hw hu
    exact adds_of_ends hs (requestError_none_of_no_payload rfl rfl rfl) h rfl (tally_eraseEvents hd ..)
  case program =>
    obtain ⟨q, r, -, h⟩ := program_ends page length v hi hw hu
    refine adds_of_ends hs (requestError_program hn hp) h rfl ((tally_programEvents hd ..).trans ?_)
    rw [length_memRead_page hn hp]
  case readstatus =>
    obtain ⟨q, h⟩ := readstatus_ends hi
    refine adds_of_ends hs (requestError_none_of_no_payload rfl rfl rfl) h rfl ?_
    simp [tally_commandEvents, tally_dataOutEvents hd, upcoming_length]

end Sys2Proof.Machine
end

section
/-! SUPPORT. Proofs of the statements about reset: the value of every register (R145). -/

namespace Sys2Proof.Machine

/-- §3's "all-zero" control byte holds every signal low, so write protection is on (R145). -/
@[simp] theorem level_zero (sig : Signal) : level 0x00 sig = false := BitVec.getLsbD_zero

/-- The mirror of a new session holds every signal low, whatever its configuration and stream (R145). -/
theorem State.level_newSession_ctrl (cfg : Config) (stream : Stream) (sig : Signal) :
    level (State.newSession cfg stream).ctrl sig = false := level_zero sig

/-- Settles O1: each register of a new session is the value its definition writes, and the control byte's eight levels are those of
the zero byte; reset is the new session of the default configuration with the empty stream. -/
theorem resetValues : Obligations.ResetValues := by
  refine ⟨fun cfg stream => ?everySession, Config.default, Stream.empty, ?atReset⟩
  case everySession => exact ⟨rfl, State.level_newSession_ctrl cfg stream, by simp [State.newSession]⟩
  case atReset => rfl

end Sys2Proof.Machine
end

section
/-! SUPPORT. Proofs of the statements about the encoding: the round trips, the mask and match test, and the requests that are refused
before their first line (R69 to R77, R82). -/

namespace Sys2Proof

/-! ## The round trips -/

/-- The bytes of a request decode as its descriptor does, whatever payload follows (R68). -/
theorem decodeBytes_encodeRequest (i : Instr) (payload : List Byte) : decodeBytes (encodeRequest i payload) = decode (encode i) := by
  rw [decodeBytes, encodeRequest, Descriptor.ofBytes_toBytes]

/-- Settles O4: the four fields of the encoding are the instruction's own, and its row builds it from them. -/
theorem decodeOfEncode : Obligations.DecodeOfEncode := fun i hwf =>
  ⟨decode_encode hwf, fun payload => (decodeBytes_encodeRequest i payload).trans (decode_encode hwf)⟩

/-- An accepted descriptor is the encoding of what it decodes to: the reserved fields leave no freedom (R77). -/
theorem encode_of_decode {w : Descriptor} {i : Instr} (h : decode w = .ok i) : encode i = w := by
  obtain ⟨m, hop, hzero, rfl, -⟩ := decode_ok h
  obtain ⟨hm, himm, ha, hb⟩ := m.build_fields_back _ _ _ hzero
  rw [encode, Instr.opcode, hm, himm, ha, hb, hop, Descriptor.ofFields_fields]

/-- Settles O5: the decoder rejects every non-zero reserved field, so the instruction's fields are the descriptor's. -/
theorem encodeOfDecode : Obligations.EncodeOfDecode := by
  intro w i h
  obtain ⟨m, -, -, -, hwf⟩ := decode_ok h
  exact ⟨encode_of_decode h, hwf⟩

/-- A descriptor decodes to the well-formed instruction it encodes. -/
theorem decode_of_encode_eq {w : Descriptor} {i : Instr} (h : encode i = w) (hwf : i.wellFormed = true) : decode w = .ok i :=
  h ▸ decode_encode hwf

/-- Settles O7: each example is the encoding of its request. -/
theorem exampleDescriptorsDecode : Obligations.ExampleDescriptorsDecode := by
  refine ⟨?_, ?_, ?_, ?_, ?_, ?_⟩ <;> exact decode_of_encode_eq (by decide) rfl

/-! ## The mask and match test -/

/-- A row's instruction is ill formed exactly when it is SETPIN of the control bus's RDY pin (R73). -/
theorem Mnemonic.wellFormed_build_iff (m : Mnemonic) (imm : Byte) (a b : Field24) :
    (m.build imm a b).wellFormed = true ↔ ¬(m = .SETPIN ∧ imm.getLsbD 4 = true ∧ imm.extractLsb' 0 3 = 6) := by
  cases m with
  | SETPIN =>
    rw [Mnemonic.build, wellFormed_setpin_iff]
    cases h : imm.getLsbD 4 <;> simp [Bus.ofBit]
  | _ => simp [Mnemonic.build, Instr.wellFormed]

/-- Settles O6: the mask and match test of a row is its opcode and its reserved fields, and the pin of R73 is the only further
check. -/
theorem decoderAcceptsExactlyTheTable : Obligations.DecoderAcceptsExactlyTheTable := by
  intro w
  constructor
  · rintro ⟨i, h⟩
    obtain ⟨m, hop, hzero, -, -⟩ := decode_ok h
    refine ⟨⟨m, (m.mask_match w).2 ⟨hop.symm, hzero⟩⟩, ?_⟩
    rintro ⟨hsetpin, hbus, hpin⟩
    obtain ⟨e, he⟩ := decode_rdyPin (w := w) hsetpin hbus hpin
    rw [h] at he
    cases he
  · rintro ⟨⟨m, hmatch⟩, hpin⟩
    obtain ⟨hop, hzero⟩ := (m.mask_match w).1 hmatch
    refine ⟨_, decode_of_row m hop.symm hzero ((m.wellFormed_build_iff _ _ _).2 ?_)⟩
    rintro ⟨rfl, hbus, hrdy⟩
    rw [Descriptor.getLsbD_imm_four] at hbus
    rw [Descriptor.extractLsb'_imm_pin] at hrdy
    exact hpin ⟨hop, hbus, hrdy⟩

/-- READID alone has READID's opcode (R70). -/
theorem Instr.opcode_ne_readid {i : Instr} (h : i ≠ .readid) : i.opcode ≠ Mnemonic.READID.opcode := by
  intro hop
  have hrow : i.mnemonic = .READID :=
    Option.some.inj (by rw [← Mnemonic.ofOpcode_opcode, ← Mnemonic.ofOpcode_opcode]; exact congrArg _ hop)
  cases i with
  | readid => exact h rfl
  | _ => cases hrow

end Sys2Proof

namespace Sys2Proof.Machine

/-! ## Requests refused before their first line -/

/-- Settles O10: the step refuses the descriptor, and `responseIdMatch` is 0 for every opcode but READID's. -/
theorem illegalDescriptorRefused : Obligations.IllegalDescriptorRefused := by
  intro s w e hs hf hd
  exact ⟨responseIdMatch (Descriptor.op w) s.rp none, fun hop => responseIdMatch_other hop s.rp none,
    step_eq_refuseDescriptor hs hf hd⟩

/-- A legal request whose payload is cut short may not start (R75). -/
theorem requestError_of_not_payloadPresent {i : Instr} {s : State} (hwf : i.wellFormed = true)
    (hlen : i.lengthOk s.cfg.pageSize = true) (hp : ¬PayloadPresent i s) :
    requestError i s = some (.lengthMismatch (i.payloadLength s.cfg.pageSize)) := by
  obtain ⟨hzero, hshort⟩ := not_or.1 hp
  simp only [requestError, hwf, hlen, hzero, hshort, if_true, if_false]

/-- Settles O12: the payload is the last check before the first line; READID, whose `id_match` is open, has no payload. -/
theorem shortPayloadRefused : Obligations.ShortPayloadRefused := by
  intro i s hs hwf hlen hp
  have hi : i ≠ .readid := by rintro rfl; exact hp (.inl rfl)
  rw [exec_eq_respond_of_requestError hs (requestError_of_not_payloadPresent hwf hlen hp),
    respond_start_eq hs.2 (Instr.opcode_ne_readid hi)]
  exact ⟨_, rfl⟩

/-! ## Taking a request -/

/-- Between requests, with a byte at the request's place, a step is decided by the decoder (R75). -/
theorem step_of_decode {s : State} {i : Instr} (hs : Between s) (hd : decodeBytes (fetchBytes s) = .ok i) : step s = exec i s := by
  obtain ⟨hopen, hseq⟩ := hs
  have hp : requestPresent s = true := by
    simp only [requestPresent, decide_eq_true_eq]
    by_contra hend
    have hempty : fetchBytes s = [] := by simp [fetchBytes, Stream.bytesAt, hend]
    rw [hempty] at hd
    cases hd
  simp [step, hopen, hseq, hp, hd]

/-- With a request running, a step goes on with it (R40). -/
theorem step_of_running {s : State} {q : Seq} (hopen : s.sessionOpen = true) (hq : s.seq = some q) : step s = exec q.op s := by
  simp [step, hopen, hq]

/-- Settles O13: a step is `exec` of the decoded or of the running instruction. -/
theorem stepRunsTheDecodedInstruction : Obligations.StepRunsTheDecodedInstruction :=
  ⟨fun _ _ hs hd => step_of_decode hs hd, fun _ _ hopen hq => step_of_running hopen hq⟩

/-- Fewer than eight bytes are no descriptor (R68). -/
theorem ofBytes_eq_none {bytes : List Byte} (h : bytes.length < 8) : Descriptor.ofBytes bytes = none := by
  unfold Descriptor.ofBytes
  split
  · simp at h; omega
  · rfl

/-- Eight bytes are a descriptor (R68). -/
theorem ofBytes_isSome {bytes : List Byte} (h : bytes.length = 8) : ∃ w, Descriptor.ofBytes bytes = some w := by
  unfold Descriptor.ofBytes
  split
  · exact ⟨_, rfl⟩
  · rename_i hshort
    match bytes, h with
    | [b0, b1, b2, b3, b4, b5, b6, b7], _ => exact absurd rfl (hshort b0 b1 b2 b3 b4 b5 b6 b7 [])

/-- How many bytes a fetch finds (R68). -/
theorem length_fetchBytes (s : State) : (fetchBytes s).length = min 8 (s.stream.length - s.pos) := Stream.length_bytesAt _ _ _

/-- With no byte at the request's place the block has nothing to do (R35). -/
theorem step_noRequest {s : State} (hs : Between s) (h : s.stream.length ≤ s.pos) : step s = .refused .noRequest := by
  obtain ⟨hopen, hseq⟩ := hs
  simp [step, hopen, hseq, requestPresent, h]

/-- A descriptor cut short by the end of the stream is the one fault. -/
theorem step_cutShort {s : State} (hs : Between s) (hsome : s.pos < s.stream.length) (hshort : s.stream.length < s.pos + 8) :
    step s = .fault .descriptorCutShort := by
  obtain ⟨hopen, hseq⟩ := hs
  have hd : decodeBytes (fetchBytes s) = .error .cutShort := by
    rw [decodeBytes, ofBytes_eq_none (by rw [length_fetchBytes]; omega)]
  simp [step, hopen, hseq, requestPresent, hsome, hd, DecodeError.descriptor]

/-- With a whole descriptor at the request's place, a step answers a next state: the request runs or is refused (R75). -/
theorem step_next_of_descriptor {s : State} (hs : Between s) (h : s.pos + 8 ≤ s.stream.length) : ∃ t, step s = .next t := by
  obtain ⟨w, hw⟩ := ofBytes_isSome (bytes := fetchBytes s) (by rw [length_fetchBytes]; omega)
  have hbytes : decodeBytes (fetchBytes s) = decode w := by simp [decodeBytes, hw]
  cases hd : decode w with
  | ok i =>
    rw [step_of_decode hs (hbytes.trans hd)]
    exact exec_next i s hs.1 fun q hq => by rw [hs.2] at hq; cases hq
  | error e =>
    obtain ⟨hopen, hseq⟩ := hs
    have hp : requestPresent s = true := by simp only [requestPresent, decide_eq_true_eq]; omega
    exact ⟨refuseDescriptor w s, by simp [step, hopen, hseq, hp, hbytes, hd, decode_error hd]⟩

/-- After the session's end neither step nor any instruction does anything more (R39, R132). -/
theorem refused_of_closed {s : State} (h : s.sessionOpen = false) :
    step s = .refused .sessionEnded ∧ ∀ i, exec i s = .refused .sessionEnded :=
  ⟨by simp [step, h], fun i => by simp [exec_eq_perform, perform, h]⟩

/-- Settles O14: the cases are those of `step`'s definition, by how many of the descriptor's eight bytes the stream holds. -/
theorem stepStopsOnlyWithoutARequest : Obligations.StepStopsOnlyWithoutARequest := by
  intro s
  refine ⟨refused_of_closed, step_noRequest, step_cutShort, fun hopen hnext => ?_,
    rfl, rfl, rfl, rfl, rfl, rfl, rfl, rfl, fun _ => ⟨rfl, rfl⟩, refused_of_closed rfl⟩
  cases hq : s.seq with
  | some q =>
    rw [step_of_running hopen hq]
    refine exec_next q.op s hopen fun q' hq' => ?_
    rw [hq] at hq'
    cases hq'
    rfl
  | none => exact step_next_of_descriptor ⟨hopen, hq⟩ (hnext.resolve_left (absurd hq))

end Sys2Proof.Machine
end

section
/-! SUPPORT. Proofs of the statements about every step: the invariant, the one adapter call, and what no step writes (R6, R24, R28,
R29, R34, R38, R61, R114). -/

namespace Sys2Proof.Machine

/-- A step that answers a next state is one `exec`, or the refusal of a descriptor between requests (R75). -/
theorem step_exec_or_refuse {s t : State} (h : step s = .next t) :
    (∃ i, exec i s = .next t) ∨ (s.seq = none ∧ ∃ w, t = refuseDescriptor w s) := by
  obtain ⟨_, ⟨q, _, hexec⟩ | ⟨_, i, _, hexec⟩ | ⟨hs, _, w, _, _, ht⟩⟩ := step_cases h
  · exact .inl ⟨q.op, hexec⟩
  · exact .inl ⟨i, hexec⟩
  · exact .inr ⟨hs, w, ht⟩

/-! ## What the trace records, over its parts -/

@[simp] theorem lastCtrl_append (l m : List Event) : lastCtrl (l ++ m) = (lastCtrl m).or (lastCtrl l) := by
  induction l with
  | nil => simp [lastCtrl]
  | cons e rest ih =>
    simp only [List.cons_append, lastCtrl, ih]
    cases lastCtrl m <;> rfl

@[simp] theorem lastData_append (l m : List Event) : lastData (l ++ m) = (lastData m).or (lastData l) := by
  induction l with
  | nil => simp [lastData]
  | cons e rest ih =>
    simp only [List.cons_append, lastData, ih]
    cases lastData m <;> rfl

@[simp] theorem dirAfter_append (l m : List Event) : ∀ d, dirAfter d (l ++ m) = dirAfter (dirAfter d l) m := by
  induction l with
  | nil => intro d; rfl
  | cons e rest ih => intro d; cases e <;> exact ih _

@[simp] theorem directionKept_append (l m : List Event) : ∀ d,
    DirectionKept d (l ++ m) ↔ DirectionKept d l ∧ DirectionKept (dirAfter d l) m := by
  induction l with
  | nil => intro d; simp [DirectionKept, dirAfter]
  | cons e rest ih => intro d; cases e <;> simp [DirectionKept, dirAfter, ih, and_assoc]

/-! ## The bus part of the invariant -/

/-- No change of signals sets the RDY bit (R24). -/
@[simp] theorem level_withLevels_RDY (changes : List (Signal × Bool)) : ∀ v, level (withLevels v changes) .RDY = level v .RDY := by
  induction changes with
  | nil => intro v; rfl
  | cons c rest ih =>
    intro v
    rw [withLevels, ih, level_withLevel, if_neg fun h => h.2 h.1]

/-- The part of `MachineInv` that an effect on the bus state can touch. -/
structure BusInv (s : State) : Prop where
  rdyMirror : level s.ctrl .RDY = false
  rdyWrites : ∀ v, Event.writeCtrl v ∈ s.trace → level v .RDY = false
  physCtrlRecord : s.physCtrl = lastCtrl s.trace
  physDataRecord : s.physData = lastData s.trace
  dirRecord : s.dir = dirAfter .unset s.trace
  directed : DirectionKept .unset s.trace

theorem MachineInv.busInv {s : State} (h : MachineInv s) : BusInv s :=
  ⟨h.rdyMirror, h.rdyWrites, h.physCtrlRecord, h.physDataRecord, h.dirRecord, h.directed⟩

/-- What an event that is no write and no direction call leaves of the records. -/
theorem BusInv.of_event {s t : State} {e : Event} (h : BusInv s) (hc : t.ctrl = s.ctrl) (hpc : t.physCtrl = s.physCtrl)
    (hpd : t.physData = s.physData) (hd : t.dir = s.dir) (ht : t.trace = s.trace ++ [e]) (hec : lastCtrl [e] = none)
    (hed : lastData [e] = none) (hdir : ∀ d, dirAfter d [e] = d) (hk : DirectionKept s.dir [e]) : BusInv t where
  rdyMirror := hc ▸ h.rdyMirror
  rdyWrites v hv := by
    rw [ht, List.mem_append, List.mem_singleton] at hv
    rcases hv with hv | rfl
    · exact h.rdyWrites v hv
    · cases hec
  physCtrlRecord := by rw [hpc, ht, lastCtrl_append, hec, h.physCtrlRecord]; rfl
  physDataRecord := by rw [hpd, ht, lastData_append, hed, h.physDataRecord]; rfl
  dirRecord := by rw [hd, ht, dirAfter_append, hdir, h.dirRecord]
  directed := by rw [ht, directionKept_append, ← h.dirRecord]; exact ⟨h.directed, hk⟩

/-- A control write of a byte whose RDY bit is 0 is recorded as the last one (R24, R29). -/
theorem BusInv.of_flushCtrl {s : State} (h : BusInv s) : BusInv (flushCtrl s) where
  rdyMirror := h.rdyMirror
  rdyWrites v hv := by
    rw [flushCtrl_trace, List.mem_append, List.mem_singleton, Event.writeCtrl.injEq] at hv
    rcases hv with hv | rfl
    · exact h.rdyWrites v hv
    · exact h.rdyMirror
  physCtrlRecord := by simp [lastCtrl]
  physDataRecord := by simpa [lastData] using h.physDataRecord
  dirRecord := by simpa [dirAfter] using h.dirRecord
  directed := by simpa [DirectionKept] using h.directed

/-- A data write under `Drive` is recorded as the last one (R28, R29). -/
theorem BusInv.of_flushData {s : State} (h : BusInv s) (hd : s.dir = .drive) : BusInv (flushData s) where
  rdyMirror := h.rdyMirror
  rdyWrites v hv := h.rdyWrites v (by simpa using hv)
  physCtrlRecord := by simpa [lastCtrl] using h.physCtrlRecord
  physDataRecord := by simp [lastData]
  dirRecord := by simpa [dirAfter] using h.dirRecord
  directed := by simpa [DirectionKept, ← h.dirRecord, hd] using h.directed

/-- A direction call is recorded (R28). -/
theorem BusInv.of_setDir {s : State} (h : BusInv s) (d : DirSel) : BusInv (setDir d s) where
  rdyMirror := h.rdyMirror
  rdyWrites v hv := h.rdyWrites v (by simpa using hv)
  physCtrlRecord := by simpa [lastCtrl] using h.physCtrlRecord
  physDataRecord := by simpa [lastData] using h.physDataRecord
  dirRecord := by simp [dirAfter]
  directed := by simpa [DirectionKept] using h.directed

/-- Changes of signals keep the mirror's RDY bit (R24). -/
theorem BusInv.of_setSignals {s : State} (h : BusInv s) (changes : List (Signal × Bool)) : BusInv (setSignals changes s) :=
  ⟨by simpa using h.rdyMirror, h.rdyWrites, h.physCtrlRecord, h.physDataRecord, h.dirRecord, h.directed⟩

/-- Every effect keeps the bus part of the invariant. -/
theorem Effect.busInv {changes : List (Signal × Bool)} {s t : State} (he : Effect changes s t) (h : BusInv s) : BusInv t := by
  cases he with
  | quiet => exact ⟨h.rdyMirror, h.rdyWrites, h.physCtrlRecord, h.physDataRecord, h.dirRecord, h.directed⟩
  | ctrlMirror => exact h.of_setSignals changes
  | dataMirror => exact ⟨h.rdyMirror, h.rdyWrites, h.physCtrlRecord, h.physDataRecord, h.dirRecord, h.directed⟩
  | ctrlWrite => exact (h.of_setSignals changes).of_flushCtrl
  | dataWrite d hd =>
    have hset : BusInv (setData d s) := ⟨h.rdyMirror, h.rdyWrites, h.physCtrlRecord, h.physDataRecord, h.dirRecord, h.directed⟩
    exact hset.of_flushData hd
  | direction d => exact h.of_setDir d
  | ctrlRead => exact h.of_event rfl rfl rfl rfl rfl rfl rfl (fun _ => rfl) trivial
  | dataRead hd => exact h.of_event rfl rfl rfl rfl rfl rfl rfl (fun _ => rfl) ⟨hd, trivial⟩
  | delay => exact h.of_event rfl rfl rfl rfl rfl rfl rfl (fun _ => rfl) trivial

/-- Waiting or responding changes no bus state. -/
theorem Settles.busInv {q : Seq} {s t : State} (hs : Settles q s t) (h : BusInv s) : BusInv t := by
  cases hs with
  | waits | responds => exact ⟨h.rdyMirror, h.rdyWrites, h.physCtrlRecord, h.physDataRecord, h.dirRecord, h.directed⟩

theorem exec_busInv {i : Instr} {s t : State} (he : exec i s = .next t) (h : BusInv s) : BusInv t := by
  obtain ⟨q, s', _, _, heffect, hsettles⟩ := exec_effect he
  exact hsettles.busInv (heffect.busInv h)

theorem step_busInv {s t : State} (hstep : step s = .next t) (h : BusInv s) : BusInv t := by
  obtain ⟨i, he⟩ | ⟨_, w, rfl⟩ := step_exec_or_refuse hstep
  · exact exec_busInv he h
  · exact ⟨h.rdyMirror, h.rdyWrites, h.physCtrlRecord, h.physDataRecord, h.dirRecord, h.directed⟩

/-! ## The write-protect bracket -/

/-- What a line does to the bracket: only the bracket's own lines touch it (R114). -/
def LineOutcome.KeepsBracket (l : Line) (q : Seq) : LineOutcome → Prop
  | .done q' _ => q'.wpOpen = q.wpOpen ∨ l = .writeProtect q'.wpOpen
  | .raised _ q' _ => q'.wpOpen = q.wpOpen

theorem lineFlushData_keepsBracket (l : Line) (q : Seq) (s : State) : (lineFlushData q s).KeepsBracket l q := by
  unfold lineFlushData
  split
  · exact .inl rfl
  · exact rfl

theorem lineTestStatus_keepsBracket (l : Line) (failure : Byte → Report) (q : Seq) (s : State) :
    (lineTestStatus failure q s).KeepsBracket l q := by
  unfold lineTestStatus
  split
  · exact .inl rfl
  · split
    · exact rfl
    · exact .inl rfl

/-- Every line keeps the bracket but its own two. -/
theorem runLine_keepsBracket (l : Line) (q : Seq) (s : State) : (runLine l q s).KeepsBracket l q := by
  cases l with
  | writeProtect off => exact .inr rfl
  | flush bus =>
    cases bus
    · exact lineFlushData_keepsBracket _ q s
    · exact .inl rfl
  | driveData b => exact lineFlushData_keepsBracket _ q _
  | latchByte b => exact lineFlushData_keepsBracket _ q _
  | sample bus =>
    simp only [runLine, lineSample]; split
    · exact rfl
    · exact .inl rfl
  | checkEntry op =>
    simp only [runLine, lineCheckEntry]; split
    · exact rfl
    · exact .inl rfl
  | readByte r =>
    simp only [runLine, lineReadByte]; split
    · cases r <;> exact .inl rfl
    · exact rfl
  | poll =>
    simp only [runLine, linePoll]; split
    · exact .inl rfl
    · split
      · exact rfl
      · exact .inl rfl
  | compareId => simp only [runLine, lineCompareId]; split <;> exact .inl rfl
  | testErase b => exact lineTestStatus_keepsBracket _ _ q s
  | testProgram b => exact lineTestStatus_keepsBracket _ _ q s
  | sourceRecord i =>
    simp only [runLine, lineSourceRecord]; split
    · exact .inl rfl
    · exact rfl
  | sinkRecord =>
    simp only [runLine, lineSinkRecord]; split
    · exact .inl rfl
    · exact rfl
  | _ => exact .inl rfl

/-- Only an erase or program has a line that opens or closes the bracket (R114). -/
theorem opensBracket_of_writeProtect {i : Instr} {s : State} {off : Bool} (h : Line.writeProtect off ∈ linesOf i s) :
    opensBracket i = true := by
  rcases linesOf_changes i s with ⟨pin, value, rfl⟩ | rfl | ⟨ho, -⟩ | hstrobes
  · simp [linesOf, setpinLines] at h
  · simp [linesOf, initLines] at h
  · exact ho
  · exact absurd (hstrobes _ h (.nWP, off) (by simp [Line.changes])) (by simp [Strobe])

/-- The bracket of a running request is open only in an operation that opens one (R114). -/
def BracketInv (s : State) : Prop := ∀ q, s.seq = some q → q.wpOpen = true → opensBracket q.op = true

/-- One step of a running operation keeps the bracket's rule. -/
theorem advance_bracketInv {q : Seq} {s : State} (h : q.wpOpen = true → opensBracket q.op = true) :
    BracketInv (advance (linesOf q.op s) q s) := by
  have ha := advance_advances (linesOf q.op s) q s
  generalize advance (linesOf q.op s) q s = t at ha
  intro q₁ hq₁ hw
  cases ha with
  | restores => cases hq₁; cases hw
  | fails => cases hq₁
  | ends => cases hq₁
  | @goesOn l q' s' _ hl hr =>
    cases hq₁
    have hk := runLine_keepsBracket l q s
    rw [hr] at hk
    rw [(runLine_done_frame hr).op]
    rcases hk with hk | rfl
    · exact h (hk ▸ hw)
    · exact opensBracket_of_writeProtect (List.mem_of_getElem? hl)
  | @raises l e q' s' _ _ hr =>
    cases hq₁
    have hk : q'.wpOpen = q.wpOpen := by have := runLine_keepsBracket l q s; rwa [hr] at this
    simpa [(runLine_raised_frame hr).op] using h (hk ▸ hw)

theorem exec_bracketInv {i : Instr} {s t : State} (he : exec i s = .next t) (h : BracketInv s) : BracketInv t := by
  rcases exec_cases i s with ⟨_, he'⟩ | ⟨_, ⟨q, _, _, he'⟩ | ⟨e, _, _, he'⟩ | ⟨_, _, he'⟩ | ⟨q, hq, rfl, he'⟩⟩ <;> rw [he'] at he <;>
    cases he
  · exact fun q hq => nomatch hq
  · exact advance_bracketInv (q := Seq.start i) nofun
  · exact advance_bracketInv (h q hq)

/-! ## What no step writes -/

/-- `t` belongs to the same session as `s`: the configuration, the stream and whether it is open are as before (R38, R61). -/
structure SameSession (s t : State) : Prop where
  cfg : t.cfg = s.cfg
  stream : t.stream = s.stream
  sessionOpen : t.sessionOpen = s.sessionOpen

theorem Effect.sameSession {changes : List (Signal × Bool)} {s t : State} (h : Effect changes s t) : SameSession s t := by
  cases h <;> exact ⟨rfl, rfl, rfl⟩

theorem Settles.sameSession {q : Seq} {s t : State} (h : Settles q s t) : SameSession s t := by
  cases h <;> exact ⟨rfl, rfl, rfl⟩

theorem exec_sameSession {i : Instr} {s t : State} (he : exec i s = .next t) : SameSession s t := by
  obtain ⟨q, s', _, _, heffect, hsettles⟩ := exec_effect he
  have h₁ := heffect.sameSession
  have h₂ := hsettles.sameSession
  exact ⟨h₂.cfg.trans h₁.cfg, h₂.stream.trans h₁.stream, h₂.sessionOpen.trans h₁.sessionOpen⟩

theorem step_sameSession {s t : State} (hstep : step s = .next t) : SameSession s t := by
  obtain ⟨i, he⟩ | ⟨_, w, rfl⟩ := step_exec_or_refuse hstep
  · exact exec_sameSession he
  · exact ⟨rfl, rfl, rfl⟩

/-- Settles O52: a step's one effect and what follows it keep the session. -/
theorem configurationAndStreamAreNeverWritten : Obligations.ConfigurationAndStreamAreNeverWritten := by
  intro s t hstep
  obtain ⟨hcfg, hstream, hopen⟩ := step_sameSession hstep
  exact ⟨hcfg, congrArg Stream.length hstream, hopen, fun a => by rw [hstream]⟩

/-! ## The invariant -/

/-- The rule about the last response follows the count of responses (R34, R35). -/
theorem CountsResponse.responded {s t : State} (h : CountsResponse s t) (hs : s.resp = none ↔ s.rp = 0) :
    t.resp = none ↔ t.rp = 0 := by
  rcases h with ⟨hrp, hresp, -⟩ | ⟨hrp, -, hresp⟩
  · rw [hrp, hresp, hs]
  · simp [hrp, hresp]

/-- Settles O3: the bus part is kept by the step's one effect, the response follows `rp`, the bracket is opened by an erase or program
alone, and the stream is never written. -/
theorem stepKeepsInvariant : Obligations.StepKeepsInvariant := by
  intro s t h hstep
  have hbus := step_busInv hstep h.busInv
  have hbracket : BracketInv t := by
    obtain ⟨i, he⟩ | ⟨hs, w, rfl⟩ := step_exec_or_refuse hstep
    · exact exec_bracketInv he h.bracket
    · intro q hq; rw [refuseDescriptor_seq, hs] at hq; cases hq
  exact ⟨hbus.rdyMirror, hbus.rdyWrites, hbus.physCtrlRecord, hbus.physDataRecord, hbus.dirRecord, hbus.directed,
    (step_countsResponse hstep).responded h.responded, hbracket, (step_sameSession hstep).stream ▸ h.canonical⟩

/-- The invariant holds at the start of a session whose stream is in canonical form. -/
theorem machineInv_newSession (cfg : Config) {stream : Stream} (h : Stream.wf stream) : MachineInv (State.newSession cfg stream) where
  rdyMirror := State.level_newSession_ctrl cfg stream .RDY
  rdyWrites _ hv := absurd hv List.not_mem_nil
  physCtrlRecord := rfl
  physDataRecord := rfl
  dirRecord := rfl
  directed := trivial
  responded := ⟨fun _ => rfl, fun _ => rfl⟩
  bracket _ hq := absurd hq (Option.some_ne_none _).symm
  canonical := h

/-- Settles O2: nothing has been written, called or answered yet; the empty stream is canonical. -/
theorem resetSatisfiesInvariant : Obligations.ResetSatisfiesInvariant :=
  ⟨machineInv_newSession _ State.reset_stream_wf, fun cfg _ => machineInv_newSession cfg⟩

/-! ## One adapter call -/

theorem Effect.trace_eq {changes : List (Signal × Bool)} {s t : State} (h : Effect changes s t) :
    t.trace = s.trace ∨ ∃ e, t.trace = s.trace ++ [e] := by
  cases h with
  | quiet | ctrlMirror | dataMirror => exact .inl rfl
  | ctrlWrite | dataWrite | direction | ctrlRead | dataRead | delay => exact .inr ⟨_, rfl⟩

theorem Settles.trace_eq {q : Seq} {s t : State} (h : Settles q s t) : t.trace = s.trace := by
  cases h <;> rfl

/-- Settles O51: a step has one effect, which makes at most one adapter call. -/
theorem stepMakesAtMostOneAdapterCall : Obligations.StepMakesAtMostOneAdapterCall := by
  intro s t hstep
  obtain ⟨i, he⟩ | ⟨_, w, rfl⟩ := step_exec_or_refuse hstep
  · obtain ⟨q, s', _, _, heffect, hsettles⟩ := exec_effect he
    rw [hsettles.trace_eq]
    exact heffect.trace_eq
  · exact .inl rfl

end Sys2Proof.Machine
end

section
/-! SUPPORT. Proofs of the statements about the instructions of one line: SETPIN, SETDATA, FLUSH, SAMPLE, SETDIR, DELAY and ADDRCYC
(R84 to R89, R103 to R105). -/

namespace Sys2Proof.Machine

/-! ## Requests of one line -/

/-- A response of any operation but READID is `ended` with the bytes written (R34, R79). -/
theorem respond_eq_ended {i : Instr} {q : Seq} {r : Report} {s : State} {bytes : List Byte} (hop : q.op = i) (hbuf : q.buf = bytes)
    (hi : i ≠ .readid) : respond q r s = ended i r bytes false s := by
  simp [respond, ended, hop, hbuf, hi]

/-- A request of one line performs it, and responds in its second step. -/
theorem exec_oneLine {i : Instr} {l : Line} {s s' : State} {q' : Seq} (hs : Between s) (ha : requestError i s = none)
    (hl : linesOf i s = [l]) (hr : runLine l (Seq.start i) s = .done q' s') (hn : q'.step = 1) :
    exec i s = .next { s' with seq := some q' } ∧ exec i { s' with seq := some q' } = .next (respond q' q'.report s') := by
  have fr := runLine_done_frame hr
  have hrun : SameRun s s := .start hs.1
  constructor
  · rw [exec_start hs ha, exec_running (i := i) (q := Seq.start i) rfl hrun, advance_done rfl (by rw [hl]; rfl) hr]
  · rw [exec_running (i := i) fr.op (hrun.line fr), advance_past fr.failing (by simp [hl, hn])]

/-- A request of one line, but READID's, completes with `OK` and the bytes the line has written. -/
theorem completes_oneLine {i : Instr} {l : Line} {s s' : State} {q' : Seq} {bytes : List Byte} (hs : Between s)
    (ha : requestError i s = none) (hl : linesOf i s = [l]) (hr : runLine l (Seq.start i) s = .done q' s') (hn : q'.step = 1)
    (hrep : q'.report = .ok) (hbuf : q'.buf = bytes) (hi : i ≠ .readid) :
    ∃ s₁, exec i s = .next s₁ ∧ exec i s₁ = .next (ended i .ok bytes false s') := by
  obtain ⟨h₁, h₂⟩ := exec_oneLine hs ha hl hr hn
  rw [hrep, respond_eq_ended (runLine_done_frame hr).op hbuf hi] at h₂
  exact ⟨_, h₁, h₂⟩

/-- A request, but READID's, whose first line raises an error responds with it in its second step, with no bytes and nothing else
changed but what the line has done (R129). -/
theorem completes_firstLine_raised {i : Instr} {l : Line} {s s' : State} {e : Report} (hs : Between s) (ha : requestError i s = none)
    (hl : (linesOf i s)[0]? = some l) (hr : runLine l (Seq.start i) s = .raised e (Seq.start i) s') (hi : i ≠ .readid) :
    ∃ s₁, exec i s = .next s₁ ∧ exec i s₁ = .next (ended i e [] false s') := by
  have hrun : SameRun s s := .start hs.1
  refine ⟨raiseError e (Seq.start i) s', ?_, ?_⟩
  · rw [exec_start hs ha, exec_running (i := i) (q := Seq.start i) rfl hrun, advance_raised rfl hl hr]
  · rw [exec_fails (i := i) (q := Seq.start i) rfl (hrun.line (runLine_raised_frame hr)) rfl,
      respond_eq_ended (i := i) (bytes := []) rfl rfl hi]

/-! ## SETPIN and SETDATA -/

/-- A signal but RDY is changed by its bit (R66, R84). -/
theorem withLevel_eq_setBit {sig : Signal} (h : sig ≠ .RDY) (v : Byte) (b : Bool) : withLevel v sig b = setBit v sig.bit b := by
  cases sig with
  | RDY => exact absurd rfl h
  | _ => rfl

/-- Pin 6 alone is RDY's (R66). -/
theorem ofPin_ne_RDY {pin : BitVec 3} (h : pin ≠ 6) : Signal.ofPin pin ≠ .RDY := by
  revert pin; decide

/-- `setBit` bit by bit, at a pin (R84). -/
theorem getLsbD_setBit_pin (v : Byte) (pin : BitVec 3) (value : Bool) :
    ∀ j < 8, (setBit v pin.toNat value).getLsbD j = if j = pin.toNat then value else v.getLsbD j := by
  intro j hj
  rw [getLsbD_setBit v _ _ _ pin.isLt hj]
  simp only [eq_comm]

/-- Settles O15: SETPIN is one `setBit` of one mirror, and its instruction is ill formed on the control bus's RDY pin. -/
theorem setpinChangesOneMirrorBit : Obligations.SetpinChangesOneMirrorBit := by
  refine ⟨fun pin value s hs => ?data, fun pin value s hs hpin => ?ctrl, fun value s hs => ?rdy⟩
  case data =>
    exact ⟨_, getLsbD_setBit_pin s.data pin value,
      completes_oneLine hs (requestError_none_of_no_payload rfl rfl rfl) rfl rfl rfl rfl rfl nofun⟩
  case ctrl =>
    have hwf : (Instr.setpin .ctrl pin value).wellFormed = true := (wellFormed_setpin_iff _ _ _).2 fun h => hpin h.2
    have hset : setPin .ctrl pin value s = { s with ctrl := setBit s.ctrl pin.toNat value } := by
      rw [← bit_ofPin, ← withLevel_eq_setBit (ofPin_ne_RDY hpin)]; rfl
    exact ⟨_, getLsbD_setBit_pin s.ctrl pin value, hset ▸
      completes_oneLine hs (requestError_none_of_no_payload hwf rfl rfl) rfl rfl rfl rfl rfl nofun⟩
  case rdy =>
    have he : requestError (.setpin .ctrl 6 value) s = some (.illegalRequest 0x01) := rfl
    rw [exec_eq_respond_of_requestError hs he, respond_start_eq hs.2 (Instr.opcode_ne_readid (i := .setpin .ctrl 6 value) nofun)]
    exact ⟨_, rfl⟩

/-- Settles O16: SETDATA's one line writes the mirror. -/
theorem setdataWritesTheDataMirror : Obligations.SetdataWritesTheDataMirror := fun _ _ hs =>
  completes_oneLine hs (requestError_none_of_no_payload rfl rfl rfl) rfl rfl rfl rfl rfl nofun

/-! ## FLUSH and SAMPLE -/

/-- Settles O17: FLUSH's one line makes the write, or raises the direction error. -/
theorem flushWritesOneMirror : Obligations.FlushWritesOneMirror := by
  refine ⟨fun s hs => ?ctrl, fun s hs hd => ?data, fun s hs hd => ?violation⟩
  case ctrl => exact completes_oneLine hs (requestError_none_of_no_payload rfl rfl rfl) rfl rfl rfl rfl rfl nofun
  case data =>
    exact completes_oneLine hs (requestError_none_of_no_payload rfl rfl rfl) (l := .flush .data) rfl
      (if_pos hd) rfl rfl rfl nofun
  case violation =>
    exact completes_firstLine_raised hs (requestError_none_of_no_payload rfl rfl rfl) (l := .flush .data) rfl
      (if_neg hd) nofun

/-- Settles O18: SAMPLE's one line makes the read and writes its byte, or raises the direction error. -/
theorem sampleReturnsOneAnswer : Obligations.SampleReturnsOneAnswer := by
  refine ⟨fun s hs => ?ctrl, fun s hs hd => ?data, fun s hs hd => ?violation⟩
  case ctrl => exact completes_oneLine hs (requestError_none_of_no_payload rfl rfl rfl) rfl rfl rfl rfl rfl nofun
  case data =>
    exact completes_oneLine hs (requestError_none_of_no_payload rfl rfl rfl) (l := .sample .data) rfl
      (if_neg fun h => h.2 hd) rfl rfl rfl nofun
  case violation =>
    exact completes_firstLine_raised hs (requestError_none_of_no_payload rfl rfl rfl) (l := .sample .data) rfl
      (if_pos ⟨rfl, hd⟩) nofun

/-! ## SETDIR and DELAY -/

/-- Settles O19: SETDIR's one line makes the call; the data lines follow the direction. -/
theorem setdirSwitchesTheDirection : Obligations.SetdirSwitchesTheDirection := by
  refine ⟨fun s hs => ⟨?_, rfl⟩, fun s hs => ⟨?_, rfl⟩⟩ <;>
    exact completes_oneLine hs (requestError_none_of_no_payload rfl rfl rfl) rfl rfl rfl rfl rfl nofun

/-- Settles O20: DELAY's one line appends its event, if it has one, and the response is the step after it. -/
theorem delayMakesOneDelayEvent : Obligations.DelayMakesOneDelayEvent := by
  refine ⟨fun s hs => ?zero, fun t s hs ht => ?positive⟩
  case zero => exact completes_oneLine hs (requestError_none_of_no_payload rfl rfl rfl) rfl rfl rfl rfl rfl nofun
  case positive =>
    have hsleep : sleep t.toNat s = { s with trace := s.trace ++ [.delay t.toNat] } := if_neg (by omega)
    obtain ⟨h₁, h₂⟩ := exec_oneLine (i := .delay t) (l := .sleep t.toNat) (q' := (Seq.start (.delay t)).next) hs
      (requestError_none_of_no_payload rfl rfl rfl) rfl (congrArg (LineOutcome.done _) hsleep) rfl
    exact ⟨_, h₁, ⟨rfl, by simp, rfl, rfl⟩, h₂⟩

/-! ## ADDRCYC and its bytes -/

/-- A byte of a field, as a number divided down to it (R65). -/
theorem extractLsb'_eq_ofNat_div {n : Nat} (x : BitVec n) (k : Nat) : x.extractLsb' k 8 = BitVec.ofNat 8 (x.toNat / 2 ^ k) := by
  apply BitVec.eq_of_toNat_eq
  rw [BitVec.extractLsb'_toNat, BitVec.toNat_ofNat, Nat.shiftRight_eq_div_pow]

/-- The five cycles of two fields, by their bits (R65, R103). -/
theorem toAddressCycles_fields (page column : Field24) : toAddressCycles page.toNat column.toNat =
    [column.extractLsb' 0 8, column.extractLsb' 8 8, page.extractLsb' 0 8, page.extractLsb' 8 8, page.extractLsb' 16 8] := by
  simp [toAddressCycles, extractLsb'_eq_ofNat_div]

/-- Settles O33: ADDRCYC's one line writes the five cycles to the response. -/
theorem addrcycReturnsTheCycles : Obligations.AddrcycReturnsTheCycles := by
  intro page column s hs
  rw [← toAddressCycles_fields]
  exact completes_oneLine hs (requestError_none_of_no_payload rfl rfl rfl) rfl rfl rfl rfl rfl nofun

/-- Bytes agree that agree as numbers modulo 256. -/
theorem ofNat_eq_of_mod_eq {m n : Nat} (h : m % 256 = n % 256) : BitVec.ofNat 8 m = BitVec.ofNat 8 n :=
  BitVec.eq_of_toNat_eq (by simpa using h)

/-- Pages that agree in their low 24 bits, and columns that agree in their low 16, have the same cycles (R104). -/
theorem toAddressCycles_congr {page column page' column' : Nat} (hp : page % 2 ^ 24 = page' % 2 ^ 24)
    (hc : column % 2 ^ 16 = column' % 2 ^ 16) : toAddressCycles page column = toAddressCycles page' column' := by
  simp only [toAddressCycles, List.cons.injEq, and_true]
  refine ⟨?_, ?_, ?_, ?_, ?_⟩ <;> exact ofNat_eq_of_mod_eq (by omega)

/-- Settles O35: no cycle reads a bit above the page's 24 or the column's 16. -/
theorem addressCyclesTruncate : Obligations.AddressCyclesTruncate := by
  refine ⟨fun page column => toAddressCycles_congr (by omega) (by omega), fun page column k => toAddressCycles_congr (by omega) rfl,
    fun page column => ⟨rfl, ?_⟩⟩
  have h := toAddressCycles_fields page 0
  exact congrArg (List.drop 2) h

end Sys2Proof.Machine
end

section
/-! SUPPORT. Proofs of the statements about INIT and the Bus Operations: completion, the entry checks, the idle state and the cycles on
the lines (R53, R63, R90 to R98, R147). -/

namespace Sys2Proof.Machine

/-! ## Completion -/

/-- A request, but READID's, whose sequence is a segment completes with the bytes written and the report it has then. -/
theorem completes_ended {i : Instr} {s s' : State} {q' : Seq} {r : Report} {bytes : List Byte} (hs : Between s)
    (ha : requestError i s = none) (h : Segment (linesOf i s) (Seq.start i) s q' s') (hop : q'.op = i) (hr : q'.report = r)
    (hbuf : q'.buf = bytes) (hi : i ≠ .readid) : CompletesWith i s (ended i r bytes false s') :=
  completes_of_segment hs ha h (by rw [hr, respond_eq_ended hop hbuf hi])

/-- INIT's control byte from the mirror's (R90). -/
def initCtrl (c : Byte) : Byte := withLevels c initLevels

/-- INIT sets six signals and leaves AUX and RDY (R90). -/
theorem level_initCtrl (c : Byte) :
    level (initCtrl c) .CLE = false ∧ level (initCtrl c) .ALE = false ∧ level (initCtrl c) .nCE = false ∧
      level (initCtrl c) .nWE = true ∧ level (initCtrl c) .nRE = true ∧ level (initCtrl c) .nWP = false ∧
      level (initCtrl c) .AUX = level c .AUX ∧ level (initCtrl c) .RDY = level c .RDY := by
  simp [initCtrl, initLevels, withLevels]

/-- INIT: the control flush, then the direction, then the data lines (R90). -/
theorem init_segment (q : Seq) (s : State) : Segment initLines q s { q with step := q.step + 3 }
    { s with
      ctrl := initCtrl s.ctrl, data := 0x00, dir := .drive, physCtrl := some (initCtrl s.ctrl), physData := some 0x00
      trace := s.trace ++ [.writeCtrl (initCtrl s.ctrl), .setDir .drive, .writeData 0x00] } := by
  apply segment_of_straight
  simp [straight, initLines, runLine, Seq.next, lineFlushData, flushCtrl, flushData, setSignals, setData, setDir, DirSel.toDir,
    initCtrl]

/-- Settles O21: INIT has no check, so its three lines run from every state. -/
theorem initCompletes : Obligations.InitCompletes := fun s hs =>
  ⟨initCtrl s.ctrl, level_initCtrl s.ctrl,
    completes_ended hs (requestError_none_of_no_payload rfl rfl rfl) (init_segment _ s) rfl rfl rfl nofun⟩

/-- INIT's control byte is fixed by AUX where RDY is 0 (R66, R147). -/
theorem initCtrl_eq {c : Byte} (h : level c .RDY = false) : initCtrl c = if level c .AUX then 0x98 else 0x18 := by
  obtain ⟨hcle, hale, hnce, hnwe, hnre, hnwp, haux, hrdy⟩ := level_initCtrl c
  rw [h] at hrdy
  apply ext_levels
  intro sig
  cases hc : level c .AUX with
  | false | true =>
    rw [hc] at haux
    cases sig <;> simp only [*] <;> decide

/-- Settles O22: the levels INIT sets are the idle state's, with nWP at 0. -/
theorem initLeavesIdle : Obligations.InitLeavesIdle := by
  intro s hs hrdy
  have ha : requestError .init s = none := requestError_none_of_no_payload rfl rfl rfl
  have h := ends_of_segment (lines := linesOf .init s) (init_segment (Seq.start .init) s)
  obtain ⟨s₁, hexec, -⟩ := completes_of_ends hs ha h
  obtain ⟨hcle, hale, hnce, hnwe, hnre, hnwp, -, hrdy'⟩ := level_initCtrl s.ctrl
  exact ⟨s₁, hexec, _, respondsAt_of_ends hs ha h, ⟨hcle, hale, hnce, hnwe, hnre, hrdy'.trans hrdy, rfl, rfl, rfl⟩,
    ⟨hnwp, _, rfl, hnwp⟩, rfl, initCtrl_eq hrdy⟩

/-- Settles O23: LCMD is LatchCommand alone. -/
theorem lcmdCompletes : Obligations.LcmdCompletes := fun b s hs hce hre hd =>
  completes_ended hs (requestError_none_of_no_payload rfl rfl rfl) (latchCommand_segment b _ s hce hre hd) rfl rfl rfl nofun

/-- Settles O24: LADDR is LatchAddress over its payload. -/
theorem laddrCompletes : Obligations.LaddrCompletes := fun len s hs hp hce hcle hre hd =>
  completes_ended hs (requestError_none rfl rfl hp) (latchAddress_segment s.cfg (memRead s 0 len.toNat) _ s hce hcle hre hd)
    rfl rfl rfl nofun

/-- Settles O25: LOUT is LatchRegisterOut, whose bytes are the response's. -/
theorem loutCompletes : Obligations.LoutCompletes := fun count s hs hce hwe hale =>
  completes_ended hs (requestError_none_of_no_payload rfl rfl rfl)
    (latchRegisterOut_segment s.cfg true count.toNat _ s hce hwe hale fun _ => rfl) rfl rfl rfl nofun

/-- Settles O26: LDIN is LatchDataIn over its payload. -/
theorem ldinCompletes : Obligations.LdinCompletes := fun len s hs hp hd =>
  completes_ended hs (requestError_none rfl rfl hp) (latchDataIn_segment s.cfg (memRead s 0 len.toNat) _ s hd) rfl rfl rfl nofun

/-! ## The entry checks -/

/-- The first failing conjunct is the error (R92). -/
theorem entryError_of_firstFailing {op : BusOp} {s : State} {sig : Signal} (h : firstFailing s.ctrl op.conjuncts = some sig) :
    entryError op s = some (.protocolPrecondition op sig) := by
  simp [entryError, h]

/-- The direction is checked after every conjunct (R92). -/
theorem entryError_of_direction {op : BusOp} {s : State} (h : firstFailing s.ctrl op.conjuncts = none)
    (hop : op.drivesData = true) (hd : s.dir ≠ .drive) : entryError op s = some (.directionViolation .data) := by
  simp [entryError, h, hop, hd]

/-- A failing entry check raises its error and does nothing else (R92). -/
theorem runLine_checkEntry_raised {op : BusOp} {s : State} {e : Report} (h : entryError op s = some e) (q : Seq) :
    runLine (.checkEntry op) q s = .raised e q s := by
  simp [runLine, lineCheckEntry, h]

/-- A Bus Operation whose entry check fails ends with that error and no effect. -/
theorem fails_of_entryError {i : Instr} {op : BusOp} {s : State} {e : Report} (hs : Between s) (ha : requestError i s = none)
    (hl : (linesOf i s)[0]? = some (.checkEntry op)) (he : entryError op s = some e) (hi : i ≠ .readid) :
    ∃ s₁, exec i s = .next s₁ ∧ exec i s₁ = .next (ended i e [] false s) :=
  completes_firstLine_raised hs ha hl (runLine_checkEntry_raised he _) hi

/-- Settles O27: the entry checks are each operation's first line, which raises the first failing one. -/
theorem busOperationChecksFailFast : Obligations.BusOperationChecksFailFast := by
  refine ⟨fun b s hs => ?lcmd, fun len s hs hp => ?laddr, fun count s hs => ?lout, fun len s hs hp hd => ?ldin⟩
  case lcmd =>
    have ha : requestError (.lcmd b) s = none := requestError_none_of_no_payload rfl rfl rfl
    refine ⟨fun hce => ?_, fun hce hre => ?_, fun hce hre hd => ?_⟩ <;> refine fails_of_entryError hs ha (op := .LCMD) rfl ?_ nofun
    · exact entryError_of_firstFailing (by simp [BusOp.conjuncts, firstFailing, hce])
    · exact entryError_of_firstFailing (by simp [BusOp.conjuncts, firstFailing, hce, hre])
    · exact entryError_of_direction (by simp [BusOp.conjuncts, firstFailing, hce, hre]) rfl hd
  case laddr =>
    have ha : requestError (.laddr len) s = none := requestError_none rfl rfl hp
    refine ⟨fun hce => ?_, fun hce hcle => ?_, fun hce hcle hre => ?_, fun hce hcle hre hd => ?_⟩ <;>
      refine fails_of_entryError hs ha (op := .LADDR) rfl ?_ nofun
    · exact entryError_of_firstFailing (by simp [BusOp.conjuncts, firstFailing, hce])
    · exact entryError_of_firstFailing (by simp [BusOp.conjuncts, firstFailing, hce, hcle])
    · exact entryError_of_firstFailing (by simp [BusOp.conjuncts, firstFailing, hce, hcle, hre])
    · exact entryError_of_direction (by simp [BusOp.conjuncts, firstFailing, hce, hcle, hre]) rfl hd
  case lout =>
    have ha : requestError (.lout count) s = none := requestError_none_of_no_payload rfl rfl rfl
    refine ⟨fun hce => ?_, fun hce hwe => ?_, fun hce hwe hale => ?_⟩ <;>
      refine fails_of_entryError hs ha (op := .LOUT) rfl ?_ nofun <;> apply entryError_of_firstFailing
    · simp [BusOp.conjuncts, firstFailing, hce]
    · simp [BusOp.conjuncts, firstFailing, hce, hwe]
    · simp [BusOp.conjuncts, firstFailing, hce, hwe, hale]
  case ldin =>
    exact fails_of_entryError hs (requestError_none rfl rfl hp) (op := .LDIN) rfl (entryError_of_direction rfl rfl hd) nofun

/-! ## Each Bus Operation from the idle state (R98) -/

/-- What R98 says of a Bus Operation `i` from the idle state `s` that ends with the byte `d` in the data mirror. -/
def PreservesIdle (i : Instr) (s : State) (d : Byte) : Prop :=
  (∃ s₁, exec i s = .next s₁) ∧ (∃ t, RespondsAt i s t) ∧ ∀ t, RespondsAt i s t →
    t.rp = s.rp + 1 ∧ (∃ r, t.resp = some r ∧ r.report = .ok) ∧ Idle t ∧
    level t.ctrl .nWP = level s.ctrl .nWP ∧ level t.ctrl .AUX = level s.ctrl .AUX ∧ t.data = d

/-- A sequence from the idle state that leaves the control mirror and the direction, with both lines flushed, preserves it. -/
theorem preservesIdle_of_segment {i : Instr} {s s' : State} {q' : Seq} {d : Byte} (hi : Idle s) (hs : Between s)
    (ha : requestError i s = none) (h : Segment (linesOf i s) (Seq.start i) s q' s') (hr : q'.report = .ok) (hrp : s'.rp = s.rp)
    (hc : s'.ctrl = s.ctrl) (hd : s'.dir = .drive) (hpc : s'.physCtrl = some s'.ctrl) (hpd : s'.physData = some s'.data)
    (hdata : s'.data = d) : PreservesIdle i s d := by
  have hends := ends_of_segment h
  obtain ⟨s₁, hexec, -⟩ := completes_of_ends hs ha hends
  have hat := respondsAt_of_ends hs ha hends
  refine ⟨⟨s₁, hexec⟩, ⟨_, hat⟩, fun t ht => ?_⟩
  obtain rfl := ht.unique hat
  exact ⟨congrArg (· + 1) hrp, ⟨_, respond_resp .., hr⟩, hi.of_ctrl_eq (s' := respond q' q'.report s') hc hd hpc hpd,
    congrArg (level · .nWP) hc, congrArg (level · .AUX) hc, hdata⟩

/-- The data line after latched bytes holds the mirror's byte, if it did before. -/
theorem physData_latched {x : Option Byte} {d : Byte} (h : x = some d) (bytes : List Byte) :
    (if bytes = [] then x else bytes.getLast?) = some (bytes.getLastD d) := by
  cases bytes with
  | nil => exact h
  | cons b rest => simp [List.getLast?_cons]

/-- LatchAddress from the idle state, for every length, 0 included: the mirror ends as it began (R94, R98). -/
theorem idle_address_any (cfg : Config) (bytes : List Byte) (q : Seq) (s : State) (h : BusIdle s.ctrl) (hd : s.dir = .drive)
    (hpd : s.physData = some s.data) :
    Segment (latchAddress cfg bytes) q s { q with step := q.step + 6 * bytes.length + 3, k := bytes.length }
      { s with
        data := bytes.getLastD s.data, physCtrl := some s.ctrl, physData := some (bytes.getLastD s.data)
        trace := s.trace ++ addressEvents cfg s.ctrl bytes } := by
  have h1 := latchAddress_segment cfg bytes q s h.nce h.cle h.nre hd
  rwa [physData_latched hpd, h.addressCtrl_eq] at h1

/-- Settles O28: from the idle state each Bus Operation's segment gives the control mirror back and flushes what it drove. -/
theorem busOperationsPreserveIdle : Obligations.BusOperationsPreserveIdle := by
  intro s hi hs
  refine ⟨fun b => ?lcmd, fun len hp => ?laddr, fun count => ?lout, fun len hp => ?ldin⟩
  case lcmd =>
    exact preservesIdle_of_segment hi hs (requestError_none_of_no_payload rfl rfl rfl) (idle_command b _ s hi.busIdle hi.dir_eq)
      rfl rfl rfl hi.dir_eq rfl rfl rfl
  case laddr =>
    exact preservesIdle_of_segment hi hs (requestError_none rfl rfl hp)
      (idle_address_any s.cfg (memRead s 0 len.toNat) _ s hi.busIdle hi.dir_eq hi.physData_eq) rfl rfl rfl hi.dir_eq rfl rfl rfl
  case lout =>
    exact preservesIdle_of_segment hi hs (requestError_none_of_no_payload rfl rfl rfl)
      (idle_dataOut s.cfg true count.toNat _ s hi.busIdle hi.dir_eq hi.physCtrl_eq fun _ => rfl) rfl rfl rfl hi.dir_eq
      hi.physCtrl_eq hi.physData_eq rfl
  case ldin =>
    exact preservesIdle_of_segment hi hs (requestError_none rfl rfl hp)
      (idle_dataIn s.cfg (memRead s 0 len.toNat) _ s hi.busIdle hi.dir_eq hi.physCtrl_eq hi.physData_eq) rfl rfl rfl hi.dir_eq
      hi.physCtrl_eq rfl rfl

/-! ## The cycles on the lines (R53, R63) -/

/-- The lines with known levels `c` and nRE at 1. -/
def linesAt (c : Byte) (data : Option Byte) (dir : Dir) : BusView := { ctrl := some c, data := data, dir := dir, phase := .high }

/-- In the idle state every level is known. -/
theorem Idle.viewOf_eq {s : State} (h : Idle s) : viewOf s = linesAt s.ctrl (some s.data) .drive := by
  simp [viewOf, linesAt, h.physCtrl_eq, h.physData_eq, h.dir_eq, h.busIdle.nre]

/-- LatchCommand makes one command cycle (R93). -/
theorem busCycles_command {c : Byte} (h : BusIdle c) (data : Option Byte) (b : Byte) :
    busCycles (linesAt c data .drive) (commandEvents c b) = [.command (some b)] := by
  simp [commandEvents, linesAt, busCycles, eventCycles, controlCycles, latchCycles, clockCycles, BusView.after, BusView.driven,
    latchCycle, h.nwe, h.nre, h.nce, h.ale]

/-- One latched byte makes one cycle, of the kind its levels give, and leaves the levels (R94, R96). -/
theorem busCycles_latchByte {cfg : Config} {c : Byte} (hwe : level c .nWE = true)
    (hre : level c .nRE = true) (data : Option Byte) (b : Byte) :
    busCycles (linesAt c data .drive) (latchByteEvents cfg c b) = [latchCycle c (some b)] ∧
      (linesAt c data .drive).afterAll (latchByteEvents cfg c b) = linesAt c (some b) .drive := by
  have hp : pulsed c = c := by rw [pulsed, withLevel_withLevel_same, withLevel_self c .nWE hwe]
  constructor
  · simp [latchByteEvents, hp, linesAt, busCycles_append, busCycles_delay, afterAll_delay, busCycles, eventCycles,
      controlCycles, latchCycles, clockCycles, BusView.after, BusView.driven, hwe, hre]
  · simp [latchByteEvents, hp, linesAt, afterAll_append, afterAll_delay, BusView.afterAll, BusView.after, phaseAfter, hre]

/-- Latched bytes make one cycle each, in order, and leave the levels (R94, R96). -/
theorem busCycles_dataIn {cfg : Config} {c : Byte} (hwe : level c .nWE = true)
    (hre : level c .nRE = true) (bytes : List Byte) : ∀ data,
    busCycles (linesAt c data .drive) (dataInEvents cfg c bytes) = bytes.map (fun b => latchCycle c (some b)) ∧
      ∃ data', (linesAt c data .drive).afterAll (dataInEvents cfg c bytes) = linesAt c data' .drive := by
  induction bytes with
  | nil => intro data; exact ⟨rfl, data, rfl⟩
  | cons b rest ih =>
    intro data
    obtain ⟨hb, hb'⟩ := busCycles_latchByte (cfg := cfg) hwe hre data b
    obtain ⟨hr, data', hr'⟩ := ih (some b)
    simp only [dataInEvents] at hr hr'
    simp only [dataInEvents, List.flatMap_cons, busCycles_append, afterAll_append, hb, hb', hr, hr', List.map_cons,
      List.singleton_append, true_and]
    exact ⟨data', rfl⟩

/-- LatchAddress makes one address cycle for each byte: raising and dropping ALE is no edge of nWE or nRE (R94). -/
theorem busCycles_address {cfg : Config} {c : Byte} (h : BusIdle c) (data : Option Byte) (bytes : List Byte) :
    busCycles (linesAt c data .drive) (addressEvents cfg c bytes) = bytes.map fun b => .address (some b) := by
  have hwe : level (withLevel c .ALE true) .nWE = true := by simp [h.nwe]
  have hre : level (withLevel c .ALE true) .nRE = true := by simp [h.nre]
  have hup : (linesAt c data .drive).afterAll [.writeCtrl (withLevel c .ALE true)] = linesAt (withLevel c .ALE true) data .drive := by
    simp [BusView.afterAll, BusView.after, linesAt, phaseAfter, hre]
  have hkind : ∀ b, latchCycle (withLevel c .ALE true) (some b) = .address (some b) := by
    simp [latchCycle, h.nce, h.nre, h.cle]
  have hl : latchedCtrl (withLevel c .ALE true) bytes = withLevel c .ALE true := by
    unfold latchedCtrl; split
    · rfl
    · rw [pulsed, withLevel_withLevel_same, withLevel_self _ .nWE hwe]
  obtain ⟨hb, data', hb'⟩ := busCycles_dataIn (cfg := cfg) hwe hre bytes data
  simp only [addressEvents, hl, busCycles_append, afterAll_append, hup, hb, hb', hkind]
  simp [busCycles, eventCycles, controlCycles, latchCycles, clockCycles, linesAt, h.nwe, h.nre]

/-- One read byte makes a read clock and a data-out cycle, and leaves the levels (R95). -/
theorem busCycles_readByte {cfg : Config} {c : Byte} (h : BusIdle c) (data : Option Byte) (v : Byte) :
    busCycles (linesAt c data .read) (readByteEvents cfg c v) = [.readClock, .dataOut v] ∧
      (linesAt c data .read).afterAll (readByteEvents cfg c v) = linesAt c data .read := by
  constructor
  · simp [readByteEvents, h.clocked_eq, linesAt, busCycles_append, busCycles_delay, afterAll_delay, busCycles, eventCycles,
      controlCycles, latchCycles, clockCycles, BusView.after, phaseAfter, outLevels, sampleCycle,
      h.nre, h.nwe, h.nce, h.ale]
  · simp [readByteEvents, h.clocked_eq, linesAt, afterAll_append, afterAll_delay, BusView.afterAll, BusView.after, phaseAfter, h.nre]

/-- LatchRegisterOut makes a read clock and a data-out cycle for each byte, in order (R95). -/
theorem busCycles_dataOut {cfg : Config} {c : Byte} (h : BusIdle c) (data : Option Byte) (bytes : List Byte) :
    busCycles (linesAt c data .drive) (dataOutEvents cfg c bytes) = bytes.flatMap fun v => [.readClock, .dataOut v] := by
  have hloop : busCycles (linesAt c data .read) (bytes.flatMap (readByteEvents cfg c)) =
      bytes.flatMap fun v => [.readClock, .dataOut v] := by
    induction bytes with
    | nil => rfl
    | cons v rest ih =>
      obtain ⟨hv, hv'⟩ := busCycles_readByte (cfg := cfg) h data v
      rw [List.flatMap_cons, busCycles_append, hv, hv', ih, List.flatMap_cons]
  have hdir : (linesAt c data .drive).afterAll [.setDir .read] = linesAt c data .read := rfl
  rw [dataOutEvents, busCycles_append, busCycles_append, hdir, hloop]
  simp [busCycles, eventCycles]

/-- What R53 and R63 say of the events of the run of `i` from `s`. -/
def Makes (i : Instr) (s : State) (cycles : List Cycle) : Prop :=
  ∃ s₁, exec i s = .next s₁ ∧ ∃ t new, RespondsAt i s t ∧ t.trace = s.trace ++ new ∧ busCycles (viewOf s) new = cycles

/-- The cycles of a sequence are those of the events it adds. -/
theorem makes_of_segment {i : Instr} {s s' : State} {q' : Seq} {new : List Event} {cycles : List Cycle} (hs : Between s)
    (ha : requestError i s = none) (h : Segment (linesOf i s) (Seq.start i) s q' s') (ht : s'.trace = s.trace ++ new)
    (hc : busCycles (viewOf s) new = cycles) : Makes i s cycles := by
  have hends := ends_of_segment h
  obtain ⟨s₁, hexec, -⟩ := completes_of_ends hs ha hends
  exact ⟨s₁, hexec, _, new, respondsAt_of_ends hs ha hends, ht, hc⟩

/-- Settles O29: the cycles of each Bus Operation's events, on the lines as the idle state knows them. -/
theorem busCyclesFromIdle : Obligations.BusCyclesFromIdle := by
  intro s hi hs
  have h := hi.busIdle
  refine ⟨fun b => ?lcmd, fun len hp => ?laddr, fun len hp => ?ldin, fun count => ?lout⟩
  case lcmd =>
    refine makes_of_segment hs (requestError_none_of_no_payload rfl rfl rfl) (idle_command b _ s h hi.dir_eq) rfl ?_
    rw [hi.viewOf_eq, busCycles_command h]
  case laddr =>
    refine makes_of_segment hs (requestError_none rfl rfl hp)
      (idle_address_any s.cfg (memRead s 0 len.toNat) _ s h hi.dir_eq hi.physData_eq) rfl ?_
    rw [hi.viewOf_eq, busCycles_address h]
  case ldin =>
    refine makes_of_segment hs (requestError_none rfl rfl hp)
      (idle_dataIn s.cfg (memRead s 0 len.toNat) _ s h hi.dir_eq hi.physCtrl_eq hi.physData_eq) rfl ?_
    have hkind : ∀ b, latchCycle s.ctrl (some b) = .dataIn (some b) := by simp [latchCycle, h.nce, h.nre, h.cle, h.ale]
    rw [hi.viewOf_eq, (busCycles_dataIn h.nwe h.nre _ _).1]
    simp only [hkind]
  case lout =>
    refine makes_of_segment hs (requestError_none_of_no_payload rfl rfl rfl)
      (idle_dataOut s.cfg true count.toNat _ s h hi.dir_eq hi.physCtrl_eq fun _ => rfl) rfl ?_
    rw [hi.viewOf_eq, busCycles_dataOut h]

end Sys2Proof.Machine
end

section
/-! SUPPORT. Proofs of the statements about WAITRDY: its ends on a ready sample and at the safety valve, and its endless run (R99 to
R101). -/

namespace Sys2Proof.Machine

/-- A request, but READID's, whose sequence raises an error outside the bracket completes with it and the bytes written (R129). -/
theorem completes_raised {i : Instr} {s s' : State} {q' : Seq} {e : Report} {bytes : List Byte} (hs : Between s)
    (ha : requestError i s = none) (h : Raises (linesOf i s) (Seq.start i) s e q' s') (hop : q'.op = i) (hbuf : q'.buf = bytes)
    (hw : q'.wpOpen = false) (hi : i ≠ .readid) : CompletesWith i s (ended i e bytes false s') :=
  completes_of_raises hs ha h hw (respond_eq_ended hop hbuf hi).symm

/-- A request, but READID's, whose sequence raises an error inside the bracket completes with it after the restore (R129). -/
theorem completes_restored {i : Instr} {s s' : State} {q' : Seq} {e : Report} {bytes : List Byte} (hs : Between s)
    (ha : requestError i s = none) (h : Raises (linesOf i s) (Seq.start i) s e q' s') (hop : q'.op = i) (hbuf : q'.buf = bytes)
    (hw : q'.wpOpen = true) (hi : i ≠ .readid) :
    CompletesWith i s (ended i e bytes false (flushCtrl (setSignal .nWP false s'))) :=
  completes_of_restored hs ha h hw (respond_eq_ended hop hbuf hi).symm

/-- Settles O30: WAITRDY is the wait alone, which ends on its first ready sample. -/
theorem waitrdyCompletes : Obligations.WaitrdyCompletes := fun busy last s hs hw hu =>
  completes_ended hs (requestError_none_of_no_payload rfl rfl rfl) (waitWhileBusy_segment busy last _ s hu hw) rfl rfl rfl nofun

/-- Settles O31: the wait raises `Timeout` on the busy sample that reaches the safety valve. -/
theorem waitrdyTimesOut : Obligations.WaitrdyTimesOut := fun limit busy last s hs hc hu hb hr =>
  completes_raised hs (requestError_none_of_no_payload rfl rfl rfl) (waitWhileBusy_raises limit busy last _ s hc hu hb hr) rfl rfl rfl
    nofun

/-! ## The endless wait -/

/-- WAITRDY's sequencer state at its sample line, `n` samples taken (R33, R99). -/
def waiting (n : Nat) : Seq := { Seq.start .waitrdy with step := 1, polls := n }

/-- One line of a running request that goes on (R33). -/
theorem exec_line {i : Instr} {l : Line} {q q' : Seq} {s₀ s s' : State} (hop : q.op = i) (hf : q.failing = none) (h : SameRun s₀ s)
    (hl : (linesOf i s₀)[q.step]? = some l) (hr : runLine l q s = .done q' s') :
    exec i { s with seq := some q } = .next { s' with seq := some q' } := by
  rw [exec_running hop h, advance_done hf hl hr]

/-- A busy sample and its interval bring the wait back to its sample line (R99, R101). -/
theorem execTimes_two_of_busy {n : Nat} {s : State} (hopen : s.sessionOpen = true) (hc : s.cfg.pollLimit = none)
    (hb : ready (Env.sample s.env) = false) : execTimes 2 .waitrdy { s with seq := some (waiting n) } = .next
      { s with
        seq := some (waiting (n + 1)), env := Env.afterSample s.env
        trace := s.trace ++ ([.readCtrl (Env.sample s.env)] ++ delayEvents s.cfg.tPollInterval) } := by
  have hrun : SameRun s s := .start hopen
  have hpoll : runLine .poll (waiting n) s = .done { waiting n with polls := n + 1, step := 2 } (adapterRead .ctrl s) := by
    simp only [runLine, linePoll, hb, pollLimitReached, hc]; rfl
  have hsample : exec .waitrdy { s with seq := some (waiting n) } = _ := exec_line rfl rfl hrun rfl hpoll
  have hinterval : exec .waitrdy
      { adapterRead .ctrl s with seq := some { waiting n with polls := n + 1, step := 2 } } = _ :=
    exec_line (l := .pollInterval) rfl rfl (hrun.line (runLine_done_frame hpoll)) rfl rfl
  rw [execTimes_succ hsample, execTimes_succ hinterval]
  simp only [execTimes, sleep_eq, adapterRead, readEvent, List.append_assoc]
  rfl

/-- Runs of one instruction, one after the other. -/
theorem execTimes_add {i : Instr} {m : Nat} : ∀ {s t : State}, execTimes m i s = .next t → ∀ n,
    execTimes (m + n) i s = execTimes n i t := by
  induction m with
  | zero => intro s t h n; cases h; rw [Nat.zero_add]
  | succ m ih =>
    intro s t h n
    rw [Nat.succ_add]
    simp only [execTimes] at h ⊢
    split at h
    · exact ih h n
    · cases h
    · cases h

/-- The wait's loop on busy samples without a safety valve: two steps for each (R101). -/
theorem execTimes_busy (busy : List Byte) : ∀ (n : Nat) (s : State), s.sessionOpen = true → s.cfg.pollLimit = none →
    Env.upcoming busy.length s.env = busy → (∀ v ∈ busy, ready v = false) →
    execTimes (2 * busy.length) .waitrdy { s with seq := some (waiting n) } = .next
      { s with
        seq := some (waiting (n + busy.length)), env := Env.after busy.length s.env
        trace := s.trace ++ busy.flatMap (fun v => [.readCtrl v] ++ delayEvents s.cfg.tPollInterval) } := by
  induction busy with
  | nil => intro n s _ _ _ _; simp [execTimes, Env.after]
  | cons v rest ih =>
    intro n s hopen hc hu hb
    obtain ⟨hv, hrest⟩ : Env.sample s.env = v ∧ Env.upcoming rest.length (Env.afterSample s.env) = rest := by
      simpa [Env.upcoming] using hu
    have hbusy : ready (Env.sample s.env) = false := hv ▸ hb v List.mem_cons_self
    rw [List.length_cons, Nat.mul_succ, Nat.add_comm, execTimes_add (execTimes_two_of_busy hopen hc hbusy)]
    refine (ih (n + 1)
      { s with
        env := Env.afterSample s.env
        trace := s.trace ++ ([.readCtrl (Env.sample s.env)] ++ delayEvents s.cfg.tPollInterval) }
      hopen hc hrest fun x hx => hb x (List.mem_cons_of_mem _ hx)).trans ?_
    simp [hv, Env.after, Nat.add_assoc, Nat.add_comm 1]

/-- Settles O32: the first step settles, and each busy sample takes two more. -/
theorem waitrdyGoesOnWhileBusy : Obligations.WaitrdyGoesOnWhileBusy := by
  intro busy s hs hc hu hb
  have ha : requestError .waitrdy s = none := requestError_none_of_no_payload rfl rfl rfl
  have hfirst : exec .waitrdy s =
      .next { s with seq := some (waiting 0), trace := s.trace ++ delayEvents s.cfg.tBusySettle } := by
    rw [exec_start hs ha, exec_line (l := .waitStart) (i := .waitrdy) (q := Seq.start .waitrdy) rfl rfl (.start hs.1) rfl rfl, sleep_eq]
    rfl
  rw [execTimes_succ hfirst]
  refine (execTimes_busy busy 0 { s with trace := s.trace ++ delayEvents s.cfg.tBusySettle } hs.1 hc hu hb).trans ?_
  rw [Nat.zero_add]
  rfl

end Sys2Proof.Machine
end

section
/-! SUPPORT. Proofs of the statements about the chip operations: completion from the idle state, the end by `Timeout`, and the failing
checks of their first command (R92, R100, R109 to R115, R129, R146). -/

namespace Sys2Proof.Machine

/-! ## Completion from the idle state -/

/-- READID's comparison, with what it finds (R109, R127). -/
theorem compareId_segment_eq (q : Seq) (s : State) : Segment [.compareId] q s
    { q.next with
      idMatch := some (identityMatches s.cfg q.outbuf)
      report := if identityMatches s.cfg q.outbuf then .ok else .identityMismatch } s := by
  refine Segment.single ?_ rfl
  cases hm : identityMatches s.cfg q.outbuf <;> simp [runLine, lineCompareId, hm]

/-- READID's comparison is the equality of the two identifiers (R109). -/
theorem identityMatches_eq_decide (cfg : Config) (id : List Byte) : identityMatches cfg id = decide (id = cfg.expectedId.toList) :=
  Bool.beq_eq_decide_eq id cfg.expectedId.toList

/-- A `MemWrite` of bytes over a buffer that holds them leaves them. -/
theorem memWrite_zero_same (v : List Byte) : v.take 0 ++ v ++ v.drop (0 + v.length) = v := by simp

/-- READID's sequence from the idle state (R109). -/
theorem readid_segment {s : State} (h : Idle s) : ∃ q', q'.op = .readid ∧ q'.buf = Env.upcoming 5 s.env ∧
    q'.idMatch = some (decide (Env.upcoming 5 s.env = s.cfg.expectedId.toList)) ∧
    q'.report = (if decide (Env.upcoming 5 s.env = s.cfg.expectedId.toList) then .ok else .identityMismatch) ∧
    Segment (linesOf .readid s) (Seq.start .readid) s q'
      { s with
        data := 0x00, physData := some 0x00, env := Env.after 5 s.env
        trace := s.trace ++ commandEvents s.ctrl s.cfg.cmdReadId ++ addressEvents s.cfg s.ctrl [0x00] ++
          dataOutEvents s.cfg s.ctrl (Env.upcoming 5 s.env) } := by
  have e1 := idle_command s.cfg.cmdReadId (Seq.start .readid) s h.busIdle h.dir_eq
  have e2 := e1.append (idle_address s.cfg [Config.readIdAddr] (by simp) _ _ h.busIdle h.dir_eq)
  have e3 := e2.append (idle_dataOut s.cfg true Config.readIdLen _ _ h.busIdle h.dir_eq rfl fun _ => rfl)
  have e4 := e3.append (Segment.single (l := .storeOut 0) rfl rfl)
  have e5 := (e4.append (compareId_segment_eq _ _)).of_eq (b := linesOf .readid s) (by simp [linesOf, readIdLines])
  refine ⟨_, rfl, memWrite_zero_same _, ?_, ?_, e5.cast rfl ?_⟩
  · simp [identityMatches_eq_decide, Config.readIdLen]
  · simp [identityMatches_eq_decide, Config.readIdLen]
  · rw [← h.physCtrl_eq]
    rfl

/-- Settles O36: the comparison sets `id_match` and the report, and the request ends in either case. -/
theorem readidCompletes : Obligations.ReadidCompletes := by
  intro s hi hs
  obtain ⟨q', hop, hbuf, hid, hrep, hseg⟩ := readid_segment hi
  refine completes_of_segment hs (requestError_none_of_no_payload rfl rfl rfl) hseg ?_
  simp [respond, ended, hop, hbuf, hid, hrep]

/-- READPAGE's sequence from the idle state, its wait ending (R110). -/
theorem readpage_segment {s : State} (page : Field24) (v : Visit) (h : Idle s) (hw : WaitEnds s.cfg v.busy v.last)
    (hn : v.bytes.length = s.cfg.pageSize) (hu : Env.upcoming v.answers.length s.env = v.answers) :
    ∃ q', q'.op = .readpage page ∧ q'.buf = v.bytes ∧ q'.report = .ok ∧
      Segment (linesOf (.readpage page) s) (Seq.start (.readpage page)) s q'
        { s with
          data := s.cfg.cmdRead1Confirm, physData := some s.cfg.cmdRead1Confirm, env := Env.after v.answers.length s.env
          trace := s.trace ++ readPageEvents s.cfg s.ctrl page.toNat v.busy v.last v.bytes } := by
  have hlen : v.answers.length = (v.busy ++ [v.last]).length + v.bytes.length := List.length_append
  rw [hlen] at hu ⊢
  have e1 := readPage_segment true page.toNat v.busy v.last v.bytes (Seq.start (.readpage page)) s h.busIdle h.dir_eq hw hu hn
    fun _ => rfl
  have e2 := e1.append (Segment.single (l := .storeOut 0) rfl rfl)
  rw [← h.physCtrl_eq] at e2
  exact ⟨_, rfl, memWrite_zero_same _, rfl, e2⟩

/-- Settles O37: READPAGE's segment, with the bytes read in the response. -/
theorem readpageCompletes : Obligations.ReadpageCompletes := by
  intro page v s hi hs hw hn hu
  obtain ⟨q', hop, hbuf, hrep, hseg⟩ := readpage_segment page v hi hw hn hu
  exact completes_ended hs (requestError_none_of_no_payload rfl rfl rfl) hseg hop hrep hbuf nofun

/-- Settles O38: EraseBlock's segment up to its status test, which goes on or raises by bit 0. -/
theorem eraseCompletes : Obligations.EraseCompletes := by
  intro block v s hi hs hw hu
  have ha : requestError (.erase block) s = none := requestError_none_of_no_payload rfl rfl rfl
  obtain ⟨st, body⟩ := eraseBody_segment true block.toNat v (Seq.start (.erase block)) s hi.busIdle hi.dir_eq hw hu fun _ => rfl
  cases hb : v.status.getLsbD 0 with
  | false => exact completes_ended hs ha (body.append (testErase_segment block.toNat rfl hb)) rfl rfl rfl nofun
  | true => exact completes_raised hs ha (body.raises (testErase_raises block.toNat rfl hb)) rfl rfl rfl nofun

/-- Settles O39: ProgramPage's segment up to its status test, which goes on or raises by bit 0. -/
theorem programCompletes : Obligations.ProgramCompletes := by
  intro page length v s hi hs hn hp hw hu
  have ha : requestError (.program page length) s = none := requestError_program hn hp
  obtain ⟨st, body⟩ := programBody_segment true page.toNat (memRead s 0 s.cfg.pageSize) v (Seq.start (.program page length)) s
    hi.busIdle hi.dir_eq hw hu fun _ => rfl
  cases hb : v.status.getLsbD 0 with
  | false => exact completes_ended hs ha (body.append (testProgram_segment page.toNat rfl hb)) rfl rfl rfl nofun
  | true => exact completes_raised hs ha (body.raises (testProgram_raises page.toNat rfl hb)) rfl rfl rfl nofun

/-- Settles O40: the status command and one byte read, which no test follows. -/
theorem readstatusCompletes : Obligations.ReadstatusCompletes := by
  intro s hi hs
  have e1 := idle_command s.cfg.cmdReadStatus (Seq.start .readstatus) s hi.busIdle hi.dir_eq
  have e2 := e1.append (idle_dataOut s.cfg true 1 _ _ hi.busIdle hi.dir_eq rfl fun _ => rfl)
  have e3 := e2.append (Segment.single (l := .takeStatus) rfl rfl)
  have e4 := e3.append (Segment.single (l := .storeStatus) rfl rfl)
  have e5 := e4.of_eq (b := linesOf .readstatus s) (by simp [linesOf, readStatusLines])
  rw [← hi.physCtrl_eq] at e5
  exact completes_ended hs (requestError_none_of_no_payload rfl rfl rfl) e5 rfl rfl rfl nofun

/-! ## The end by `Timeout` -/

theorem Raises.cast {part : List Line} {q q' : Seq} {s s₁ s₂ : State} {e : Report} (h : Raises part q s e q' s₁) (hs : s₂ = s₁) :
    Raises part q s e q' s₂ := hs ▸ h

section
variable {s : State} {limit : ℕ+} {busy : List Byte} {last : Byte} (h : BusIdle s.ctrl) (hd : s.dir = .drive)
  (hc : s.cfg.pollLimit = some limit) (hu : Env.upcoming limit.val s.env = busy ++ [last]) (hb : ∀ v ∈ busy, ready v = false)
  (hr : ready last = false)
include h hd hc hu hb hr

/-- ReadPage whose wait reaches the safety valve (R100, R110). -/
theorem readPage_timeout (r : Bool) (page : Nat) (q : Seq) : ∃ q', q'.op = q.op ∧ q'.buf = q.buf ∧ q'.wpOpen = q.wpOpen ∧
    Raises (readPageSequence s.cfg r page) q s (.timeout limit.val) q'
      { s with
        data := s.cfg.cmdRead1Confirm, physCtrl := some s.ctrl, physData := some s.cfg.cmdRead1Confirm
        env := Env.after limit.val s.env
        trace := s.trace ++ readPageWaitEvents s.cfg s.ctrl page busy last } := by
  have e1 := idle_command s.cfg.cmdRead1First q s h hd
  have e2 := e1.append (idle_address s.cfg (toAddressCycles page 0) (toAddressCycles_ne_nil _ _) _ _ h hd)
  have e3 := e2.append (idle_command s.cfg.cmdRead1Confirm _ _ h hd)
  have e4 := (e3.raises (waitWhileBusy_raises limit busy last _ _ hc hu hb hr)).append
    (latchRegisterOut s.cfg r s.cfg.pageSize)
  refine ⟨_, ?_, ?_, ?_, (e4.of_eq (by simp [readPageSequence])).cast (by simp [readPageWaitEvents])⟩ <;> rfl

/-- EraseBlock whose wait reaches the safety valve, inside its bracket (R100, R111). -/
theorem erase_timeout (r : Bool) (block : Nat) (q : Seq) : ∃ q', q'.op = q.op ∧ q'.buf = q.buf ∧ q'.wpOpen = true ∧
    Raises (eraseLines s.cfg r block) q s (.timeout limit.val) q'
      { s with
        ctrl := withLevel s.ctrl .nWP true, data := s.cfg.cmdEraseConfirm, physCtrl := some (withLevel s.ctrl .nWP true)
        physData := some s.cfg.cmdEraseConfirm, env := Env.after limit.val s.env
        trace := s.trace ++ eraseWaitEvents s.cfg s.ctrl block busy last } := by
  have h' := h.withWP true
  have e1 := writeProtect_segment true q s
  have e2 := e1.append (idle_command s.cfg.cmdEraseFirst _ _ h' hd)
  have e3 := e2.append (idle_address s.cfg (rowBytes (block * s.cfg.pagesPerBlock)) (rowBytes_ne_nil _) _ _ h' hd)
  have e4 := e3.append (idle_command s.cfg.cmdEraseConfirm _ _ h' hd)
  have e5 := ((e4.raises (waitWhileBusy_raises limit busy last _ _ hc hu hb hr)).append (statusTail s.cfg r)).append
    [.testErase block]
  refine ⟨_, ?_, ?_, ?_, (e5.of_eq (by simp [eraseLines])).cast (by simp [eraseWaitEvents])⟩ <;> rfl

/-- ProgramPage whose wait reaches the safety valve, inside its bracket (R100, R112). -/
theorem program_timeout (r : Bool) (page : Nat) (bytes : List Byte) (q : Seq) : ∃ q', q'.op = q.op ∧ q'.buf = q.buf ∧
    q'.wpOpen = true ∧ Raises (programLines s.cfg r page bytes) q s (.timeout limit.val) q'
      { s with
        ctrl := withLevel s.ctrl .nWP true, data := s.cfg.cmdProgramConfirm, physCtrl := some (withLevel s.ctrl .nWP true)
        physData := some s.cfg.cmdProgramConfirm, env := Env.after limit.val s.env
        trace := s.trace ++ programWaitEvents s.cfg s.ctrl page bytes busy last } := by
  have h' := h.withWP true
  have e1 := writeProtect_segment true q s
  have e2 := e1.append (idle_command s.cfg.cmdProgramFirst _ _ h' hd)
  have e3 := e2.append (idle_address s.cfg (toAddressCycles page 0) (toAddressCycles_ne_nil _ _) _ _ h' hd)
  have e4 := e3.append (idle_dataIn s.cfg bytes _ _ h' hd rfl rfl)
  have e5 := e4.append (idle_command s.cfg.cmdProgramConfirm _ _ h' hd)
  have e6 := ((e5.raises (waitWhileBusy_raises limit busy last _ _ hc hu hb hr)).append (statusTail s.cfg r)).append
    [.testProgram page]
  refine ⟨_, ?_, ?_, ?_, (e6.of_eq (by simp [programLines])).cast (by simp [programWaitEvents])⟩ <;> rfl

end

/-! ## The failing checks of the first command -/

/-- R92's first failing check of LatchCommand, as R146 lists the three. -/
def CommandCheckFails (s : State) (e : Report) : Prop :=
  (level s.ctrl .nCE = true ∧ e = .protocolPrecondition .LCMD .nCE) ∨
    (level s.ctrl .nCE = false ∧ level s.ctrl .nRE = false ∧ e = .protocolPrecondition .LCMD .nRE) ∨
    (level s.ctrl .nCE = false ∧ level s.ctrl .nRE = true ∧ s.dir ≠ .drive ∧ e = .directionViolation .data)

/-- LatchCommand's checks read nCE, nRE and the direction alone, so nWP and what no line shows do not matter. -/
theorem CommandCheckFails.entryError_eq {s s' : State} {e : Report} (h : CommandCheckFails s e)
    (hce : level s'.ctrl .nCE = level s.ctrl .nCE) (hre : level s'.ctrl .nRE = level s.ctrl .nRE) (hd : s'.dir = s.dir) :
    entryError .LCMD s' = some e := by
  rcases h with ⟨hc, rfl⟩ | ⟨hc, hr, rfl⟩ | ⟨hc, hr, hdir, rfl⟩
  · exact entryError_of_firstFailing (by simp [BusOp.conjuncts, firstFailing, hce, hc])
  · exact entryError_of_firstFailing (by simp [BusOp.conjuncts, firstFailing, hce, hre, hc, hr])
  · exact entryError_of_direction (by simp [BusOp.conjuncts, firstFailing, hce, hre, hc, hr]) rfl (hd ▸ hdir)

/-- LatchCommand under a failing check raises it and does nothing (R92). -/
theorem latchCommand_raises {s : State} {e : Report} (h : entryError .LCMD s = some e) (b : Byte) (q : Seq) :
    Raises (latchCommand b) q s e q s :=
  (Raises.single (runLine_checkEntry_raised h q)).append _

/-- An erase or program under a failing check opens its bracket and raises the check's error in it (R92, R114). -/
theorem bracket_raises {s : State} {e : Report} (h : CommandCheckFails s e) (b : Byte) (rest : List Line) (q : Seq) :
    Raises ([.writeProtect true] ++ (latchCommand b ++ rest)) q s e { q with step := q.step + 1, wpOpen := true }
      { s with
        ctrl := withLevel s.ctrl .nWP true, physCtrl := some (withLevel s.ctrl .nWP true)
        trace := s.trace ++ [.writeCtrl (withLevel s.ctrl .nWP true)] } :=
  (writeProtect_segment true q s).raises
    ((latchCommand_raises (s := { s with
        ctrl := withLevel s.ctrl .nWP true, physCtrl := some (withLevel s.ctrl .nWP true)
        trace := s.trace ++ [.writeCtrl (withLevel s.ctrl .nWP true)] })
      (h.entryError_eq (by simp) (by simp) rfl) b _).append rest)

end Sys2Proof.Machine
end

section
/-! SUPPORT. Proofs of the statements about the range operations, and of the ends by `Timeout` and at a failing check that chip and range
operations share (R92, R100, R118 to R123, R129, R146). -/

namespace Sys2Proof.Machine

/-! ## Ranges element by element -/

/-- A range whose first `m` elements go well and whose element `m` raises an error raises it, and runs no later element (R123). -/
theorem range_raises {f : Nat → List Line} {m n : Nat} {q q₁ q₂ : Seq} {s s₁ s₂ : State} {e : Report} (hm : m < n)
    (h : Segment (rangeLines f 0 m) q s q₁ s₁) (h' : Raises (f m) q₁ s₁ e q₂ s₂) : Raises (rangeLines f 0 n) q s e q₂ s₂ := by
  obtain ⟨k, rfl⟩ := Nat.exists_eq_add_of_lt hm
  refine ((h.raises h').append (rangeLines f (m + 1) k)).of_eq ?_
  rw [Nat.add_assoc, rangeLines_split, Nat.zero_add, rangeLines, List.append_assoc]

/-- An erase's error is its element's (R122). -/
theorem eraseElement_raises {cfg : Config} {start i : Nat} {q q' : Seq} {s s' : State} {e : Report}
    (h : Raises (eraseLines cfg false (start + i)) { q.next with rangeI := i } s e q' s') :
    Raises (eraseElement cfg start i) q s e q' s' :=
  (Segment.single (l := .element i) rfl rfl).raises h

/-- A page read's error is its element's (R119). -/
theorem dumpElement_raises {cfg : Config} {start i : Nat} {q q' : Seq} {s s' : State} {e : Report}
    (h : Raises (readPageSequence cfg false (start + i)) { q.next with rangeI := i } s e q' s') :
    Raises (dumpElement cfg start i) q s e q' s' :=
  ((Segment.single (l := .element i) rfl rfl).raises h).append [.sinkRecord]

/-- A program's error is its element's, the record having been supplied (R120). -/
theorem programElement_raises {s₀ : State} {start i : Nat} {q q' : Seq} {s s' : State} {e : Report}
    (hk : skipRecord (sourceRecord s₀ i) = false) (ht : Env.storageAnswer s.env = true)
    (h : Raises (programLines s₀.cfg false (start + i) (sourceRecord s₀ i)) { q.next with rangeI := i }
      { s with env := Env.afterStorage s.env } e q' s') : Raises (programElement s₀ start i) q s e q' s' := by
  have htaken : Segment [.sourceRecord i] q s { q.next with rangeI := i } { s with env := Env.afterStorage s.env } :=
    Segment.single (by simp [runLine, lineSourceRecord, ht]) rfl
  exact (htaken.raises h).of_eq (by simp [programElement, hk])

/-- Skipped records take their transfers and do nothing else, from any bus state (R121). -/
theorem skipMany (s₀ : State) (start m : Nat) : ∀ (i : Nat) (q : Seq) (s : State),
    (∀ k < m, skipRecord (sourceRecord s₀ (i + k)) = true) → Env.serves m s.env →
    ∃ q', SameEnd q q' ∧ Segment (rangeLines (programElement s₀ start) i m) q s q'
      { s with env := Env.afterTransfers m s.env } := by
  induction m with
  | zero => intro i q s _ _; exact ⟨q, ⟨rfl, rfl, rfl, rfl, rfl⟩, Segment.nil q s⟩
  | succ m ih =>
    intro i q s hk ht
    obtain ⟨q₁, h₁, e₁⟩ := skipOne s₀ start i q s (hk 0 (Nat.succ_pos m)) ht.1
    obtain ⟨q₂, h₂, e₂⟩ := ih (i + 1) q₁ { s with env := Env.afterStorage s.env }
      (fun k hkm => by rw [Nat.add_assoc, Nat.add_comm 1]; exact hk (k + 1) (Nat.succ_lt_succ hkm)) ht.2
    exact ⟨q₂, h₁.trans h₂, e₁.append e₂⟩

/-- EraseBlock whose status fails raises its error with the bracket closed (R111, R115). -/
theorem erase_fails (r : Bool) (block : Nat) (v : StatusVisit) (q : Seq) (s : State) (h : BusIdle s.ctrl) (hd : s.dir = .drive)
    (hw : WaitEnds s.cfg v.busy v.last) (hu : Env.upcoming v.answers.length s.env = v.answers) (hb : r = true → q.buf = [])
    (hbad : v.status.getLsbD 0 = true) :
    ∃ q', q'.op = q.op ∧ q'.buf = (if r then [v.status] else q.buf) ∧ q'.wpOpen = false ∧
      Raises (eraseLines s.cfg r block) q s (.eraseFailed block v.status) q'
        { s with
          ctrl := withLevel s.ctrl .nWP false, data := s.cfg.cmdReadStatus, physCtrl := some (withLevel s.ctrl .nWP false)
          physData := some s.cfg.cmdReadStatus, env := Env.after v.answers.length s.env
          trace := s.trace ++ eraseEvents s.cfg s.ctrl block v.busy v.last v.status } := by
  obtain ⟨st, body⟩ := eraseBody_segment r block v q s h hd hw hu hb
  refine ⟨_, ?_, ?_, ?_, body.raises (testErase_raises block rfl hbad)⟩ <;> rfl

/-- ProgramPage whose status fails raises its error with the bracket closed (R112, R115). -/
theorem program_fails (r : Bool) (page : Nat) (bytes : List Byte) (v : StatusVisit) (q : Seq) (s : State) (h : BusIdle s.ctrl)
    (hd : s.dir = .drive) (hw : WaitEnds s.cfg v.busy v.last) (hu : Env.upcoming v.answers.length s.env = v.answers)
    (hb : r = true → q.buf = []) (hbad : v.status.getLsbD 0 = true) :
    ∃ q', q'.op = q.op ∧ q'.buf = (if r then [v.status] else q.buf) ∧ q'.wpOpen = false ∧
      Raises (programLines s.cfg r page bytes) q s (.programFailed page v.status) q'
        { s with
          ctrl := withLevel s.ctrl .nWP false, data := s.cfg.cmdReadStatus, physCtrl := some (withLevel s.ctrl .nWP false)
          physData := some s.cfg.cmdReadStatus, env := Env.after v.answers.length s.env
          trace := s.trace ++ programEvents s.cfg s.ctrl page bytes v.busy v.last v.status } := by
  obtain ⟨st, body⟩ := programBody_segment r page bytes v q s h hd hw hu hb
  refine ⟨_, ?_, ?_, ?_, body.raises (testProgram_raises page rfl hbad)⟩ <;> rfl

/-! ## What the elements of a range leave -/

theorem BusIdle.rangeCtrl {c : Byte} (h : BusIdle c) (n : Nat) : BusIdle (rangeCtrl c n) := by
  unfold Machine.rangeCtrl
  split
  · exact h
  · exact h.withWP false

/-- A line that held its mirror's byte holds it again after the elements of a range. -/
theorem some_ite_of_eq {p : Prop} [Decidable p] {x : Option Byte} {a b : Byte} (h : x = some a) :
    (if p then x else some b) = some (if p then a else b) := by
  rw [h, apply_ite some]

/-- The control line after the elements of a range (R114). -/
theorem some_rangeCtrl {x : Option Byte} {c : Byte} (h : x = some c) (n : Nat) :
    (if n = 0 then x else some (rangeCtrl c n)) = some (rangeCtrl c n) := by
  rw [h, rangeCtrl]
  split <;> rfl

/-- The state after a range of erases from the idle state, both lines flushed (R122). -/
def erased (s : State) (n answers : Nat) (ev : List Event) : State :=
  { s with
    ctrl := rangeCtrl s.ctrl n
    data := if n = 0 then s.data else s.cfg.cmdReadStatus
    physCtrl := some (rangeCtrl s.ctrl n)
    physData := some (if n = 0 then s.data else s.cfg.cmdReadStatus)
    env := Env.after answers s.env
    trace := s.trace ++ ev }

/-- Erases in order from the idle state (R122). -/
theorem eraseMany_idle {s : State} (hi : Idle s) (i : Instr) (start : Nat) (visits : List StatusVisit)
    (hv : ∀ v ∈ visits, v.Succeeds s.cfg)
    (hu : Env.upcoming (visits.flatMap StatusVisit.answers).length s.env = visits.flatMap StatusVisit.answers) :
    ∃ q', SameEnd (Seq.start i) q' ∧ Segment (rangeLines (eraseElement s.cfg start) 0 visits.length) (Seq.start i) s q'
      (erased s visits.length (visits.flatMap StatusVisit.answers).length (eraseRangeEvents s.cfg s.ctrl start visits)) := by
  obtain ⟨q', hq, hseg⟩ := eraseMany start visits 0 (Seq.start i) s rfl hi.busIdle hi.dir_eq hv hu
  rw [some_ite_of_eq hi.physData_eq, some_rangeCtrl hi.physCtrl_eq] at hseg
  exact ⟨q', hq, hseg⟩

/-- Programs in order from the idle state, for every number of records (R120, R121). -/
theorem programMany_idle {s : State} (hi : Idle s) (i : Instr) (start n : Nat) (visits : List StatusVisit) (ht : Env.serves n s.env)
    (hl : visits.length = (pagesToProgram start (sourceRecords s n)).length) (hv : ∀ v ∈ visits, v.Succeeds s.cfg)
    (hu : Env.upcoming (visits.flatMap StatusVisit.answers).length s.env = visits.flatMap StatusVisit.answers) :
    ∃ q', SameEnd (Seq.start i) q' ∧ Segment (rangeLines (programElement s start) 0 n) (Seq.start i) s q'
      { erased s visits.length (visits.flatMap StatusVisit.answers).length
          (programRangeEvents s.cfg s.ctrl ((pagesToProgram start (sourceRecords s n)).zip visits)) with
        env := Env.afterTransfers n (Env.after (visits.flatMap StatusVisit.answers).length s.env) } := by
  have hrange : (List.range' 0 n).map (sourceRecord s) = sourceRecords s n := by rw [sourceRecords, List.range_eq_range']
  obtain ⟨q', hq, hseg⟩ := programMany s start n 0 visits (Seq.start i) s rfl rfl hi.busIdle hi.dir_eq ht (by rwa [hrange]) hv hu
  rw [hrange, progged, some_ite_of_eq hi.physData_eq, some_rangeCtrl hi.physCtrl_eq, ← afterTransfers_after] at hseg
  exact ⟨q', hq, hseg⟩

/-- Page reads in order from the idle state, every record delivered (R119). -/
theorem dumpMany_idle {s : State} (hi : Idle s) (i : Instr) (start : Nat) (visits : List Visit) (ht : Env.serves visits.length s.env)
    (hv : ∀ v ∈ visits, WaitEnds s.cfg v.busy v.last ∧ v.bytes.length = s.cfg.pageSize)
    (hu : Env.upcoming (visits.flatMap Visit.answers).length s.env = visits.flatMap Visit.answers) :
    ∃ q', q'.buf = visits.flatMap Visit.bytes ∧ SameBut (Seq.start i) q' ∧
      Segment (rangeLines (dumpElement s.cfg start) 0 visits.length) (Seq.start i) s q'
      { s with
        data := if visits.length = 0 then s.data else s.cfg.cmdRead1Confirm
        physData := if visits.length = 0 then s.physData else some s.cfg.cmdRead1Confirm
        env := Env.afterTransfers visits.length (Env.after (visits.flatMap Visit.answers).length s.env)
        trace := s.trace ++ dumpEvents s.cfg s.ctrl start visits
        sink := s.sink ++ dumpRecords 0 visits } := by
  obtain ⟨q', hbuf, hq, hseg⟩ := dumpMany start visits 0 (Seq.start i) s rfl (Nat.zero_mul _).symm hi.busIdle hi.dir_eq ht hv hu
  rw [dumped, ← hi.physCtrl_eq, ite_self, ← afterTransfers_after] at hseg
  exact ⟨q', hbuf, hq, hseg⟩

/-! ## Completion -/

/-- Settles O45: one element after the other, each read delivered. -/
theorem dumpCompletes : Obligations.DumpCompletes := by
  intro start count visits s hi hs hn hv hu ht
  rw [← hn] at ht
  obtain ⟨q', hbuf, hq, hseg⟩ := dumpMany_idle hi (.dump start count) start.toNat visits ht hv hu
  rw [hn] at hseg
  exact completes_ended hs (requestError_none_of_no_payload rfl rfl rfl) hseg hq.op hq.report hbuf nofun

/-- Settles O46: one element after the other, a skipped record taking its transfer alone. -/
theorem programrangeCompletes : Obligations.ProgramrangeCompletes := by
  intro start count visits s hi hs hp ht pages hl hv hu
  obtain ⟨q', hq, hseg⟩ := programMany_idle hi (.programrange start count) start.toNat count.toNat visits ht hl hv hu
  exact completes_ended hs (requestError_none rfl rfl hp) hseg hq.op hq.report hq.buf nofun

/-- Settles O47: one element after the other, each in its own bracket. -/
theorem eraserangeCompletes : Obligations.EraserangeCompletes := by
  intro start count visits s hi hs hn hv hu
  obtain ⟨q', hq, hseg⟩ := eraseMany_idle hi (.eraserange start count) start.toNat visits hv hu
  rw [hn] at hseg
  exact completes_ended hs (requestError_none_of_no_payload rfl rfl rfl) hseg hq.op hq.report hq.buf nofun

end Sys2Proof.Machine
end

section
/-! SUPPORT. Proofs of the statements about ranges and chip operations that end early: a status that fails, a record that is not served,
`Timeout`, and a failing check (R92, R100, R114, R119, R120, R122, R123, R129, R146). -/

namespace Sys2Proof.Machine

/-! ## A failing element -/

/-- A part that, from `s` and any sequencer state with the bracket closed, raises `e` at `s'` with the bracket `w`, and writes nothing
to the response. -/
def ElementRaises (part : List Line) (s : State) (e : Report) (w : Bool) (s' : State) : Prop :=
  ∀ q : Seq, q.wpOpen = false → ∃ q', q'.op = q.op ∧ q'.buf = q.buf ∧ q'.wpOpen = w ∧ Raises part q s e q' s'

/-- A sequence that, from the start of `i`, raises `e` at `s'` with the bracket `w` and the bytes written. -/
def SequenceRaises (i : Instr) (s : State) (e : Report) (bytes : List Byte) (w : Bool) (s' : State) : Prop :=
  ∃ q', q'.op = i ∧ q'.buf = bytes ∧ q'.wpOpen = w ∧ Raises (linesOf i s) (Seq.start i) s e q' s'

theorem ElementRaises.sequence {i : Instr} {s s' : State} {e : Report} {w : Bool} (h : ElementRaises (linesOf i s) s e w s') :
    SequenceRaises i s e [] w s' := h (Seq.start i) rfl

/-- A part that leaves the bracket as it finds it raises its error outside it. -/
theorem ElementRaises.of_kept {part : List Line} {s s' : State} {e : Report}
    (h : ∀ q, ∃ q', q'.op = q.op ∧ q'.buf = q.buf ∧ q'.wpOpen = q.wpOpen ∧ Raises part q s e q' s') :
    ElementRaises part s e false s' := by
  intro q hq
  obtain ⟨q', hop, hbuf, hw, hraise⟩ := h q
  exact ⟨q', hop, hbuf, hw.trans hq, hraise⟩

/-- Lines after the raise do not run. -/
theorem ElementRaises.append {part : List Line} {s s' : State} {e : Report} {w : Bool} (h : ElementRaises part s e w s')
    (rest : List Line) : ElementRaises (part ++ rest) s e w s' := fun q hq =>
  (h q hq).imp fun _ ⟨hop, hbuf, hw, hraise⟩ => ⟨hop, hbuf, hw, hraise.append rest⟩

/-- A sequence that raises an error outside the bracket completes with it (R129). -/
theorem SequenceRaises.completes {i : Instr} {s s' t : State} {e : Report} {bytes : List Byte}
    (h : SequenceRaises i s e bytes false s') (hs : Between s) (ha : requestError i s = none) (hi : i ≠ .readid)
    (ht : t = s') : CompletesWith i s (ended i e bytes false t) := by
  obtain ⟨q', hop, hbuf, hw, hraise⟩ := h
  exact ht ▸ completes_raised hs ha hraise hop hbuf hw hi

/-- A sequence that raises an error inside the bracket completes with it after the restore (R129). -/
theorem SequenceRaises.completes_restored {i : Instr} {s s' t : State} {e : Report} {bytes : List Byte}
    (h : SequenceRaises i s e bytes true s') (hs : Between s) (ha : requestError i s = none) (hi : i ≠ .readid)
    (ht : t = flushCtrl (setSignal .nWP false s')) : CompletesWith i s (ended i e bytes false t) := by
  obtain ⟨q', hop, hbuf, hw, hraise⟩ := h
  exact ht ▸ Machine.completes_restored hs ha hraise hop hbuf hw hi

/-- Record transfers leave the coming adapter reads' answers. -/
theorem upcoming_afterTransfers (n m : Nat) : ∀ e : Env, Env.upcoming n (Env.afterTransfers m e) = Env.upcoming n e := by
  induction m with
  | zero => intro e; rfl
  | succ m ih => intro e; rw [Env.afterTransfers, ih, upcoming_afterStorage]

/-- Answers listed in two parts, the second by its number, are the answers of the two parts in turn. -/
theorem upcoming_split_add {a b : List Byte} {n : Nat} {e : Env} (h : Env.upcoming (a.length + n) e = a ++ b) :
    Env.upcoming a.length e = a ∧ Env.upcoming n (Env.after a.length e) = b := by
  rw [upcoming_add] at h
  exact List.append_inj h (upcoming_length _ _)

/-- ERASERANGE whose element `good.length` raises an error, the elements before it having succeeded (R122, R123). -/
theorem eraserange_raises {s s' : State} (hi : Idle s) (start count : Field24) (good : List StatusVisit)
    (hlt : good.length < count.toNat) (hv : ∀ v ∈ good, v.Succeeds s.cfg)
    (hu : Env.upcoming (good.flatMap StatusVisit.answers).length s.env = good.flatMap StatusVisit.answers) {e : Report} {w : Bool}
    (h : ElementRaises (eraseLines s.cfg false (start.toNat + good.length))
      (erased s good.length (good.flatMap StatusVisit.answers).length (eraseRangeEvents s.cfg s.ctrl start.toNat good)) e w s') :
    SequenceRaises (.eraserange start count) s e [] w s' := by
  obtain ⟨q₁, hq₁, hseg⟩ := eraseMany_idle hi (.eraserange start count) start.toNat good hv hu
  obtain ⟨q₂, hop, hbuf, hw, hraise⟩ := h { q₁.next with rangeI := good.length } hq₁.wpOpen
  exact ⟨q₂, hop.trans hq₁.op, hbuf.trans hq₁.buf, hw, range_raises hlt hseg (eraseElement_raises hraise)⟩

/-- The state in which the pages of PROGRAMRANGE's first `m` records have been programmed and `k` records taken (R120). -/
def programmed (s : State) (start m k : Nat) (good : List StatusVisit) : State :=
  { erased s good.length (good.flatMap StatusVisit.answers).length
      (programRangeEvents s.cfg s.ctrl ((pagesToProgram start (sourceRecords s m)).zip good)) with
    env := Env.afterTransfers k (Env.after (good.flatMap StatusVisit.answers).length s.env) }

/-- PROGRAMRANGE whose program of record `m` raises an error, the programs before it having succeeded (R120, R123). -/
theorem programrange_raises {s s' : State} (hi : Idle s) (start count : Field24) (m : Nat) (good : List StatusVisit)
    (hlt : m < count.toNat) (ht : Env.serves (m + 1) s.env) (hk : skipRecord (sourceRecord s m) = false)
    (hl : good.length = (pagesToProgram start.toNat (sourceRecords s m)).length) (hv : ∀ v ∈ good, v.Succeeds s.cfg)
    (hu : Env.upcoming (good.flatMap StatusVisit.answers).length s.env = good.flatMap StatusVisit.answers) {e : Report} {w : Bool}
    (h : ElementRaises (programLines s.cfg false (start.toNat + m) (sourceRecord s m)) (programmed s start.toNat m (m + 1) good) e w s') :
    SequenceRaises (.programrange start count) s e [] w s' := by
  obtain ⟨hserved, hrecord⟩ := (serves_add m 1 s.env).1 ht
  obtain ⟨q₁, hq₁, hseg⟩ := programMany_idle hi (.programrange start count) start.toNat m good hserved hl hv hu
  obtain ⟨q₂, hop, hbuf, hw, hraise⟩ := h { q₁.next with rangeI := m } hq₁.wpOpen
  simp only [programmed, Env.afterTransfers, afterTransfers_comm] at hraise
  refine ⟨q₂, hop.trans hq₁.op, hbuf.trans hq₁.buf, hw, range_raises hlt hseg (programElement_raises hk ?_ hraise)⟩
  simpa only [afterTransfers_after, answer_after] using hrecord.1

/-! ## A status that fails (R123) -/

/-- Settles O48: the failing element raises its error with the bracket closed, and no later element runs. -/
theorem rangeAbortsAtTheFirstFailure : Obligations.RangeAbortsAtTheFirstFailure := by
  intro s hi hs
  refine ⟨?erase, ?program⟩
  case erase =>
    intro start count good bad hlt hv hw hbad answers hu
    have hsplit : answers = good.flatMap StatusVisit.answers ++ bad.answers := by simp [answers]
    rw [hsplit, List.length_append] at hu ⊢
    obtain ⟨hgood, hlast⟩ := upcoming_split hu
    refine (eraserange_raises hi start count good hlt hv hgood fun q _ =>
      erase_fails false (start.toNat + good.length) bad q (erased s _ _ _) (hi.busIdle.rangeCtrl _) hi.dir_eq hw hlast
        nofun hbad).completes hs (requestError_none_of_no_payload rfl rfl rfl) nofun ?_
    simp [erased, withLevel_rangeCtrl, after_add, eraseRangeEvents_append, eraseRangeEvents, eraseEvents_rangeCtrl]
  case program =>
    intro start count m good bad hlt hp ht hk before hl hv hw hbad answers hu
    have hsplit : answers = good.flatMap StatusVisit.answers ++ bad.answers := by simp [answers]
    rw [hsplit, List.length_append] at hu ⊢
    obtain ⟨hgood, hlast⟩ := upcoming_split hu
    refine (programrange_raises hi start count m good hlt ht hk hl hv hgood fun q _ =>
      program_fails false (start.toNat + m) (sourceRecord s m) bad q (programmed s start.toNat m (m + 1) good)
        (hi.busIdle.rangeCtrl _) hi.dir_eq hw ((upcoming_afterTransfers _ _ _).trans hlast) nofun hbad).completes hs (requestError_none rfl rfl hp) nofun ?_
    simp [programmed, erased, withLevel_rangeCtrl, after_add, afterTransfers_after, List.zip_append hl.symm,
      programRangeEvents_append, programRangeEvents, programEvents_wp, before]

/-! ## A record that is not served (R119, R120) -/

/-- The bytes of page reads of one length. -/
theorem length_flatMap_bytes {n : Nat} (visits : List Visit) (h : ∀ v ∈ visits, v.bytes.length = n) :
    (visits.flatMap Visit.bytes).length = visits.length * n := by
  rw [List.length_flatMap, List.map_congr_left h, List.map_const', List.sum_replicate_nat]

/-- The state in which the pages `visits` have been read and delivered by DUMP (R119). -/
def delivered (s : State) (start : Nat) (visits : List Visit) : State :=
  { s with
    data := if visits.length = 0 then s.data else s.cfg.cmdRead1Confirm
    physData := if visits.length = 0 then s.physData else some s.cfg.cmdRead1Confirm
    env := Env.afterTransfers visits.length (Env.after (visits.flatMap Visit.answers).length s.env)
    trace := s.trace ++ dumpEvents s.cfg s.ctrl start visits
    sink := s.sink ++ dumpRecords 0 visits }

/-- A sink that fails a record raises `StorageIO` after the page is in the response (R119; entry 4). -/
theorem sinkRecord_raises {q : Seq} {s : State} {m : Nat} (hm : q.rangeI = m) (h : Env.storageAnswer s.env = false) :
    Raises [.sinkRecord] q s (.storageIO m) (memWrite (m * s.cfg.pageSize) q.outbuf q) { s with env := Env.afterStorage s.env } :=
  .single (by simp [runLine, lineSinkRecord, h, hm])

/-- A source that fails a record raises `StorageIO` where the record is taken (R120; entry 4). -/
theorem sourceRecord_raises {s : State} (m : Nat) (q : Seq) (h : Env.storageAnswer s.env = false) :
    Raises [.sourceRecord m] q s (.storageIO m) { q with rangeI := m } { s with env := Env.afterStorage s.env } :=
  .single (by simp [runLine, lineSourceRecord, h])

/-- DUMP whose sink fails the record after the pages `visits`, of the page read with `v` (R119; entry 4). -/
theorem dump_storage_raises {s : State} (hi : Idle s) (start count : Field24) (visits : List Visit) (v : Visit)
    (hlt : visits.length < count.toNat)
    (hv : ∀ u ∈ visits ++ [v], WaitEnds s.cfg u.busy u.last ∧ u.bytes.length = s.cfg.pageSize)
    (hu : Env.upcoming ((visits ++ [v]).flatMap Visit.answers).length s.env = (visits ++ [v]).flatMap Visit.answers)
    (ht : Env.serves visits.length s.env) (hf : Env.storageAnswer (Env.afterTransfers visits.length s.env) = false) :
    SequenceRaises (.dump start count) s (.storageIO visits.length) ((visits ++ [v]).flatMap Visit.bytes) false
      { s with
        data := s.cfg.cmdRead1Confirm, physData := some s.cfg.cmdRead1Confirm
        env := Env.afterTransfers (visits.length + 1) (Env.after ((visits ++ [v]).flatMap Visit.answers).length s.env)
        trace := s.trace ++ dumpEvents s.cfg s.ctrl start.toNat (visits ++ [v])
        sink := s.sink ++ dumpRecords 0 visits } := by
  have hsplit : (visits ++ [v]).flatMap Visit.answers = visits.flatMap Visit.answers ++ v.answers := by simp
  rw [hsplit, List.length_append] at hu ⊢
  obtain ⟨hgood, hlast⟩ := upcoming_split hu
  obtain ⟨hwait, hlen⟩ := hv v (by simp)
  have hv' : ∀ u ∈ visits, WaitEnds s.cfg u.busy u.last ∧ u.bytes.length = s.cfg.pageSize := fun u hu => hv u (by simp [hu])
  obtain ⟨q₁, hbuf₁, hq₁, hseg⟩ := dumpMany_idle hi (.dump start count) start.toNat visits ht hv' hgood
  obtain ⟨q₂, hout, hindex, hbuf₂, hq₂, hread⟩ := readOne start.toNat visits.length v q₁ (delivered s start.toNat visits)
    hi.busIdle hi.dir_eq hwait hlen ((upcoming_afterTransfers _ _ _).trans hlast)
  have hraise := (hread.raises (sinkRecord_raises hindex (by
    simpa [delivered, answer_after, afterTransfers_after] using hf))).of_eq (b := dumpElement s.cfg start.toNat visits.length)
      (by simp [dumpElement, delivered])
  refine ⟨_, ?_, ?_, ?_, (range_raises hlt hseg hraise).cast ?_⟩
  · exact hq₂.op.trans hq₁.op
  · rw [hout]
    refine (memWrite_end _ _ _ _ hbuf₂ ?_).trans (by simp [hbuf₁])
    rw [hbuf₁, length_flatMap_bytes visits fun u hu => (hv' u hu).2]
    rfl
  · exact hq₂.wpOpen.trans hq₁.wpOpen
  · simp [delivered, ← hi.physCtrl_eq, after_add, Env.afterTransfers, afterTransfers_comm, afterTransfers_after, afterStorage_after,
      dumpEvents_append, dumpEvents]

/-- PROGRAMRANGE whose source fails record `m`, the programs before it having succeeded (R120; entry 4). -/
theorem programrange_storage_raises {s : State} (hi : Idle s) (start count : Field24) (m : Nat) (good : List StatusVisit)
    (hlt : m < count.toNat) (ht : Env.serves m s.env) (hf : Env.storageAnswer (Env.afterTransfers m s.env) = false)
    (hl : good.length = (pagesToProgram start.toNat (sourceRecords s m)).length) (hv : ∀ v ∈ good, v.Succeeds s.cfg)
    (hu : Env.upcoming (good.flatMap StatusVisit.answers).length s.env = good.flatMap StatusVisit.answers) :
    SequenceRaises (.programrange start count) s (.storageIO m) [] false (programmed s start.toNat m (m + 1) good) := by
  obtain ⟨q₁, hq₁, hseg⟩ := programMany_idle hi (.programrange start count) start.toNat m good ht hl hv hu
  have hraise := (sourceRecord_raises (s := programmed s start.toNat m m good) m q₁
    (by rw [programmed, afterTransfers_after, answer_after, hf])).append
    (if skipRecord (sourceRecord s m) then [] else programLines s.cfg false (start.toNat + m) (sourceRecord s m))
  refine ⟨{ q₁ with rangeI := m }, hq₁.op, hq₁.buf, hq₁.wpOpen,
    (range_raises (f := programElement s start.toNat) hlt hseg hraise).cast ?_⟩
  simp [programmed, Env.afterTransfers, afterTransfers_comm]

/-- Settles O49: the sink fails its record after the page is in the response, the source where the record is taken. -/
theorem storageFailureEndsARange : Obligations.StorageFailureEndsARange := by
  intro s hi hs
  refine ⟨?dump, ?program⟩
  case dump =>
    intro start count m visits hlt hn hv hu ht hf
    obtain ⟨init, v, rfl⟩ : ∃ init v, visits = init ++ [v] :=
      ⟨_, _, (List.dropLast_append_getLast (List.ne_nil_of_length_eq_add_one hn)).symm⟩
    obtain rfl : init.length = m := by simpa using hn
    refine (dump_storage_raises hi start count init v hlt hv hu ht hf).completes hs
      (requestError_none_of_no_payload rfl rfl rfl) nofun ?_
    rw [List.take_left]
  case program =>
    intro start count m good hlt hp ht hf before hl hv hu
    exact (programrange_storage_raises hi start count m good hlt ht hf hl hv hu).completes hs (requestError_none rfl rfl hp) nofun rfl

/-! ## The end by `Timeout` (R100, R114, R129) -/

/-- DUMP whose page read after the pages `visits` raises an error, these having been delivered (R119, R123). -/
theorem dump_raises {s s' : State} (hi : Idle s) (start count : Field24) (visits : List Visit) (hlt : visits.length < count.toNat)
    (hv : ∀ v ∈ visits, WaitEnds s.cfg v.busy v.last ∧ v.bytes.length = s.cfg.pageSize) (ht : Env.serves visits.length s.env)
    (hu : Env.upcoming (visits.flatMap Visit.answers).length s.env = visits.flatMap Visit.answers) {e : Report} {w : Bool}
    (h : ElementRaises (readPageSequence s.cfg false (start.toNat + visits.length)) (delivered s start.toNat visits) e w s') :
    SequenceRaises (.dump start count) s e (visits.flatMap Visit.bytes) w s' := by
  obtain ⟨q₁, hbuf₁, hq₁, hseg⟩ := dumpMany_idle hi (.dump start count) start.toNat visits ht hv hu
  obtain ⟨q₂, hop, hbuf, hw, hraise⟩ := h { q₁.next with rangeI := visits.length } hq₁.wpOpen
  exact ⟨q₂, hop.trans hq₁.op, hbuf.trans hbuf₁, hw, range_raises hlt hseg (dumpElement_raises hraise)⟩

/-- Settles O41: the wait raises `Timeout` in whatever element it stands, and the request ends there, after the restore when the
bracket is open. -/
theorem timeoutRestoresWriteProtect : Obligations.TimeoutRestoresWriteProtect := by
  intro limit busy last s hi hs hc hb hr answersAre wp
  have alone (h : answersAre []) : Env.upcoming limit.val s.env = busy ++ [last] := by simpa [answersAre] using h
  refine ⟨?readpage, ?erase, ?program, ?dump, ?eraserange, ?programrange⟩
  case readpage =>
    intro page hu
    refine (((ElementRaises.of_kept fun q => readPage_timeout hi.busIdle hi.dir_eq hc (alone hu) hb hr true page.toNat q).append
      [.storeOut 0]).sequence (i := .readpage page)).completes hs (requestError_none_of_no_payload rfl rfl rfl) nofun ?_
    simp [← hi.physCtrl_eq]
  case erase =>
    intro block hu
    refine (ElementRaises.sequence (i := .erase block) fun q _ => erase_timeout hi.busIdle hi.dir_eq hc (alone hu) hb hr true
      block.toNat q).completes_restored hs (requestError_none_of_no_payload rfl rfl rfl) nofun ?_
    simp [flushCtrl, setSignal, wp]
  case program =>
    intro page length hn hp hu
    refine (ElementRaises.sequence (i := .program page length) fun q _ => program_timeout hi.busIdle hi.dir_eq hc (alone hu) hb hr true
      page.toNat (memRead s 0 s.cfg.pageSize) q).completes_restored hs (requestError_program hn hp) nofun ?_
    simp [flushCtrl, setSignal, wp]
  case dump =>
    intro start count visits hlt hv ht hu
    obtain ⟨hgood, hlast⟩ := upcoming_split_add hu
    refine (dump_raises hi start count visits hlt hv ht hgood <| .of_kept fun q => readPage_timeout
      (s := delivered s start.toNat visits) hi.busIdle hi.dir_eq hc ((upcoming_afterTransfers _ _ _).trans hlast) hb hr false
      (start.toNat + visits.length) q).completes hs (requestError_none_of_no_payload rfl rfl rfl) nofun ?_
    simp [delivered, ← hi.physCtrl_eq, after_add, afterTransfers_after]
  case eraserange =>
    intro start count good hlt hv hu
    obtain ⟨hgood, hlast⟩ := upcoming_split_add hu
    refine (eraserange_raises hi start count good hlt hv hgood fun q _ => erase_timeout (s := erased s _ _ _) (hi.busIdle.rangeCtrl _)
      hi.dir_eq hc hlast hb hr false (start.toNat + good.length) q).completes_restored hs
      (requestError_none_of_no_payload rfl rfl rfl) nofun ?_
    simp [erased, flushCtrl, setSignal, wp, withLevel_rangeCtrl, eraseWaitEvents, after_add]
  case programrange =>
    intro start count m good hlt hp ht hk before hl hv hu
    obtain ⟨hgood, hlast⟩ := upcoming_split_add hu
    refine (programrange_raises hi start count m good hlt ht hk hl hv hgood fun q _ => program_timeout
      (s := programmed s start.toNat m (m + 1) good) (hi.busIdle.rangeCtrl _) hi.dir_eq hc
      ((upcoming_afterTransfers _ _ _).trans hlast) hb hr false (start.toNat + m) (sourceRecord s m) q).completes_restored hs
      (requestError_none rfl rfl hp) nofun ?_
    simp [programmed, erased, flushCtrl, setSignal, wp, withLevel_rangeCtrl, programWaitEvents, after_add, afterTransfers_after, before]

/-! ## The failing checks of the first command (R92, R114, R146) -/

/-- A sequence of whatever operation that raises an error outside the bracket completes with it; READID's `id_match` is then open
(R129; entry 22). -/
theorem SequenceRaises.completes_idMatch {i : Instr} {s s' : State} {e : Report} {bytes : List Byte}
    (h : SequenceRaises i s e bytes false s') (hs : Between s) (ha : requestError i s = none) :
    ∃ b, (i ≠ .readid → b = false) ∧ CompletesWith i s (ended i e bytes b s') := by
  by_cases hi : i = .readid
  · obtain ⟨q', rfl, rfl, hw, hraise⟩ := h
    exact ⟨responseIdMatch q'.op.opcode s'.rp q'.idMatch, fun hne => absurd hi hne, completes_of_raises hs ha hraise hw rfl⟩
  · exact ⟨false, fun _ => rfl, h.completes hs ha hi rfl⟩

/-- A part that begins with a command, under a failing check of the command (R92). -/
theorem CommandCheckFails.command {s : State} {e : Report} (h : CommandCheckFails s e) (b : Byte) (rest : List Line) :
    ElementRaises (latchCommand b ++ rest) s e false s :=
  .of_kept fun q => ⟨q, rfl, rfl, rfl, (latchCommand_raises (h.entryError_eq rfl rfl rfl) b q).append rest⟩

/-- The state after nWP has been set to 1, the first line of an erase or program (R114). -/
def unprotected (s : State) : State := flushCtrl (setSignal .nWP true s)

/-- An erase or program under a failing check of its first command (R92, R114). -/
theorem CommandCheckFails.bracket {s : State} {e : Report} (h : CommandCheckFails s e) (b : Byte) (rest : List Line) :
    ElementRaises ([.writeProtect true] ++ (latchCommand b ++ rest)) s e true (unprotected s) :=
  fun q _ => ⟨{ q with step := q.step + 1, wpOpen := true }, rfl, rfl, rfl, bracket_raises h b rest q⟩

theorem CommandCheckFails.erase {s : State} {e : Report} (h : CommandCheckFails s e) (r : Bool) (block : Nat) :
    ElementRaises (eraseLines s.cfg r block) s e true (unprotected s) := by
  simpa only [eraseLines, List.append_assoc] using h.bracket s.cfg.cmdEraseFirst _

theorem CommandCheckFails.program {s : State} {e : Report} (h : CommandCheckFails s e) (r : Bool) (page : Nat) (bytes : List Byte) :
    ElementRaises (programLines s.cfg r page bytes) s e true (unprotected s) := by
  simpa only [programLines, List.append_assoc] using h.bracket s.cfg.cmdProgramFirst _

theorem CommandCheckFails.readPage {s : State} {e : Report} (h : CommandCheckFails s e) (r : Bool) (page : Nat) :
    ElementRaises (readPageSequence s.cfg r page) s e false s := by
  simpa only [readPageSequence, List.append_assoc] using h.command s.cfg.cmdRead1First _

/-- A range whose first element raises an error raises it (R123). -/
theorem ElementRaises.range {f : Nat → List Line} {n : Nat} {s s' : State} {e : Report} {w : Bool} (h : ElementRaises (f 0) s e w s')
    (hn : 0 < n) : ElementRaises (rangeLines f 0 n) s e w s' := fun q hq =>
  (h q hq).imp fun _ ⟨hop, hbuf, hw, hraise⟩ => ⟨hop, hbuf, hw, range_raises hn (Segment.nil q s) hraise⟩

/-- PROGRAMRANGE under a failing check of its first command: the records up to the first that is not skipped are taken, and the
program of this one raises the error (R92, R120, R121). -/
theorem CommandCheckFails.programrange {s : State} {e : Report} (h : CommandCheckFails s e) (start count : Field24) (m : Nat)
    (hlt : m < count.toNat) (ht : Env.serves (m + 1) s.env) (hskip : ∀ k < m, skipRecord (sourceRecord s k) = true)
    (hk : skipRecord (sourceRecord s m) = false) :
    SequenceRaises (.programrange start count) s e [] true (unprotected { s with env := Env.afterTransfers (m + 1) s.env }) := by
  obtain ⟨hserved, hrecord⟩ := (serves_add m 1 s.env).1 ht
  obtain ⟨q₁, hq₁, hseg⟩ := skipMany s start.toNat m 0 (Seq.start (.programrange start count)) s
    (fun k hkm => by rw [Nat.zero_add]; exact hskip k hkm) hserved
  have hc : CommandCheckFails { s with env := Env.afterTransfers (m + 1) s.env } e := h
  obtain ⟨q₂, hop, hbuf, hw, hraise⟩ := hc.program false (start.toNat + m) (sourceRecord s m) { q₁.next with rangeI := m } hq₁.wpOpen
  have hanswer : Env.storageAnswer (Env.afterTransfers m s.env) = true := hrecord.1
  simp only [Env.afterTransfers, afterTransfers_comm] at hraise ⊢
  exact ⟨q₂, hop.trans hq₁.op, hbuf.trans hq₁.buf, hw, range_raises (f := programElement s start.toNat) hlt hseg
    (programElement_raises hk hanswer hraise)⟩

/-- Settles O42: every chip operation begins with a command, in ERASE and PROGRAM after the write protect is taken off. -/
theorem chipOperationsFailFastOutsideTheirChecks : Obligations.ChipOperationsFailFastOutsideTheirChecks := by
  intro s e hs hcheck
  have hc : CommandCheckFails s e := hcheck
  refine ⟨?reads, ?writes, ?programrange⟩
  case reads =>
    rintro i (rfl | ⟨page, rfl⟩ | rfl | ⟨start, count, rfl, hn⟩)
    · have hraise : ElementRaises (readIdLines s.cfg) s e false s := by
        simpa only [readIdLines, List.append_assoc] using hc.command s.cfg.cmdReadId _
      exact (hraise.sequence (i := .readid)).completes_idMatch hs (requestError_none_of_no_payload rfl rfl rfl)
    · exact (((hc.readPage true page.toNat).append [.storeOut 0]).sequence (i := .readpage page)).completes_idMatch hs
        (requestError_none_of_no_payload rfl rfl rfl)
    · have hraise : ElementRaises (readStatusLines s.cfg) s e false s := by
        simpa only [readStatusLines, List.append_assoc] using hc.command s.cfg.cmdReadStatus _
      exact (hraise.sequence (i := .readstatus)).completes_idMatch hs (requestError_none_of_no_payload rfl rfl rfl)
    · have hraise : ElementRaises (dumpElement s.cfg start.toNat 0) s e false s := fun q hq =>
        (hc.readPage false (start.toNat + 0) { q.next with rangeI := 0 } hq).imp fun _ ⟨hop, hbuf, hw, h⟩ =>
          ⟨hop, hbuf, hw, dumpElement_raises h⟩
      exact ((hraise.range hn).sequence (i := .dump start count)).completes_idMatch hs (requestError_none_of_no_payload rfl rfl rfl)
  case writes =>
    have hend : flushCtrl (setSignal .nWP false (unprotected s)) =
        { s with
          ctrl := withLevel s.ctrl .nWP false, physCtrl := some (withLevel s.ctrl .nWP false)
          trace := s.trace ++ [.writeCtrl (withLevel s.ctrl .nWP true), .writeCtrl (withLevel s.ctrl .nWP false)] } := by
      simp [unprotected, flushCtrl, setSignal]
    rintro i (⟨block, rfl⟩ | ⟨page, length, rfl, hn, hp⟩ | ⟨start, count, rfl, hn⟩)
    · exact ((hc.erase true block.toNat).sequence (i := .erase block)).completes_restored hs
        (requestError_none_of_no_payload rfl rfl rfl) nofun hend.symm
    · exact ((hc.program true page.toNat (memRead s 0 s.cfg.pageSize)).sequence (i := .program page length)).completes_restored hs
        (requestError_program hn hp) nofun hend.symm
    · have hraise : ElementRaises (eraseElement s.cfg start.toNat 0) s e true (unprotected s) := fun q hq =>
        (hc.erase false (start.toNat + 0) { q.next with rangeI := 0 } hq).imp fun _ ⟨hop, hbuf, hw, h⟩ =>
          ⟨hop, hbuf, hw, eraseElement_raises h⟩
      exact ((hraise.range hn).sequence (i := .eraserange start count)).completes_restored hs
        (requestError_none_of_no_payload rfl rfl rfl) nofun hend.symm
  case programrange =>
    intro start count m hlt hp ht hskip hk
    refine (hc.programrange start count m hlt ht hskip hk).completes_restored hs (requestError_none rfl rfl hp) nofun ?_
    simp [unprotected, flushCtrl, setSignal]

end Sys2Proof.Machine
end

section
/-! SUPPORT. Proofs of the statements about the skip test, the payload, the binary response and a raised error (R18, R46, R68, R79, R121,
R125, R129). -/

namespace Sys2Proof.Machine

/-! ## The skip test (R121) -/

/-- All bytes of a record are one value. -/
theorem all_beq_iff (record : List Byte) (v : Byte) :
    record.all (· == v) = true ↔ ∀ k (h : k < record.length), record[k] = v := by
  simp [List.all_eq_true, List.forall_mem_iff_getElem]

theorem skipRecord_iff (record : List Byte) : skipRecord record = true ↔
    (∀ k (h : k < record.length), record[k] = 0xFF) ∨ (∀ k (h : k < record.length), record[k] = 0x00) := by
  rw [skipRecord, Bool.or_eq_true, all_beq_iff, all_beq_iff]
  rfl

/-- The pages to program are those of the records that are not skipped, each at its own index. -/
theorem mem_pagesToProgram_iff (records : List (List Byte)) : ∀ (page p : Nat) (record : List Byte),
    (p, record) ∈ pagesToProgram page records ↔
      ∃ k, records[k]? = some record ∧ p = page + k ∧ skipRecord record = false := by
  induction records with
  | nil => intro page p record; simp [pagesToProgram]
  | cons first rest ih =>
    intro page p record
    have htail : (∃ k, (first :: rest)[k]? = some record ∧ p = page + k ∧ skipRecord record = false) ↔
        (first = record ∧ p = page ∧ skipRecord record = false) ∨ (p, record) ∈ pagesToProgram (page + 1) rest := by
      rw [ih]
      constructor
      · rintro ⟨_ | k, hk, rfl, hs⟩
        · exact .inl ⟨by simpa using hk, rfl, hs⟩
        · exact .inr ⟨k, by simpa using hk, by omega, hs⟩
      · rintro (⟨rfl, rfl, hs⟩ | ⟨k, hk, rfl, hs⟩)
        · exact ⟨0, rfl, rfl, hs⟩
        · exact ⟨k + 1, by simpa using hk, by omega, hs⟩
    rw [htail, pagesToProgram]
    cases hs : skipRecord first with
    | true =>
      have hne : ¬(first = record ∧ p = page ∧ skipRecord record = false) := by rintro ⟨rfl, -, hk⟩; simp [hs] at hk
      simp [hne]
    | false =>
      have hhead : (first = record ∧ p = page ∧ skipRecord record = false) ↔ (p, record) = (page, first) := by
        constructor
        · rintro ⟨rfl, rfl, -⟩; rfl
        · rintro ⟨⟩; exact ⟨rfl, rfl, hs⟩
      rw [hhead, if_neg Bool.false_ne_true, List.mem_cons]

/-- Settles O50: the skip test by bytes, and the pages to program by induction on the records. -/
theorem skipTestCoversTheWholeRecord : Obligations.SkipTestCoversTheWholeRecord := by
  refine ⟨skipRecord_iff, fun page records => ⟨?_, mem_pagesToProgram_iff records page⟩⟩
  induction records generalizing page with
  | nil => exact .nil
  | cons first rest ih =>
    rw [pagesToProgram]
    split
    · exact ih (page + 1)
    · refine .cons (fun later hlater => ?_) (ih (page + 1))
      obtain ⟨k, -, hp, -⟩ := (mem_pagesToProgram_iff rest (page + 1) later.1 later.2).1 hlater
      omega

/-! ## The payload (R18, R46, R68) -/

/-- Settles O58: MemRead reads the stream from the first byte after the descriptor. -/
theorem payloadIsReadFromTheStream : Obligations.PayloadIsReadFromTheStream := by
  intro s a n h
  rw [memRead, Stream.bytesAt_eq s.stream n (s.pos + 8 + a) h]
  exact ⟨by simp, fun k hk => by simp [hk]⟩

/-! ## The binary response (R79, R125) -/

/-- A 24-bit number by its three bytes. -/
theorem toNat_eq_bytes (w : BitVec 24) :
    w.toNat = (w.extractLsb' 0 8).toNat + 256 * (w.extractLsb' 8 8).toNat + 65536 * (w.extractLsb' 16 8).toNat := by
  have hlt := w.isLt
  simp only [BitVec.extractLsb'_toNat, Nat.shiftRight_eq_div_pow]
  omega

/-- Settles O57: the layout of the response, the codes, and reading it. -/
theorem binaryResponseLayout : Obligations.BinaryResponseLayout := by
  refine ⟨fun r hlen => ?layout, ?codes, fun s r hr => by rw [readResponse, hr], fun s hinv => ?refused⟩
  case layout =>
    refine ⟨_, _, _, _, rfl, ?_, ?_⟩
    · cases r.idMatch <;> rfl
    · rw [← toNat_eq_bytes, resultLength, if_pos hlen, BitVec.toNat_ofNat, Nat.mod_eq_of_lt hlen]
  case codes =>
    exact ⟨rfl, fun _ _ => rfl, rfl, fun _ _ => rfl, fun _ _ => rfl, fun _ => rfl, fun _ => rfl, fun _ => rfl, fun _ => rfl, fun _ => rfl⟩
  case refused =>
    rw [← hinv.responded, readResponse]
    cases s.resp <;> simp

/-! ## A raised error (R129) -/

/-- Settles O60: the raise, the restore of an open bracket and the response are a step each. -/
theorem abortedRequestKeepsItsBytes : Obligations.AbortedRequestKeepsItsBytes := by
  intro e q s hopen
  have hrun : SameRun s s := .start hopen
  refine ⟨⟨rfl, rfl, rfl, rfl, rfl, rfl, rfl, rfl⟩, responseIdMatch q.op.opcode s.rp q.idMatch, fun hi => ?_, fun found hi hfound => ?_,
    fun hw => ?closed, fun hw => ?opened⟩
  · simp [responseIdMatch, Instr.opcode_ne_readid hi]
  · rw [hi, hfound]; rfl
  case closed => exact exec_fails rfl hrun hw
  case opened => exact ⟨_, exec_restores rfl hrun hw, rfl, rfl, rfl, exec_fails_restored rfl hrun⟩

end Sys2Proof.Machine
end

section
/-! SUPPORT. Proofs of the statements about what an operation writes and reads: the writers of each control signal, of the data mirror and
of the direction, and the physical lines, which nothing reads (R22 to R28, R52, R62). -/

namespace Sys2Proof.Machine

/-! ## The loops of the Bus Operations, line by line -/

/-- What holds of every line of one latched byte holds of the loop. -/
theorem forall_mem_latchBytes {cfg : Config} {P : Line → Prop} (h : ∀ b, ∀ l ∈ latchByteLines cfg b, P l) (bytes : List Byte) :
    ∀ l ∈ latchBytes cfg bytes, P l := by
  induction bytes with
  | nil => nofun
  | cons b rest ih => exact List.forall_mem_append.2 ⟨h b, ih⟩

/-- What holds of every line of one byte read holds of the loop. -/
theorem forall_mem_readBytes {cfg : Config} {r : Bool} {P : Line → Prop} (h : ∀ l ∈ readByteLines cfg r, P l) (n : Nat) :
    ∀ l ∈ readBytes cfg r n, P l := by
  induction n with
  | zero => nofun
  | succ n ih => exact List.forall_mem_append.2 ⟨h, ih⟩

/-! ## The control signals (R23 to R25) -/

/-- Changes of other signals leave a level as it was (R16). -/
theorem level_withLevels_of_not_mem {sig : Signal} (changes : List (Signal × Bool)) : ∀ v, (∀ c ∈ changes, c.1 ≠ sig) →
    level (withLevels v changes) sig = level v sig := by
  induction changes with
  | nil => intro v _; rfl
  | cons c rest ih =>
    intro v h
    rw [withLevels, ih _ fun d hd => h d (List.mem_cons_of_mem c hd), level_withLevel,
      if_neg fun hc => h c List.mem_cons_self hc.1]

/-- An effect changes the levels of its own changes alone. -/
theorem Effect.level_eq {changes : List (Signal × Bool)} {s t : State} {sig : Signal} (he : Effect changes s t)
    (h : ∀ c ∈ changes, c.1 ≠ sig) : level t.ctrl sig = level s.ctrl sig := by
  cases he with
  | ctrlMirror | ctrlWrite => exact level_withLevels_of_not_mem changes s.ctrl h
  | _ => rfl

/-- Waiting or responding changes no mirror. -/
theorem Settles.ctrl_eq {q : Seq} {s t : State} (h : Settles q s t) : t.ctrl = s.ctrl := by cases h <;> rfl

/-- Every control-mirror change of the lines is of a listed signal. -/
def SignalsIn (signals : List Signal) (lines : List Line) : Prop := ∀ l ∈ lines, ∀ c ∈ l.changes, c.1 ∈ signals

/-- The signals that SETPIN of a control pin and INIT change themselves (R84, R90). -/
def ownSignals : Instr → List Signal
  | .setpin bus pin _ => if bus = .ctrl then [.ofPin pin] else []
  | .init => initLevels.map Prod.fst
  | .setdata _ | .flush _ | .sample _ | .setdir _ | .delay _ | .lcmd _ | .laddr _ | .lout _ | .ldin _ | .waitrdy | .addrcyc _ _
  | .readid | .readpage _ | .erase _ | .program _ _ | .readstatus | .dump _ _ | .programrange _ _ | .eraserange _ _ => []

/-- Signals that an operation changes where it runs a part. -/
def signalsIf (runs : Bool) (signals : List Signal) : List Signal := if runs then signals else []

/-- The signals that the Bus Operations and the bracket of an operation change (R93 to R96, R114). -/
def partSignals (i : Instr) : List Signal :=
  signalsIf (runsBusOp .LCMD i) [.CLE, .nWE] ++ signalsIf (runsBusOp .LADDR i) [.ALE, .nWE] ++ signalsIf (runsBusOp .LOUT i) [.nRE] ++
    signalsIf (runsBusOp .LDIN i) [.nWE] ++ signalsIf (opensBracket i) [.nWP]

theorem signalsIn_latchBytes (cfg : Config) (bytes : List Byte) : SignalsIn [.nWE] (latchBytes cfg bytes) :=
  forall_mem_latchBytes (by simp [latchByteLines, Line.changes]) bytes

theorem signalsIn_readBytes (cfg : Config) (r : Bool) (n : Nat) : SignalsIn [.nRE] (readBytes cfg r n) :=
  forall_mem_readBytes (by simp [readByteLines, Line.changes]) n

theorem SignalsIn.mono {a b : List Signal} {lines : List Line} (h : SignalsIn a lines) (hab : a ⊆ b) : SignalsIn b lines :=
  fun l hl c hc => hab (h l hl c hc)

theorem SignalsIn.append {signals : List Signal} {a b : List Line} (ha : SignalsIn signals a) (hb : SignalsIn signals b) :
    SignalsIn signals (a ++ b) := List.forall_mem_append.2 ⟨ha, hb⟩

theorem signalsIn_latchCommand (b : Byte) : SignalsIn [.CLE, .nWE] (latchCommand b) := by
  simp [SignalsIn, latchCommand, Line.changes]

theorem signalsIn_latchAddress (cfg : Config) (bytes : List Byte) : SignalsIn [.ALE, .nWE] (latchAddress cfg bytes) := by
  refine .append (.append ?_ ((signalsIn_latchBytes cfg bytes).mono (by simp))) ?_ <;> simp [SignalsIn, Line.changes]

theorem signalsIn_latchRegisterOut (cfg : Config) (r : Bool) (n : Nat) : SignalsIn [.nRE] (latchRegisterOut cfg r n) := by
  refine .append (.append ?_ (signalsIn_readBytes cfg r n)) ?_ <;> simp [SignalsIn, Line.changes]

theorem signalsIn_latchDataIn (cfg : Config) (bytes : List Byte) : SignalsIn [.nWE] (latchDataIn cfg bytes) :=
  .append (a := [.checkEntry .LDIN]) (by simp [SignalsIn, Line.changes]) (signalsIn_latchBytes cfg bytes)

/-- An operation that runs a command, an address and a byte read changes the strobes, and with the bracket nWP (R23). -/
theorem signalsIn_of_runsBusOp {i : Instr} (s : State) (hc : runsBusOp .LCMD i = true) (ha : runsBusOp .LADDR i = true)
    (ho : runsBusOp .LOUT i = true) : SignalsIn (ownSignals i ++ partSignals i) (linesOf i s) := by
  rcases linesOf_changes i s with ⟨pin, value, rfl⟩ | rfl | ⟨hb, h⟩ | h
  · cases hc
  · cases hc
  · intro l hl c hcl
    rcases h l hl c hcl with (hs | hs | hs | hs) | hs <;> simp [hs, partSignals, signalsIf, hc, ha, ho, hb]
  · intro l hl c hcl
    rcases h l hl c hcl with hs | hs | hs | hs <;> simp [hs, partSignals, signalsIf, hc, ha, ho]

/-- Every control-mirror change of an instruction's lines is of one of its signals. -/
theorem linesOf_signalsIn (i : Instr) (s : State) : SignalsIn (ownSignals i ++ partSignals i) (linesOf i s) := by
  cases i with
  | setpin bus pin value =>
    cases bus
    · exact fun l hl c hc => by simp [linesOf, setpinLines] at hl; simp [hl, Line.changes] at hc
    · exact fun l hl c hc => by simp [linesOf, setpinLines] at hl; simp [hl, Line.changes] at hc; simp [hc, ownSignals]
  | init =>
    have hinit : SignalsIn (initLevels.map Prod.fst) initLines := by
      simp only [SignalsIn, initLines, List.forall_mem_cons, Line.changes]
      exact ⟨fun c hc => List.mem_map_of_mem hc, nofun, nofun, nofun⟩
    exact hinit.mono (List.subset_append_left _ _)
  | lcmd b => exact signalsIn_latchCommand b
  | laddr n => rw [linesOf, laddrLines]; exact signalsIn_latchAddress s.cfg _
  | lout n => rw [linesOf, loutLines]; exact signalsIn_latchRegisterOut s.cfg true n.toNat
  | ldin n => rw [linesOf, ldinLines]; exact signalsIn_latchDataIn s.cfg _
  | readstatus =>
    rw [linesOf, readStatusLines]
    refine .append (.append ((signalsIn_latchCommand _).mono (by decide)) ((signalsIn_latchRegisterOut _ _ _).mono ?_)) ?_
    · decide
    · simp [SignalsIn, Line.changes]
  | readid | readpage | dump | erase | program | eraserange | programrange =>
    exact signalsIn_of_runsBusOp s rfl rfl rfl
  | _ =>
    simp [SignalsIn, linesOf, setdataLines, flushLines, sampleLines, setdirLines, delayLines, waitWhileBusy, addrcycLines, Line.changes]

/-- An operation changes the levels of its own signals alone, and nWP where the bracket of its running request is open. -/
theorem exec_level_eq {i : Instr} {s t : State} {sig : Signal} (he : exec i s = .next t) (hsig : sig ∉ ownSignals i ++ partSignals i)
    (hwp : sig = .nWP → ∀ q, s.seq = some q → q.op = i → q.wpOpen = false) : level t.ctrl sig = level s.ctrl sig := by
  obtain ⟨q, s', hop, hstart, heffect, hsettles⟩ := exec_effect he
  rw [hsettles.ctrl_eq]
  refine heffect.level_eq fun c hc heq => ?_
  have hlines : ∀ l ∈ linesOf i s, c ∉ l.changes := fun l hl hcl => hsig (heq ▸ linesOf_signalsIn i s l hl c hcl)
  unfold stepChanges at hc
  split at hc
  · rename_i e hf
    split at hc
    · rename_i hw
      obtain rfl : c = (.nWP, false) := by simpa using hc
      rcases hstart with ⟨-, rfl⟩ | hq
      · cases hf
      · rw [hwp heq.symm q hq hop] at hw; cases hw
    · cases hc
  · split at hc
    · rename_i l hl
      exact hlines l (List.mem_of_getElem? hl) hc
    · cases hc

/-- The pin of a control signal (R84). -/
theorem Signal.ofPin_eq {pin : BitVec 3} {sig : Signal} (h : Signal.ofPin pin = sig) : pin = BitVec.ofNat 3 sig.bit := by
  subst h
  revert pin
  decide

/-- SETPIN of a control pin changes that signal, INIT every signal but AUX and RDY (R84, R90). -/
theorem mem_ownSignals {i : Instr} {sig : Signal} (h : sig ∈ ownSignals i) :
    (i = .init ∧ sig ≠ .AUX) ∨ ∃ value, i = .setpin .ctrl (BitVec.ofNat 3 sig.bit) value := by
  cases i with
  | setpin bus pin value =>
    cases bus
    · cases h
    · exact .inr ⟨value, by rw [← Signal.ofPin_eq (List.mem_singleton.1 h).symm]⟩
  | init => exact .inl ⟨rfl, by rintro rfl; revert h; decide⟩
  | _ => cases h

/-- No effect changes RDY (R24). -/
theorem Effect.level_RDY {changes : List (Signal × Bool)} {s t : State} (he : Effect changes s t) :
    level t.ctrl .RDY = level s.ctrl .RDY := by
  cases he with
  | ctrlMirror | ctrlWrite => exact level_withLevels_RDY changes s.ctrl
  | _ => rfl

/-- A changed level is one of INIT, of SETPIN of its pin, or of a part of the operation. -/
theorem signal_changed {i : Instr} {s t : State} {sig : Signal} (he : exec i s = .next t)
    (h : level t.ctrl sig ≠ level s.ctrl sig) (hwp : sig = .nWP → ∀ q, s.seq = some q → q.op = i → q.wpOpen = false) :
    (i = .init ∧ sig ≠ .AUX) ∨ (∃ value, i = .setpin .ctrl (BitVec.ofNat 3 sig.bit) value) ∨ sig ∈ partSignals i := by
  by_contra hsig
  refine h (exec_level_eq he (fun hmem => hsig ?_) hwp)
  rw [← or_assoc]
  exact (List.mem_append.1 hmem).imp_left mem_ownSignals

/-- Settles O54: each signal stands among the signals of the named instructions alone. -/
theorem controlSignalWriters : Obligations.ControlSignalWriters := by
  intro i s t he
  refine ⟨fun h => ?aux, fun h => ?nce, fun h => ?cle, fun h => ?ale, fun h => ?nwe, fun h => ?nre, ?rdy, fun hinv h => ?nwp⟩
  case aux => simpa [partSignals, signalsIf, Signal.bit] using signal_changed he h nofun
  case nce => simpa [partSignals, signalsIf, Signal.bit] using signal_changed he h nofun
  case cle => simpa [partSignals, signalsIf, Signal.bit] using signal_changed he h nofun
  case ale => simpa [partSignals, signalsIf, Signal.bit] using signal_changed he h nofun
  case nwe => simpa [partSignals, signalsIf, Signal.bit] using signal_changed he h nofun
  case nre => simpa [partSignals, signalsIf, Signal.bit] using signal_changed he h nofun
  case rdy =>
    obtain ⟨q, s', -, -, heffect, hsettles⟩ := exec_effect he
    rw [hsettles.ctrl_eq, heffect.level_RDY]
  case nwp =>
    by_cases hb : opensBracket i = true
    · exact .inr (.inl hb)
    · have closed (q : Seq) (hq : s.seq = some q) (hop : q.op = i) : q.wpOpen = false :=
        Bool.eq_false_iff.2 fun hw => hb (hop ▸ hinv.bracket q hq hw)
      simpa [partSignals, signalsIf, Signal.bit, hb] using signal_changed he h fun _ => closed

/-! ## The data mirror and the direction (R26, R28, R52) -/

/-- The lines that write the data mirror (R84, R85, R90, R93, R94). -/
def Line.writesData : Line → Bool
  | .setPin bus _ _ => bus == .data
  | .setData _ | .driveData _ | .latchByte _ => true
  | _ => false

/-- The line that sets the direction (R88). -/
def Line.writesDir : Line → Bool
  | .setDir _ => true
  | _ => false

/-- The machine's state that a line leaves. -/
def LineOutcome.state : LineOutcome → State
  | .done _ s => s
  | .raised _ _ s => s

/-- From `s` to `s'` the line has kept the data mirror and the direction, but where it writes them. -/
structure BusFrame (l : Line) (s s' : State) : Prop where
  data : l.writesData = false → s'.data = s.data
  dir : l.writesDir = false → s'.dir = s.dir

theorem lineFlushData_state (q : Seq) (s : State) :
    (lineFlushData q s).state.data = s.data ∧ (lineFlushData q s).state.dir = s.dir := by
  unfold lineFlushData
  split <;> exact ⟨rfl, rfl⟩

theorem lineTestStatus_state (failure : Byte → Report) (q : Seq) (s : State) : (lineTestStatus failure q s).state = s := by
  unfold lineTestStatus
  split
  · rfl
  · split <;> rfl

/-- Every line keeps the data mirror and the direction but those that write them. -/
theorem runLine_busFrame (l : Line) (q : Seq) (s : State) : BusFrame l s (runLine l q s).state := by
  cases l with
  | setPin bus pin value =>
    cases bus
    · exact ⟨nofun, fun _ => rfl⟩
    · exact ⟨fun _ => rfl, fun _ => rfl⟩
  | flush bus =>
    cases bus
    · exact ⟨fun _ => (lineFlushData_state q s).1, fun _ => (lineFlushData_state q s).2⟩
    · exact ⟨fun _ => rfl, fun _ => rfl⟩
  | driveData b | latchByte b => exact ⟨nofun, fun _ => (lineFlushData_state q (setData b s)).2⟩
  | setData b => exact ⟨nofun, fun _ => rfl⟩
  | setDir d => exact ⟨fun _ => rfl, nofun⟩
  | sleep t => exact ⟨fun _ => sleep_data t s, fun _ => sleep_dir t s⟩
  | byteEnd t => exact ⟨fun _ => sleep_data t s, fun _ => sleep_dir t s⟩
  | waitStart | pollInterval => exact ⟨fun _ => sleep_data _ s, fun _ => sleep_dir _ s⟩
  | sample bus => simp only [runLine, lineSample]; split <;> exact ⟨fun _ => rfl, fun _ => rfl⟩
  | checkEntry op => simp only [runLine, lineCheckEntry]; split <;> exact ⟨fun _ => rfl, fun _ => rfl⟩
  | readByte r => simp only [runLine, lineReadByte]; split <;> exact ⟨fun _ => rfl, fun _ => rfl⟩
  | poll =>
    simp only [runLine, linePoll]
    split
    · exact ⟨fun _ => rfl, fun _ => rfl⟩
    · split <;> exact ⟨fun _ => rfl, fun _ => rfl⟩
  | compareId => simp only [runLine, lineCompareId]; split <;> exact ⟨fun _ => rfl, fun _ => rfl⟩
  | testErase _ | testProgram _ => simp only [runLine, lineTestStatus_state]; exact ⟨fun _ => rfl, fun _ => rfl⟩
  | sourceRecord i => simp only [runLine, lineSourceRecord]; split <;> exact ⟨fun _ => rfl, fun _ => rfl⟩
  | sinkRecord => simp only [runLine, lineSinkRecord]; split <;> exact ⟨fun _ => rfl, fun _ => rfl⟩
  | _ => exact ⟨fun _ => rfl, fun _ => rfl⟩

/-- One step of a running operation keeps the data mirror and the direction, or is one of its lines. -/
theorem advance_busFrame (lines : List Line) (q : Seq) (s : State) :
    ((∀ l ∈ lines, l.writesData = false) → (advance lines q s).data = s.data) ∧
      ((∀ l ∈ lines, l.writesDir = false) → (advance lines q s).dir = s.dir) := by
  have ha := advance_advances lines q s
  generalize advance lines q s = t at ha ⊢
  cases ha with
  | restores | fails | ends => exact ⟨fun _ => rfl, fun _ => rfl⟩
  | @goesOn l q' s' _ hl hr | @raises l e q' s' _ hl hr =>
    have hframe := runLine_busFrame l q s
    rw [hr] at hframe
    exact ⟨fun h => hframe.data (h l (List.mem_of_getElem? hl)), fun h => hframe.dir (h l (List.mem_of_getElem? hl))⟩

/-- An operation none of whose lines writes the data mirror keeps it, and so with the direction. -/
theorem exec_busFrame {i : Instr} {s t : State} (he : exec i s = .next t) :
    ((∀ l ∈ linesOf i s, l.writesData = false) → t.data = s.data) ∧
      ((∀ l ∈ linesOf i s, l.writesDir = false) → t.dir = s.dir) := by
  rcases exec_cases i s with ⟨_, he'⟩ | ⟨_, ⟨q, _, _, he'⟩ | ⟨e, _, _, he'⟩ | ⟨_, _, he'⟩ | ⟨q, _, _, he'⟩⟩ <;> rw [he'] at he <;>
    cases he
  · exact ⟨fun _ => rfl, fun _ => rfl⟩
  · exact advance_busFrame (linesOf i s) (Seq.start i) s
  · exact advance_busFrame (linesOf i s) q s

/-- No line of one latched byte sets the direction. -/
theorem latchBytes_keeps_dir (cfg : Config) (bytes : List Byte) : ∀ l ∈ latchBytes cfg bytes, l.writesDir = false :=
  forall_mem_latchBytes (by simp [latchByteLines, Line.writesDir]) bytes

/-- Settles O55: none of the named operations has a line that writes the data mirror, or one that sets the direction. -/
theorem onlyDataOperationsWriteTheDataMirror : Obligations.OnlyDataOperationsWriteTheDataMirror := by
  refine ⟨fun i s t hi he => (exec_busFrame he).1 ?data, fun i s t hi he => (exec_busFrame he).2 ?dir⟩
  case data =>
    rcases hi with ⟨bus, rfl⟩ | ⟨bus, rfl⟩ | ⟨d, rfl⟩ | ⟨m, rfl⟩ | ⟨count, rfl⟩ | rfl | ⟨page, column, rfl⟩ | ⟨pin, value, rfl⟩
    · simp [linesOf, flushLines, Line.writesData]
    · simp [linesOf, sampleLines, Line.writesData]
    · simp [linesOf, setdirLines, Line.writesData]
    · simp [linesOf, delayLines, Line.writesData]
    · have hbytes : ∀ l ∈ readBytes s.cfg true count.toNat, l.writesData = false :=
        forall_mem_readBytes (by simp [readByteLines, Line.writesData]) count.toNat
      rw [linesOf, loutLines, latchRegisterOut, List.forall_mem_append, List.forall_mem_append]
      exact ⟨⟨by simp [Line.writesData], hbytes⟩, by simp [Line.writesData]⟩
    · simp [linesOf, waitWhileBusy, Line.writesData]
    · simp [linesOf, addrcycLines, Line.writesData]
    · simp [linesOf, setpinLines, Line.writesData]
  case dir =>
    rcases hi with ⟨bus, pin, value, rfl⟩ | ⟨b, rfl⟩ | ⟨bus, rfl⟩ | ⟨bus, rfl⟩ | ⟨m, rfl⟩ | ⟨b, rfl⟩ | ⟨len, rfl⟩ | ⟨len, rfl⟩ | rfl |
      ⟨page, column, rfl⟩
    · simp [linesOf, setpinLines, Line.writesDir]
    · simp [linesOf, setdataLines, Line.writesDir]
    · simp [linesOf, flushLines, Line.writesDir]
    · simp [linesOf, sampleLines, Line.writesDir]
    · simp [linesOf, delayLines, Line.writesDir]
    · simp [linesOf, latchCommand, Line.writesDir]
    · rw [linesOf, laddrLines, latchAddress, List.forall_mem_append, List.forall_mem_append]
      exact ⟨⟨by simp [Line.writesDir], latchBytes_keeps_dir s.cfg _⟩, by simp [Line.writesDir]⟩
    · rw [linesOf, ldinLines, latchDataIn, List.forall_mem_cons]
      exact ⟨rfl, latchBytes_keeps_dir s.cfg _⟩
    · simp [linesOf, waitWhileBusy, Line.writesDir]
    · simp [linesOf, addrcycLines, Line.writesDir]

end Sys2Proof.Machine
end

section
/-! SUPPORT. Proof of the statement that no operation reads the physical lines (R22, R62). -/

namespace Sys2Proof.Machine

/-- `t` is `s` but for the record of the physical lines. -/
def SameButPhys (s t : State) : Prop := ∃ c d, t = { s with physCtrl := c, physData := d }

/-- What a line leaves is the same but for the record of the physical lines. -/
def LineOutcome.SameButPhys : LineOutcome → LineOutcome → Prop
  | .done q s, .done q' s' => q' = q ∧ Machine.SameButPhys s s'
  | .raised e q s, .raised e' q' s' => e' = e ∧ q' = q ∧ Machine.SameButPhys s s'
  | _, _ => False

section
variable (q : Seq) (s : State) (c d : Option Byte)

theorem lineFlushData_sameButPhys :
    (lineFlushData q s).SameButPhys (lineFlushData q { s with physCtrl := c, physData := d }) := by
  unfold lineFlushData
  split
  · exact ⟨rfl, c, some s.data, rfl⟩
  · exact ⟨rfl, rfl, c, d, rfl⟩

theorem lineTestStatus_sameButPhys (failure : Byte → Report) :
    (lineTestStatus failure q s).SameButPhys (lineTestStatus failure q { s with physCtrl := c, physData := d }) := by
  unfold lineTestStatus
  split
  · exact ⟨rfl, c, d, rfl⟩
  · split
    · exact ⟨rfl, rfl, c, d, rfl⟩
    · exact ⟨rfl, c, d, rfl⟩

theorem sleep_sameButPhys (t : Nat) : SameButPhys (sleep t s) (sleep t { s with physCtrl := c, physData := d }) := by
  unfold sleep
  split <;> exact ⟨c, d, rfl⟩

/-- A line does the same whatever the record of the physical lines (R22). -/
theorem runLine_sameButPhys (l : Line) : (runLine l q s).SameButPhys (runLine l q { s with physCtrl := c, physData := d }) := by
  cases l with
  | setPin bus pin value => cases bus <;> exact ⟨rfl, c, d, rfl⟩
  | flush bus =>
    cases bus
    · exact lineFlushData_sameButPhys q s c d
    · exact ⟨rfl, some s.ctrl, d, rfl⟩
  | driveData b | latchByte b => exact lineFlushData_sameButPhys q (setData b s) c d
  | driveCtrl | writeProtect => exact ⟨rfl, _, d, rfl⟩
  | sleep t => exact ⟨rfl, sleep_sameButPhys s c d t⟩
  | byteEnd t => exact ⟨rfl, sleep_sameButPhys s c d t⟩
  | waitStart => exact ⟨rfl, sleep_sameButPhys s c d s.cfg.tBusySettle⟩
  | pollInterval => exact ⟨rfl, sleep_sameButPhys s c d s.cfg.tPollInterval⟩
  | sample bus =>
    simp only [runLine, lineSample]
    split
    · exact ⟨rfl, rfl, c, d, rfl⟩
    · exact ⟨rfl, c, d, rfl⟩
  | checkEntry op =>
    have h : entryError op { s with physCtrl := c, physData := d } = entryError op s := rfl
    simp only [runLine, lineCheckEntry, h]
    split
    · exact ⟨rfl, rfl, c, d, rfl⟩
    · exact ⟨rfl, c, d, rfl⟩
  | readByte r =>
    simp only [runLine, lineReadByte]
    split
    · exact ⟨rfl, c, d, rfl⟩
    · exact ⟨rfl, rfl, c, d, rfl⟩
  | poll =>
    simp only [runLine, linePoll]
    split
    · exact ⟨rfl, c, d, rfl⟩
    · split
      · exact ⟨rfl, rfl, c, d, rfl⟩
      · exact ⟨rfl, c, d, rfl⟩
  | compareId => simp only [runLine, lineCompareId]; split <;> exact ⟨rfl, c, d, rfl⟩
  | testErase block => exact lineTestStatus_sameButPhys q s c d (.eraseFailed block)
  | testProgram page => exact lineTestStatus_sameButPhys q s c d (.programFailed page)
  | sourceRecord i =>
    simp only [runLine, lineSourceRecord]
    split
    · exact ⟨rfl, c, d, rfl⟩
    · exact ⟨rfl, rfl, c, d, rfl⟩
  | sinkRecord =>
    simp only [runLine, lineSinkRecord]
    split
    · exact ⟨rfl, c, d, rfl⟩
    · exact ⟨rfl, rfl, c, d, rfl⟩
  | _ => exact ⟨rfl, c, d, rfl⟩

/-- One step of a running operation does the same whatever the record of the physical lines. -/
theorem advance_sameButPhys (lines : List Line) :
    SameButPhys (advance lines q s) (advance lines q { s with physCtrl := c, physData := d }) := by
  unfold advance
  cases q.failing with
  | some e =>
    dsimp only [abortStep]
    split
    · exact ⟨some (withLevel s.ctrl .nWP false), d, rfl⟩
    · exact ⟨c, d, rfl⟩
  | none =>
    cases lines[q.step]? with
    | none => exact ⟨c, d, rfl⟩
    | some l =>
      have hline := runLine_sameButPhys q s c d l
      dsimp only
      generalize runLine l q s = x, runLine l q { s with physCtrl := c, physData := d } = y at hline ⊢
      cases x with
      | done q₁ s₁ =>
        cases y with
        | done q₂ s₂ => obtain ⟨rfl, c', d', rfl⟩ := hline; exact ⟨c', d', rfl⟩
        | raised => exact hline.elim
      | raised e₁ q₁ s₁ =>
        cases y with
        | done => exact hline.elim
        | raised e₂ q₂ s₂ => obtain ⟨rfl, rfl, c', d', rfl⟩ := hline; exact ⟨c', d', rfl⟩

end

/-- The step of a request's sequence is the same whatever the record of the physical lines. -/
theorem perform_sameButPhys {i : Instr} {lines : List Line} {s t : State} (c d : Option Byte) (h : perform i lines s = .next t) :
    ∃ t', perform i lines { s with physCtrl := c, physData := d } = .next t' ∧ SameButPhys t t' := by
  have hcheck : requestError i { s with physCtrl := c, physData := d } = requestError i s := rfl
  unfold perform at h ⊢
  rw [hcheck]
  dsimp only at h ⊢
  split at h
  case isFalse => cases h
  rename_i hopen
  rw [if_pos hopen]
  split at h
  case h_2 q _ =>
    split at h
    · rename_i hop
      cases h
      exact ⟨_, if_pos hop, advance_sameButPhys q s c d lines⟩
    · cases h
  split at h
  · cases h; exact ⟨_, rfl, c, d, rfl⟩
  · cases h; exact ⟨_, rfl, advance_sameButPhys _ s c d lines⟩

/-- Settles O56: the request's check, its lines and what each of them does are the same whatever the record of the physical lines. -/
theorem physicalLinesAreNeverRead : Obligations.PhysicalLinesAreNeverRead := by
  intro i s t c d he
  rw [exec_eq_perform] at he
  obtain ⟨t', ht', c', d', rfl⟩ := perform_sameButPhys c d he
  have hlines : linesOf i { s with physCtrl := c, physData := d } = linesOf i s := linesOf_congr i rfl rfl rfl
  exact ⟨c', d', by rw [exec_eq_perform, hlines]; exact ht'⟩

end Sys2Proof.Machine
end

section
/-! SUPPORT. Proof of the statement about the write-protect bracket: however an erase or program ends, from whatever bus state, nWP is 0
in mirror and line (R114, R123, R129). -/

namespace Sys2Proof.Machine

/-! ## What stands between two lines -/

/-- What can be known of the sequencer and the machine between two lines. -/
abbrev Phase := Seq → State → Prop

/-- The control line holds its mirror's byte, and nWP is 0 in it. -/
def Protected (s : State) : Prop := s.physCtrl = some s.ctrl ∧ level s.ctrl .nWP = false

/-- A request ends protected, or, where a trace is given, without any adapter call made after it. -/
def EndsWell (tr : Option (List Event)) (t : State) : Prop := Protected t ∨ some t.trace = tr

/-- Nothing is known. -/
def Anywhere : Phase := fun _ _ => True

/-- The bracket is open, and the control line holds its mirror's byte (R114). -/
def Opened : Phase := fun q s => q.wpOpen = true ∧ s.physCtrl = some s.ctrl

/-- The bracket is closed, and the request would end well. -/
def Resting (tr : Option (List Event)) : Phase := fun q s => q.wpOpen = false ∧ EndsWell tr s

/-- Protection back on ends a request well (R129 item 2). -/
theorem protected_restored (s : State) : Protected (flushCtrl (setSignal .nWP false s)) := ⟨rfl, by simp [flushCtrl, setSignal]⟩

/-! ## Lines -/

/-- From the phase `P` a line leads to the phase `Q`, or it raises an error that ends the request well. -/
def LineLeads (tr : Option (List Event)) (l : Line) (P Q : Phase) : Prop := ∀ q s, P q s →
  (∀ q' s', runLine l q s = .done q' s' → Q q' s') ∧
    ∀ e q' s', runLine l q s = .raised e q' s' → q'.wpOpen = false → EndsWell tr s'

/-- The lines that change the control mirror without a flush, or the bracket. -/
def Line.bare : Line → Bool
  | .setPin _ _ _ | .writeProtect _ => true
  | _ => false

/-- An effect without changes of the control mirror leaves mirror and line as they were, or flushes the mirror. -/
theorem Effect.ctrl_of_nil {s t : State} (h : Effect [] s t) :
    t.ctrl = s.ctrl ∧ (t.physCtrl = s.physCtrl ∨ t.physCtrl = some t.ctrl) := by
  cases h with
  | ctrlWrite => exact ⟨rfl, .inr rfl⟩
  | _ => exact ⟨rfl, .inl rfl⟩

/-- Every line that is not bare keeps the control line at its mirror's byte. -/
theorem runLine_done_flushed {l : Line} {q q' : Seq} {s s' : State} (hl : l.bare = false) (hs : s.physCtrl = some s.ctrl)
    (hr : runLine l q s = .done q' s') : s'.physCtrl = some s'.ctrl := by
  have heffect := runLine_done_effect hr
  cases l with
  | setPin | writeProtect => cases hl
  | driveCtrl changes => cases hr; rfl
  | _ =>
    obtain ⟨hctrl, hphys | hphys⟩ := heffect.ctrl_of_nil
    · rw [hphys, hctrl, hs]
    · exact hphys

/-- Inside the bracket every line that is not bare stays there (R114). -/
theorem lineLeads_opened (tr : Option (List Event)) {l : Line} (hl : l.bare = false) : LineLeads tr l Opened Opened := by
  rintro q s ⟨hw, hs⟩
  have hk := runLine_keepsBracket l q s
  constructor
  · intro q' s' hr
    rw [hr] at hk
    rcases hk with hk | rfl
    · exact ⟨hk.trans hw, runLine_done_flushed hl hs hr⟩
    · cases hl
  · intro e q' s' hr hclosed
    have hk' : q'.wpOpen = q.wpOpen := by rwa [hr] at hk
    rw [hk', hw] at hclosed
    cases hclosed

/-- The bracket opens from any state (R114). -/
theorem lineLeads_open (tr : Option (List Event)) : LineLeads tr (.writeProtect true) Anywhere Opened := fun _ _ _ =>
  ⟨fun _ _ hr => by cases hr; exact ⟨rfl, rfl⟩, fun _ _ _ hr => by cases hr⟩

/-- The bracket closes from any state, with protection on (R114). -/
theorem lineLeads_close (tr : Option (List Event)) : LineLeads tr (.writeProtect false) Anywhere (Resting tr) := fun _ s _ =>
  ⟨fun _ _ hr => by cases hr; exact ⟨rfl, .inl (protected_restored s)⟩, fun _ _ _ hr => by cases hr⟩

/-- Done or with an error, the bracket and the bus state are as they were. -/
def LineOutcome.Silent (q : Seq) (s : State) : LineOutcome → Prop
  | .done q' s' => q'.wpOpen = q.wpOpen ∧ ∃ e, s' = { s with env := e }
  | .raised _ q' s' => q'.wpOpen = q.wpOpen ∧ ∃ e, s' = { s with env := e }

/-- A line that leaves the bracket and the bus state as they are. -/
def Line.Silent (l : Line) : Prop := ∀ q s, (runLine l q s).Silent q s

theorem silent_storeStatus : Line.Silent .storeStatus := fun _ s => ⟨rfl, s.env, rfl⟩

theorem silent_sourceRecord (i : Nat) : Line.Silent (.sourceRecord i) := by
  intro q s
  simp only [runLine, lineSourceRecord]
  split <;> exact ⟨rfl, _, rfl⟩

theorem lineTestStatus_silent (failure : Byte → Report) (q : Seq) (s : State) : (lineTestStatus failure q s).Silent q s := by
  unfold lineTestStatus
  split
  · exact ⟨rfl, s.env, rfl⟩
  · split <;> exact ⟨rfl, s.env, rfl⟩

theorem silent_testErase (block : Nat) : Line.Silent (.testErase block) := lineTestStatus_silent (.eraseFailed block)

theorem silent_testProgram (page : Nat) : Line.Silent (.testProgram page) := lineTestStatus_silent (.programFailed page)

/-- Outside the bracket a silent line stays there, also with its error. -/
theorem Line.Silent.lineLeads {l : Line} (h : l.Silent) (tr : Option (List Event)) : LineLeads tr l (Resting tr) (Resting tr) := by
  rintro q s ⟨hw, hs⟩
  have hk := h q s
  constructor
  · intro q' s' hr
    rw [hr] at hk
    obtain ⟨hq, e, rfl⟩ := hk
    exact ⟨hq.trans hw, hs⟩
  · intro r q' s' hr _
    rw [hr] at hk
    obtain ⟨-, e, rfl⟩ := hk
    exact hs

/-! ## Parts of a sequence -/

/-- From the phase `P` at its first line a part leads to the phase `Q` behind its last, or the request ends well. -/
def Leads (tr : Option (List Event)) (part : List Line) (P Q : Phase) : Prop := ∀ lines before behind q s t,
  lines = before ++ part ++ behind → q.step = before.length → P q s → Ends lines q s t →
    EndsWell tr t ∨ ∃ q' s', q'.step = (before ++ part).length ∧ Q q' s' ∧ Ends lines q' s' t

theorem Leads.append {tr : Option (List Event)} {a b : List Line} {P Q R : Phase} (ha : Leads tr a P Q) (hb : Leads tr b Q R) :
    Leads tr (a ++ b) P R := by
  intro lines before behind q s t hl hq hP he
  rcases ha lines before (b ++ behind) q s t (by simp [hl]) hq hP he with h | ⟨q₁, s₁, hq₁, hQ, he₁⟩
  · exact .inl h
  · rw [← List.append_assoc before]
    exact hb lines (before ++ a) behind q₁ s₁ t (by simp [hl]) hq₁ hQ he₁

theorem Leads.mono {tr : Option (List Event)} {part : List Line} {P P' Q : Phase} (h : Leads tr part P Q)
    (hP : ∀ q s, P' q s → P q s) : Leads tr part P' Q := fun lines before behind q s t hl hq hp he =>
  h lines before behind q s t hl hq (hP q s hp) he

theorem leads_nil (tr : Option (List Event)) (P : Phase) : Leads tr [] P P := fun _ _ _ q s _ _ hq hP he =>
  .inr ⟨q, s, by simpa using hq, hP, he⟩

/-- The lines of a part go on inside it, or to the line behind it. -/
def Inside (part : List Line) : Prop := ∀ k l q s q' s', part[k]? = some l → runLine l q s = .done q' s' →
  ∃ k' ≤ part.length, q'.step + k = q.step + k'

/-- A part that goes on inside itself and whose lines keep a phase keeps it. -/
theorem leads_of_inside {tr : Option (List Event)} {part : List Line} {P : Phase} (h : ∀ l ∈ part, LineLeads tr l P P)
    (hin : Inside part) : Leads tr part P P := by
  intro lines before behind q s t hlines hq hP he
  have main : ∀ k < part.length, q.step = before.length + k → P q s → EndsWell tr t ∨
      ∃ q' s', q'.step = (before ++ part).length ∧ P q' s' ∧ Ends lines q' s' t := by
    clear hq hP
    have hat {q : Seq} {k : Nat} (hk : k < part.length) (hq : q.step = before.length + k) : lines[q.step]? = some part[k] :=
      hlines ▸ line_at k hq (List.getElem?_eq_getElem hk)
    induction he with
    | past hl =>
      intro k hk hq _
      rw [hat hk hq] at hl
      cases hl
    | @line l q q₁ s s₁ t hl hr he ih =>
      intro k hk hq hP
      obtain rfl : part[k] = l := Option.some.inj ((hat hk hq).symm.trans hl)
      have hP₁ : P q₁ s₁ := (h part[k] (List.getElem_mem hk) q s hP).1 q₁ s₁ hr
      obtain ⟨k', hk', hstep⟩ := hin k part[k] q s q₁ s₁ (List.getElem?_eq_getElem hk) hr
      have hq₁ : q₁.step = before.length + k' := by omega
      rcases hk'.lt_or_eq with hlt | heq
      · exact ih k' hlt hq₁ hP₁
      · exact .inr ⟨q₁, s₁, by rw [hq₁, heq, List.length_append], hP₁, he⟩
    | @raised l q q₁ s s₁ e hl hr hw =>
      intro k hk hq hP
      obtain rfl : part[k] = l := Option.some.inj ((hat hk hq).symm.trans hl)
      exact .inl ((h part[k] (List.getElem_mem hk) q s hP).2 e q₁ s₁ hr hw)
    | restored => intros; exact .inl (.inl (protected_restored _))
  rcases part.length.eq_zero_or_pos with h0 | hpos
  · exact .inr ⟨q, s, by simpa [h0] using hq, hP, he⟩
  · exact main 0 hpos hq hP

/-- The lines that go on to the next line: all but the two of the wait's loop (R99). -/
def Line.nextOnly : Line → Bool
  | .poll | .pollInterval => false
  | _ => true

/-- A line that is done goes on to the next line. -/
def LineOutcome.StepsOn (q : Seq) : LineOutcome → Prop
  | .done q' _ => q'.step = q.step + 1
  | .raised _ _ _ => True

theorem lineFlushData_stepsOn (q : Seq) (s : State) : (lineFlushData q s).StepsOn q := by
  unfold lineFlushData
  split
  · rfl
  · trivial

theorem lineTestStatus_stepsOn (failure : Byte → Report) (q : Seq) (s : State) : (lineTestStatus failure q s).StepsOn q := by
  unfold lineTestStatus
  split
  · rfl
  · split
    · trivial
    · rfl

/-- Every line but the two of the wait's loop goes on to the next line (R83, R91, R108). -/
theorem runLine_stepsOn {l : Line} (hl : l.nextOnly = true) (q : Seq) (s : State) : (runLine l q s).StepsOn q := by
  cases l with
  | poll | pollInterval => cases hl
  | flush bus =>
    cases bus
    · exact lineFlushData_stepsOn q s
    · rfl
  | driveData b | latchByte b => exact lineFlushData_stepsOn q (setData b s)
  | sample bus => simp only [runLine, lineSample]; split <;> trivial
  | checkEntry op => simp only [runLine, lineCheckEntry]; split <;> trivial
  | readByte r =>
    simp only [runLine, lineReadByte]
    split
    · cases r <;> rfl
    · trivial
  | compareId => simp only [runLine, lineCompareId]; split <;> rfl
  | testErase block => exact lineTestStatus_stepsOn _ q s
  | testProgram page => exact lineTestStatus_stepsOn _ q s
  | sourceRecord i => simp only [runLine, lineSourceRecord]; split <;> trivial
  | sinkRecord => simp only [runLine, lineSinkRecord]; split <;> trivial
  | _ => rfl

/-- One line that goes on to the next. -/
theorem leads_single {tr : Option (List Event)} {l : Line} {P Q : Phase} (h : LineLeads tr l P Q) (hl : l.nextOnly = true) :
    Leads tr [l] P Q := by
  intro lines before behind q s t hlines hq hP he
  have hat : lines[q.step]? = some l := hlines ▸ line_at 0 hq rfl
  have hstep := runLine_stepsOn hl q s
  cases he with
  | past hnone => rw [hat] at hnone; cases hnone
  | @line l' _ q₁ _ s₁ _ hl' hr he =>
    obtain rfl : l = l' := Option.some.inj (hat.symm.trans hl')
    rw [hr] at hstep
    exact .inr ⟨q₁, s₁, by simp [show q₁.step = q.step + 1 from hstep, hq], (h q s hP).1 q₁ s₁ hr, he⟩
  | @raised l' _ q₁ _ s₁ e hl' hr hw =>
    obtain rfl : l = l' := Option.some.inj (hat.symm.trans hl')
    exact .inl ((h q s hP).2 e q₁ s₁ hr hw)
  | restored => exact .inl (.inl (protected_restored _))

/-- Lines inside the bracket that go on to the next line and are not bare. -/
theorem leads_opened (tr : Option (List Event)) {part : List Line} (h : ∀ l ∈ part, l.nextOnly = true ∧ l.bare = false) :
    Leads tr part Opened Opened := by
  refine leads_of_inside (fun l hl => lineLeads_opened tr (h l hl).2) fun k l q s q' s' hk hr => ?_
  obtain ⟨hlt, rfl⟩ := List.getElem?_eq_some_iff.1 hk
  have hstep := runLine_stepsOn (h _ (List.getElem_mem hlt)).1 q s
  rw [hr] at hstep
  exact ⟨k + 1, hlt, by rw [show q'.step = q.step + 1 from hstep]; omega⟩

/-- The wait's loop goes on inside the wait, or to the line behind it (R99). -/
theorem inside_wait : Inside waitWhileBusy := by
  intro k l q s q' s' hk hr
  match k with
  | 0 => cases hk; cases hr; exact ⟨1, by decide, rfl⟩
  | 1 =>
    cases hk
    simp only [runLine, linePoll] at hr
    split at hr
    · cases hr; exact ⟨3, by decide, by simp⟩
    · split at hr
      · cases hr
      · cases hr; exact ⟨2, by decide, by simp⟩
  | 2 => cases hk; cases hr; exact ⟨q.step - 1 + 2 - q.step, by simp [waitWhileBusy]; omega, by simp; omega⟩
  | k + 3 => cases hk

/-- The wait inside the bracket. -/
theorem leads_wait (tr : Option (List Event)) : Leads tr waitWhileBusy Opened Opened := by
  refine leads_of_inside (fun l hl => lineLeads_opened tr ?_) inside_wait
  revert l
  simp [waitWhileBusy, Line.bare]

/-! ## Erase and program -/

theorem leads_latchCommand (tr : Option (List Event)) (b : Byte) : Leads tr (latchCommand b) Opened Opened :=
  leads_opened tr (by simp [latchCommand, Line.nextOnly, Line.bare])

/-- The loop of bytes latched. -/
theorem leads_latchBytes (tr : Option (List Event)) (cfg : Config) (bytes : List Byte) :
    Leads tr (latchBytes cfg bytes) Opened Opened :=
  leads_opened tr (forall_mem_latchBytes (by simp [latchByteLines, Line.nextOnly, Line.bare]) bytes)

theorem leads_latchAddress (tr : Option (List Event)) (cfg : Config) (bytes : List Byte) :
    Leads tr (latchAddress cfg bytes) Opened Opened := by
  refine .append (.append (leads_opened tr ?_) (leads_latchBytes tr cfg bytes)) (leads_opened tr ?_) <;>
    simp [Line.nextOnly, Line.bare]

theorem leads_latchDataIn (tr : Option (List Event)) (cfg : Config) (bytes : List Byte) :
    Leads tr (latchDataIn cfg bytes) Opened Opened :=
  .append (a := [.checkEntry .LDIN]) (leads_opened tr (by simp [Line.nextOnly, Line.bare])) (leads_latchBytes tr cfg bytes)

theorem leads_latchRegisterOut (tr : Option (List Event)) (cfg : Config) (r : Bool) (n : Nat) :
    Leads tr (latchRegisterOut cfg r n) Opened Opened := by
  refine .append (.append (leads_opened tr ?_) (leads_opened tr (forall_mem_readBytes ?_ n))) (leads_opened tr ?_) <;>
    simp [readByteLines, Line.nextOnly, Line.bare]

/-- The status read closes the bracket (R111, R114). -/
theorem leads_statusTail (tr : Option (List Event)) (cfg : Config) (r : Bool) :
    Leads tr (statusTail cfg r) Opened (Resting tr) := by
  have hclose : Leads tr [.takeStatus, .writeProtect false] Opened (Resting tr) :=
    .append (a := [.takeStatus]) (leads_opened tr (by simp [Line.nextOnly, Line.bare]))
      ((leads_single (lineLeads_close tr) rfl).mono fun _ _ _ => trivial)
  refine (((leads_latchCommand tr _).append (leads_latchRegisterOut tr cfg r 1)).append hclose).append ?_
  cases r
  · exact leads_nil tr _
  · exact leads_single (silent_storeStatus.lineLeads tr) rfl

/-- An erase closes its bracket, from any state (R111, R114). -/
theorem leads_erase (tr : Option (List Event)) (cfg : Config) (r : Bool) (block : Nat) :
    Leads tr (eraseLines cfg r block) Anywhere (Resting tr) :=
  ((((((leads_single (lineLeads_open tr) rfl).append (leads_latchCommand tr _)).append (leads_latchAddress tr cfg _)).append
    (leads_latchCommand tr _)).append (leads_wait tr)).append (leads_statusTail tr cfg r)).append
    (leads_single ((silent_testErase block).lineLeads tr) rfl)

/-- A program closes its bracket, from any state (R112, R114). -/
theorem leads_program (tr : Option (List Event)) (cfg : Config) (r : Bool) (page : Nat) (bytes : List Byte) :
    Leads tr (programLines cfg r page bytes) Anywhere (Resting tr) :=
  (((((((leads_single (lineLeads_open tr) rfl).append (leads_latchCommand tr _)).append (leads_latchAddress tr cfg _)).append
    (leads_latchDataIn tr cfg bytes)).append (leads_latchCommand tr _)).append (leads_wait tr)).append
    (leads_statusTail tr cfg r)).append (leads_single ((silent_testProgram page).lineLeads tr) rfl)

/-! ## Ranges -/

/-- A range whose elements keep a phase keeps it. -/
theorem leads_range {tr : Option (List Event)} {f : Nat → List Line} {P : Phase} (h : ∀ i, Leads tr (f i) P P) (n : Nat) :
    ∀ i, Leads tr (rangeLines f i n) P P := by
  induction n with
  | zero => intro i; exact leads_nil tr P
  | succ n ih => intro i; exact (h i).append (ih (i + 1))

/-- An element of ERASERANGE, from any state (R122). -/
theorem leads_eraseElement (tr : Option (List Event)) (cfg : Config) (start i : Nat) :
    Leads tr (eraseElement cfg start i) Anywhere (Resting tr) := by
  have helement : LineLeads tr (.element i) Anywhere Anywhere := fun _ _ _ =>
    ⟨fun _ _ _ => trivial, fun _ _ _ hr => by cases hr⟩
  exact .append (a := [.element i]) (leads_single helement rfl) (leads_erase tr cfg false (start + i))

/-- An element of PROGRAMRANGE: the record's transfer makes no adapter call, and a program closes its bracket (R120, R121). -/
theorem leads_programElement (tr : Option (List Event)) (s₀ : State) (start i : Nat) :
    Leads tr (programElement s₀ start i) (Resting tr) (Resting tr) := by
  have hrecord : Leads tr (if skipRecord (sourceRecord s₀ i) then []
      else programLines s₀.cfg false (start + i) (sourceRecord s₀ i)) (Resting tr) (Resting tr) := by
    split
    · exact leads_nil tr _
    · exact (leads_program tr s₀.cfg false (start + i) (sourceRecord s₀ i)).mono fun _ _ _ => trivial
  exact .append (a := [.sourceRecord i]) (leads_single ((silent_sourceRecord i).lineLeads tr) rfl) hrecord

/-- ERASERANGE with at least one block, from any state (R122). -/
theorem leads_eraseRange (tr : Option (List Event)) (cfg : Config) (start : Nat) {n : Nat} (hn : 0 < n) :
    Leads tr (rangeLines (eraseElement cfg start) 0 n) Anywhere (Resting tr) := by
  obtain ⟨m, rfl⟩ := Nat.exists_eq_add_of_lt hn
  rw [Nat.zero_add]
  exact (leads_eraseElement tr cfg start 0).append
    (leads_range (fun i => (leads_eraseElement tr cfg start i).mono fun _ _ _ => trivial) m 1)

/-! ## The end of the request -/

/-- A request whose whole sequence leads to rest ends well. -/
theorem endsWell_of_leads {tr : Option (List Event)} {i : Instr} {s t : State} {P : Phase} (hs : Between s)
    (ha : requestError i s = none) (h : Leads tr (linesOf i s) P (Resting tr)) (hP : P (Seq.start i) s) (ht : RespondsAt i s t) :
    EndsWell tr t := by
  have he := (respondsAt_iff_ends hs ha).1 ht
  rcases h (linesOf i s) [] [] (Seq.start i) s t (by simp) rfl hP he with hend | ⟨q', s', hq, hrest, he'⟩
  · exact hend
  · have hpast : (linesOf i s)[q'.step]? = none := by rw [hq]; simp
    cases he' with
    | past => exact hrest.2
    | line hl | raised hl | restored hl => rw [hpast] at hl; cases hl

/-- A request refused at its start makes no adapter call (R75). -/
theorem trace_of_refused {i : Instr} {s t : State} {e : Report} (hs : Between s) (ha : requestError i s = some e)
    (ht : RespondsAt i s t) : t.trace = s.trace := by
  have hexec := exec_eq_respond_of_requestError hs ha
  have hfirst : RespondsAt i s (respond (Seq.start i) e s) :=
    ⟨0, by simp [execTimes, hexec], respond_between hs.1, fun m hm => absurd hm (Nat.not_lt_zero m)⟩
  rw [ht.unique hfirst, respond_trace]

/-- Settles O59: the sequence of each of the four leads from any state into the bracket and out of it, and an error inside it is
restored. -/
theorem bracketIsClosedAtEveryResponse : Obligations.BracketIsClosedAtEveryResponse := by
  intro i s t hs hi ht
  have done (h : Protected t) : ProtectionOn t ∧ t.physCtrl = some t.ctrl := ⟨⟨h.2, _, h.1, h.2⟩, h.1⟩
  have closed (h : EndsWell none t) : ProtectionOn t ∧ t.physCtrl = some t.ctrl := done (h.resolve_right nofun)
  rcases hi with ⟨block, rfl⟩ | ⟨page, length, rfl, hn, hp⟩ | ⟨start, count, rfl, hn⟩ | ⟨start, count, rfl, hne⟩
  · exact closed (endsWell_of_leads (i := .erase block) hs (requestError_none_of_no_payload rfl rfl rfl)
      (leads_erase none s.cfg true block.toNat) trivial ht)
  · exact closed (endsWell_of_leads hs (requestError_program hn hp) (leads_program none s.cfg true _ _) trivial ht)
  · exact closed (endsWell_of_leads (i := .eraserange start count) hs (requestError_none_of_no_payload rfl rfl rfl)
      (leads_eraseRange none s.cfg start.toNat hn) trivial ht)
  · cases ha : requestError (.programrange start count) s with
    | some e => exact absurd (trace_of_refused hs ha ht) hne
    | none =>
      have hrange := leads_range (leads_programElement (some s.trace) s start.toNat) count.toNat 0
      exact done ((endsWell_of_leads hs ha hrange ⟨rfl, .inr rfl⟩ ht).resolve_right fun h => hne (Option.some.inj h))

end Sys2Proof.Machine
end
